-- ==== Sys2Proof/Word.lean ====
section
/-! DEFINITION. The bit-vector types of the block (00:R5 `REG_W`, `BYTE_W`, `ADDR_W`; 30:R96). -/

namespace Sys2Proof

/-- A FIFO entry, a bus byte, an element of `Buf`: 8 bits (00:R5 `BYTE_W`). -/
abbrev Byte := BitVec 8

/-- A BSC register, a command word, a response word: 32 bits (00:R5 `REG_W`, 30:R91, R95). -/
abbrev Word := BitVec 32

/-- A producer address: 16 bits, rolling (10:R25). -/
abbrev Addr := BitVec 16

/-- A bus request word: 36 bits (30:R96). -/
abbrev Request := BitVec 36

end Sys2Proof
end

