-- ==== Sys2Proof/Config.lean ====
section
/-! DEFINITION. The parameters of 00_scope.md rule R5 and the free values (`draw`, 00:R8).
A parameter R5 calls OPEN is a field of `Params`, which a state carries and no step changes (log entry 1); an `opaque`
constant has no body, so nothing about its value can be proved (log entry 2). -/

namespace Sys2Proof

/-- 00:R5: the parameters a realisation chooses (92 D2 to D5, D34). -/
structure Params where
  /-- `RX_DEPTH`: entries of the receive FIFO. -/
  rxDepth : Nat
  /-- `TX_DEPTH`: entries of the transmit FIFO, the send latch not counted. -/
  txDepth : Nat
  idxDr : Nat
  idxRsr : Nat
  idxCr : Nat
  idxFr : Nat
  frRxfe : Nat
  frTxff : Nat
  frRxff : Nat
  frTxfe : Nat
  frRxbusy : Nat
  frTxflrLo : Nat
  frTxflrW : Nat
  frRxflrLo : Nat
  frRxflrW : Nat
  crTxe : Nat
  crRxe : Nat
  crI2c : Nat
  crBrk : Nat
deriving DecidableEq, Repr

namespace Config

/-- 00:R5 `RSR_OE`, fixed. -/
def rsrOe : Nat := 0
/-- 00:R5 `RSR_UE`, fixed. -/
def rsrUe : Nat := 1
/-- 00:R5 `CR_EN`, fixed. -/
def crEn : Nat := 0

/-- 00:R5 `CAP_W`: bits of an encoded capacity, the width of `ARG` (30:R91, R92, 92 D13). -/
abbrev capW : Nat := 16

/-- 00:R5 `COUNT_W`: bits of an encoded count, the width of `VALUE` (30:R95, 92 D13). -/
abbrev countW : Nat := 31

/-- 00:R5 `BSC_BASE`: OPEN, with no default. -/
opaque bscBase : Nat

/-- 00:R5 `SLEEP_INTERVAL`: OPEN, any value; no rule depends on it (40:R133). -/
opaque sleepInterval : Nat

/-- The k-th free register word: undescribed bits of a register read, a drawn bit or byte (00:R8 `draw`, 93 U3, U10). -/
opaque freeWord : Nat → Word

/-- The k-th free list of bytes: FIFO contents the spec leaves open (93 U4, U13). -/
opaque freeBytes : Nat → List Byte

/-- The producer's answer `(byte, has_more)` to the k-th draw at an address (45:R233, 92 D33). -/
opaque freeAnswer : Nat → Addr → Byte × Bool

/-- 20:R61: the byte address of the register with word index `idx`. No step depends on it. -/
def registerAddress (idx : Nat) : Nat := bscBase + 4 * idx

end Config

/-- The defaults of 00:R5, which the opcode table and 95_test_vectors.md use. -/
def Params.default : Params where
  rxDepth := 16
  txDepth := 16
  idxDr := 0
  idxRsr := 1
  idxCr := 3
  idxFr := 4
  frRxfe := 1
  frTxff := 2
  frRxff := 3
  frTxfe := 4
  frRxbusy := 5
  frTxflrLo := 6
  frTxflrW := 5
  frRxflrLo := 11
  frRxflrW := 5
  crTxe := 8
  crRxe := 9
  crI2c := 2
  crBrk := 7

/-- The word indices (92 D2). -/
def Params.indices (p : Params) : List Nat := [p.idxDr, p.idxRsr, p.idxCr, p.idxFr]

/-- The bit positions of FR's one-bit fields (92 D3, D34). -/
def Params.frFlags (p : Params) : List Nat := [p.frRxfe, p.frTxff, p.frRxff, p.frTxfe, p.frRxbusy]

/-- The bit positions of CR's fields (92 D4). -/
def Params.crBits (p : Params) : List Nat := [Config.crEn, p.crTxe, p.crRxe, p.crI2c, p.crBrk]

/-- The constraints of 00:R5 on a choice of parameters, with 30:R96 for the word indices. A register has 32 bits. -/
structure Params.Valid (p : Params) : Prop where
  rxDepth : 1 ≤ p.rxDepth
  txDepth : 1 ≤ p.txDepth
  indices : p.indices.Nodup
  indexFits : ∀ k ∈ p.indices, k < 8
  frFlags : p.frFlags.Nodup
  frFlagFits : ∀ k ∈ p.frFlags, k < 32
  frTxflrFits : p.frTxflrLo + p.frTxflrW ≤ 32
  frRxflrFits : p.frRxflrLo + p.frRxflrW ≤ 32
  frTxflrApart : ∀ k ∈ p.frFlags, k < p.frTxflrLo ∨ p.frTxflrLo + p.frTxflrW ≤ k
  frRxflrApart : ∀ k ∈ p.frFlags, k < p.frRxflrLo ∨ p.frRxflrLo + p.frRxflrW ≤ k
  frLevelsApart : p.frTxflrLo + p.frTxflrW ≤ p.frRxflrLo ∨ p.frRxflrLo + p.frRxflrW ≤ p.frTxflrLo
  txLevel : p.txDepth < 2 ^ p.frTxflrW
  rxLevel : p.rxDepth < 2 ^ p.frRxflrW
  crBits : p.crBits.Nodup
  crBitFits : ∀ k ∈ p.crBits, k < 32

end Sys2Proof
end

