-- ==== Sys2Proof/Syntax.lean ====
section
/-! DEFINITION. The instructions: one constructor per row of spec/opcode_table.json (30:R90 kinds (1) and (2)). -/

namespace Sys2Proof

/-- The three commands a host issues and the nine register accesses the sequencer issues. -/
inductive Instr where
  /-- `SENSE` (43:R210). -/
  | sense
  /-- `RXPOLL`: `BP` and `ARG`, the capacity, of `CAP_W` bits (41:R150, 30:R92). -/
  | rxpoll (bp : Bool) (arg : BitVec Config.capW)
  /-- `TXSTREAM`: `ARG`, the starting producer address (42:R170, 30:R92). -/
  | txstream (addr : Addr)
  /-- `RD_DR` (40:R123); a read has no operand, its WDATA is ignored (30:R96, R97). -/
  | rdDr
  /-- `RD_RSR` (40:R122). -/
  | rdRsr
  /-- `RD_CR` (40:R124). -/
  | rdCr
  /-- `RD_FR` (40:R121). -/
  | rdFr
  /-- `WR_DR`: the byte to enqueue, WDATA bits 7:0 (40:R125). -/
  | wrDr (b : Byte)
  /-- `CLR_OE` (40:R126). -/
  | clrOe
  /-- `CLR_UE` (40:R127). -/
  | clrUe
  /-- `TXE_OFF`, the write half: WDATA, CR as just read with TXE = 0 (40:R128, 30:R97). -/
  | txeOff (wdata : Word)
  /-- `TXE_ON`, the write half: WDATA, CR as just read with TXE = 1 (40:R129, 30:R97). -/
  | txeOn (wdata : Word)
deriving DecidableEq, Repr

end Sys2Proof
end

