-- ==== Sys2Proof/WellFormed.lean ====
section
/-! DEFINITION. Which instructions the encodings of 30_encoding.md can express, for given parameters. -/

namespace Sys2Proof

/-- The write data of `TXE_OFF` has bit `CR_TXE` clear and that of `TXE_ON` has it set (30:R97: the patterns are
disjoint by that bit). Every other operand fits its field by its type. -/
def Instr.wellFormed (p : Params) : Instr → Bool
  | .txeOff w => !w.getLsbD p.crTxe
  | .txeOn w => w.getLsbD p.crTxe
  | .sense => true
  | .rxpoll _ _ => true
  | .txstream _ => true
  | .rdDr => true
  | .rdRsr => true
  | .rdCr => true
  | .rdFr => true
  | .wrDr _ => true
  | .clrOe => true
  | .clrUe => true

end Sys2Proof
end

