-- ==== Sys2Proof/Decode.lean ====
section
/-! DEFINITION. Decoder and encoder of the command words (30:R91 to R94) and the bus request words (30:R96, R97).
A word is one transaction; the spec gives it no bytes (20:R70), so the decoder takes words (log entry 24). -/

namespace Sys2Proof

/-- 00:R7 `bit(k)`: the 32-bit word with only bit `k` set. -/
def bit (k : Nat) : Word := 1#32 <<< k

/-- Why a word decodes to no instruction. The first four are the classes of 30:R94, the others of 20:R69 and 30:R97. -/
inductive Reject where
  /-- A command word with `OP = 00`. -/
  | reservedOp
  /-- A command word with `Z` not zero. -/
  | reservedBits
  /-- `SENSE` with `BP = 1` or `ARG` not zero. -/
  | senseOperand
  /-- `TXSTREAM` with `BP = 1`. -/
  | txstreamBuffer
  /-- A request to a word index other than DR, RSR, CR, FR. -/
  | unknownRegister
  /-- A request that writes FR. -/
  | writesFlagRegister
  /-- A write of DR with bits 31:8 not zero. -/
  | drUpperBits
  /-- A write of RSR with a word other than the two clear words. -/
  | rsrWriteData
deriving DecidableEq, Repr

/-- One row of the opcode maps 30:R93 and R97. -/
structure Row (n : Nat) where
  mnemonic : String
  mask : BitVec n
  value : BitVec n
deriving DecidableEq, Repr

/-- 30:R93: a word `w` selects the row when `w AND mask = match`. -/
def Row.selects {n : Nat} (r : Row n) (w : BitVec n) : Bool := w &&& r.mask == r.value

def rowSense : Row 32 := ⟨"SENSE", 0xFFFFFFFF#32, 0x00000001#32⟩
def rowRxpoll : Row 32 := ⟨"RXPOLL", 0x0000FFFB#32, 0x00000002#32⟩
def rowTxstream : Row 32 := ⟨"TXSTREAM", 0x0000FFFF#32, 0x00000003#32⟩

/-- 30:R96: `WE` in bit 35, `WIDX` in bits 34:32, `WDATA` in bits 31:0. -/
def requestWord (we : Bool) (idx : Nat) (wdata : Word) : Request :=
  (if we then 0x800000000#36 else 0#36) ||| (BitVec.ofNat 3 idx).setWidth 36 <<< 32 ||| wdata.setWidth 36

/-- 30:R104: the clear word of `CLR_OE`, `NOT bit(0)`. -/
def clearOeWord : Word := ~~~ bit Config.rsrOe

/-- 30:R104: the clear word of `CLR_UE`, `NOT bit(1)`. -/
def clearUeWord : Word := ~~~ bit Config.rsrUe

/-- A row of 30:R97: `WE` and `WIDX` are fixed, and the bits of WDATA under `dmask`. -/
def busRow (mnemonic : String) (we : Bool) (idx : Nat) (dmask dvalue : Word) : Row 36 :=
  ⟨mnemonic, 0xF00000000#36 ||| dmask.setWidth 36, requestWord we idx dvalue⟩

def rowRdDr (p : Params) : Row 36 := busRow "RD_DR" false p.idxDr 0#32 0#32
def rowRdRsr (p : Params) : Row 36 := busRow "RD_RSR" false p.idxRsr 0#32 0#32
def rowRdCr (p : Params) : Row 36 := busRow "RD_CR" false p.idxCr 0#32 0#32
def rowRdFr (p : Params) : Row 36 := busRow "RD_FR" false p.idxFr 0#32 0#32
def rowWrDr (p : Params) : Row 36 := busRow "WR_DR" true p.idxDr 0xFFFFFF00#32 0#32
def rowClrOe (p : Params) : Row 36 := busRow "CLR_OE" true p.idxRsr 0xFFFFFFFF#32 clearOeWord
def rowClrUe (p : Params) : Row 36 := busRow "CLR_UE" true p.idxRsr 0xFFFFFFFF#32 clearUeWord
def rowTxeOff (p : Params) : Row 36 := busRow "TXE_OFF" true p.idxCr (bit p.crTxe) 0#32
def rowTxeOn (p : Params) : Row 36 := busRow "TXE_ON" true p.idxCr (bit p.crTxe) (bit p.crTxe)

/-- The command map of 30:R93, in its order. -/
def commandRows : List (Row 32) := [rowSense, rowRxpoll, rowTxstream]

/-- The bus map of 30:R97, in its order; with other parameters than the defaults the `WIDX` nibble and the TXE bit move. -/
def busRows (p : Params) : List (Row 36) :=
  [rowRdDr p, rowRdRsr p, rowRdCr p, rowRdFr p, rowWrDr p, rowClrOe p, rowClrUe p, rowTxeOff p, rowTxeOn p]

/-- 30:R91: the fields of a command word. -/
def cmdOp (cw : Word) : BitVec 2 := cw.extractLsb' 0 2
def cmdBp (cw : Word) : Bool := cw.getLsbD 2
def cmdZ (cw : Word) : BitVec 13 := cw.extractLsb' 3 13
def cmdArg (cw : Word) : BitVec 16 := cw.extractLsb' 16 16

/-- 30:R96: the fields of a request word. -/
def reqWe (bw : Request) : Bool := bw.getLsbD 35
def reqIdx (bw : Request) : Nat := (bw.extractLsb' 32 3).toNat
def reqData (bw : Request) : Word := bw.extractLsb' 0 32

/-- The class of 30:R94 a reserved command word falls in. -/
def rejectCommand (cw : Word) : Reject :=
  if cmdOp cw = 0#2 then .reservedOp
  else if cmdZ cw ≠ 0#13 then .reservedBits
  else if cmdOp cw = 1#2 then .senseOperand
  else .txstreamBuffer

/-- 30:R93, R94: the command a word encodes, or the reason it is reserved. -/
def decodeCommand (cw : Word) : Except Reject Instr :=
  if rowSense.selects cw then .ok .sense
  else if rowRxpoll.selects cw then .ok (.rxpoll (cmdBp cw) (cmdArg cw))
  else if rowTxstream.selects cw then .ok (.txstream (cmdArg cw))
  else .error (rejectCommand cw)

/-- The class of a request word no micro-operation issues (30:R97, 20:R69). -/
def rejectRequest (p : Params) (bw : Request) : Reject :=
  if reqIdx bw = p.idxDr then .drUpperBits
  else if reqIdx bw = p.idxRsr then .rsrWriteData
  else if reqIdx bw = p.idxFr then .writesFlagRegister
  else .unknownRegister

/-- 30:R97: the bus micro-operation a request word stands for, or the reason it is never issued. -/
def decodeRequest (p : Params) (bw : Request) : Except Reject Instr :=
  if (rowRdDr p).selects bw then .ok .rdDr
  else if (rowRdRsr p).selects bw then .ok .rdRsr
  else if (rowRdCr p).selects bw then .ok .rdCr
  else if (rowRdFr p).selects bw then .ok .rdFr
  else if (rowWrDr p).selects bw then .ok (.wrDr ((reqData bw).setWidth 8))
  else if (rowClrOe p).selects bw then .ok .clrOe
  else if (rowClrUe p).selects bw then .ok .clrUe
  else if (rowTxeOff p).selects bw then .ok (.txeOff (reqData bw))
  else if (rowTxeOn p).selects bw then .ok (.txeOn (reqData bw))
  else .error (rejectRequest p bw)

/-- An encoded instruction: a command word or a bus request word (30:R90). -/
inductive Encoded where
  | command (cw : Word)
  | request (bw : Request)
deriving DecidableEq, Repr

/-- The decoder: total on every word of either format. -/
def decode (p : Params) : Encoded → Except Reject Instr
  | .command cw => decodeCommand cw
  | .request bw => decodeRequest p bw

/-- 30:R91, R111: the command word with the given fields, `Z` zero. -/
def commandWord (arg : BitVec 16) (bp : Bool) (op : BitVec 2) : Word :=
  arg.setWidth 32 <<< 16 ||| (if bp then 4#32 else 0#32) ||| op.setWidth 32

/-- The word of an instruction (30:R93, R97); a read is issued with WDATA zero (30:R96). -/
def encode (p : Params) : Instr → Encoded
  | .sense => .command (commandWord 0#16 false 1#2)
  | .rxpoll bp arg => .command (commandWord arg bp 2#2)
  | .txstream addr => .command (commandWord addr false 3#2)
  | .rdDr => .request (requestWord false p.idxDr 0#32)
  | .rdRsr => .request (requestWord false p.idxRsr 0#32)
  | .rdCr => .request (requestWord false p.idxCr 0#32)
  | .rdFr => .request (requestWord false p.idxFr 0#32)
  | .wrDr b => .request (requestWord true p.idxDr (b.setWidth 32))
  | .clrOe => .request (requestWord true p.idxRsr clearOeWord)
  | .clrUe => .request (requestWord true p.idxRsr clearUeWord)
  | .txeOff w => .request (requestWord true p.idxCr w)
  | .txeOn w => .request (requestWord true p.idxCr w)

/-- The word `w` of an opcode-table row of `nbits` bits: a command word up to 32 bits, a request word above. A value
too wide for its format is no instruction. -/
def encodedOfTable (nbits w : Nat) : Option Encoded :=
  if nbits ≤ 32 then
    if w < 2 ^ 32 then some (.command (BitVec.ofNat 32 w)) else none
  else if w < 2 ^ 36 then some (.request (BitVec.ofNat 36 w)) else none

/-- What this decoder reads from a table row's word; the table is written with the default parameters (00:R6). -/
def decodeTableWord (nbits w : Nat) : Option Instr :=
  (encodedOfTable nbits w).bind fun e => (decode Params.default e).toOption

end Sys2Proof
end

