-- ==== Sys2Proof/Machine/State.lean ====
section
/-! DEFINITION. The state of the machine as plain data (10_state.md), the reasons a step can stop, and the state after
reset (10:R48, R49). -/

namespace Sys2Proof.Machine

/-- 10:R26: the 32 labels of the sequencer's control state. -/
inductive Label where
  | idle | accept
  | rxEntry | rxK0 | rxCond | rxK1 | rxRsr | rxClr | rxDr | rxStore | rxDone
  | txInit | txK0 | txOcond | txK1 | txIcond | txK2 | txRsr | txClr | txProd | txPush | txSleep
  | txAcct | txCalc | txFcond | txFoff | txFon | txLoff | txLon | txDone
  | snRd | snDone
deriving DecidableEq, Repr

/-- 10:R22 `E.op`: the command being executed. -/
inductive Op where
  | sense | rxpoll | txstream
deriving DecidableEq, Repr

/-- 10:R40: the bus phase from the slave's perspective. -/
inductive BusPhase where
  | idle | masterWriting | slaveWriting
deriving DecidableEq, Repr

/-- 60:R261: the events. -/
inductive Event where
  | overrun | underrun | invalidArgument | notReady | cancelled
deriving DecidableEq, Repr

/-- 00:R8: the four registers of the window. -/
inductive Reg where
  | dr | rsr | cr | fr
deriving DecidableEq, Repr

/-- 30:R95: the kind of a response. -/
inductive ReturnKind where
  | done | aborted
deriving DecidableEq, Repr

/-- 10:R22: the engine's working registers `E.*`. -/
structure Engine where
  op : Op
  bp : Bool
  cap : Nat
  n : Nat
  addr : Addr
  offered : Nat
  f : Word
  r : Word
  c : Word
  d : Word
  pb : Byte
  pm : Bool
  resident : Nat
  count : Nat
deriving DecidableEq, Repr

/-- 10:R30: the BSC state `(rxq, txq, txl, OE, UE, CR, bus)`; the queues hold the oldest byte first. -/
structure Bsc where
  rxq : List Byte
  txq : List Byte
  txl : Option Byte
  oe : Bool
  ue : Bool
  cr : Word
  bus : BusPhase
deriving DecidableEq, Repr

/-- 10:R42: the host's state `ready`, `cancel`, `Buf`, and the command port of 40:R137 and 45:R235: the word presented,
with the contents of the buffer the host supplies with it. -/
structure HostSide where
  ready : Bool
  cancel : Bool
  cmd : Option Word
  cmdBuf : List Host.Cell
  bufPresent : Bool
  buf : List Host.Cell
deriving DecidableEq, Repr

/-- The master's steps, 45:R222 to R226. -/
inductive MasterStep where
  | startWrite
  | write (b : Byte)
  | startRead
  | read
  | stop
deriving DecidableEq, Repr

/-- The host's steps, 45:R235 to R239. -/
inductive HostStep where
  /-- Present a command word with the contents of the buffer supplied with it (45:R235). -/
  | issue (cw : Word) (cells : List Host.Cell)
  /-- `H.CANCEL` (45:R236). -/
  | cancel
  /-- `H.UNCANCEL` (45:R236). -/
  | uncancel
  /-- `H.SETUP` (45:R238); `mapped = false` is the setup that fails. -/
  | setup (mapped : Bool)
  /-- `H.TEARDOWN` (45:R239). -/
  | teardown
  /-- A teardown while a command runs, the breach of `P_MAPPED` that 45:R239 and 93 U8 name (log entry 15). -/
  | unmap
deriving DecidableEq, Repr

/-- 45:R220: which agent takes the next step, and with what. -/
inductive Turn where
  | engine
  | master (m : MasterStep)
  | host (h : HostStep)
deriving DecidableEq, Repr

/-- The model's own fields (log entries 2, 3, 17): the turns to come, the producer's answers to come, and how many free
values have been used. -/
structure Env where
  script : List Turn
  producer : List (Byte × Bool)
  draws : Nat
deriving DecidableEq, Repr

/-- The streams a claim is stated through (00:R12): response words, bytes the master received, producer calls, and the
bus requests the engine made (30:R96). -/
structure Observed where
  responses : List Word
  masterGot : List Byte
  calls : List Addr
  requests : List Request
deriving DecidableEq, Repr

/-- The machine: the parameters it is built with (00:R5, log entry 1), `pc` (10:R26), whether the first of a label's two
events is done (20:R72, log entry 13), `E.*`, the BSC, the host, `LOG` (10:R28), and the model's own `env` and `obs`. -/
structure State where
  par : Params
  pc : Label
  half : Bool
  eng : Engine
  bsc : Bsc
  host : HostSide
  log : List (BitVec 3 × Event)
  env : Env
  obs : Observed
deriving DecidableEq, Repr

/-- The model faults of 60:R285. Each is safe: the model stops where the spec gives no behaviour. -/
inductive Fault where
  /-- A read of DR with the receive FIFO empty (20:R65, 93 U1). Raised by `RD_DR`. Safe. -/
  | bscRxEmptyRead
  /-- A write of DR with the transmit FIFO full (20:R66, 93 U2). Raised by `WR_DR`. Safe. -/
  | bscTxFullWrite
  /-- A register access while the window is not mapped (60:R285, 93 U8). Raised by every bus micro-operation. Safe. -/
  | unmappedAccess
  /-- A buffer store outside `Buf` (20:R82: the engine never makes one). Raised by `BUFWR`. Safe. -/
  | bufferOutOfRange
deriving DecidableEq, Repr

/-- The refusals. Each is safe: the model stops where 93_implementation_defined.md says `refuse`. -/
inductive Refusal where
  /-- An instruction without a meaning yet: no arm of `exec` raises it. Safe. -/
  | notModelled (mnemonic : String)
  /-- A command accepted with `ready = 1` whose CR lacks one of EN, TXE, RXE, I2C (45:R230, 93 U5). Raised by the three
  commands. Safe. -/
  | launchWithoutReady
  /-- A write of CR that changes EN, RXE or I2C (20:R68(e), 93 U5). Raised by `TXE_OFF`, `TXE_ON`. Safe. -/
  | setupBitsChanged
  /-- `M.WRITE` or `M.READ` with the controller not set up (45:R230, 93 U5). Raised by the master's steps. Safe. -/
  | masterOutsideSetup
  /-- A count of 2^31 or more at `RETURN` (30:R95, 93 U9). Raised by the steps that return a count. Safe. -/
  | countTooWide
  /-- A write of FR, or a request word that is no micro-operation (20:R69, 93 U7). Raised by `regWrite`, `step`. Safe. -/
  | accessNotIssued
deriving DecidableEq, Repr

/-- The state after reset: 10:R48 for `pc`, `LOG`, `ready`, `cancel`, `Buf`; DESIGN CHOICE for the rest (the spec gives
no value): the default parameters (log entry 1), working registers 0 (log entry 5), BSC empty and 0 (log entry 6), nothing
presented and no input listed (log entries 3, 4, 17, 20). -/
def State.reset : State where
  par := Params.default
  pc := .idle
  half := false
  eng := { op := .sense, bp := false, cap := 0, n := 0, addr := 0#16, offered := 0, f := 0#32, r := 0#32, c := 0#32,
           d := 0#32, pb := 0#8, pm := false, resident := 0, count := 0 }
  bsc := { rxq := [], txq := [], txl := none, oe := false, ue := false, cr := 0#32, bus := .idle }
  host := { ready := false, cancel := false, cmd := none, cmdBuf := [], bufPresent := false, buf := [] }
  log := []
  env := { script := [], producer := [], draws := 0 }
  obs := { responses := [], masterGot := [], calls := [], requests := [] }

end Sys2Proof.Machine
end

