-- ==== Sys2Proof/Machine/Flags.lean ====
section
/-! DEFINITION. Every flag the BSC computes: the fields of FR (10:R37, R41), the view RSR (10:R38), the sticky flags'
update by a write (20:R64), and the values a register read returns. -/

namespace Sys2Proof.Machine

/-- `b` at bit `k` of a word of zeros. -/
def flagAt (k : Nat) (b : Bool) : Word := if b then bit k else 0#32

/-- The number `v`, kept to `w` bits, at bit `lo` of a word of zeros (log entry 22). -/
def fieldAt (lo w v : Nat) : Word := (BitVec.ofNat w v).setWidth 32 <<< lo

/-- 10:R37 RXFE. -/
def Bsc.rxfe (b : Bsc) : Bool := b.rxq.length == 0
/-- 10:R37 TXFF. -/
def Bsc.txff (p : Params) (b : Bsc) : Bool := b.txq.length == p.txDepth
/-- 10:R37 RXFF. -/
def Bsc.rxff (p : Params) (b : Bsc) : Bool := b.rxq.length == p.rxDepth
/-- 10:R37 TXFE: the latch is not counted (10:R33). -/
def Bsc.txfe (b : Bsc) : Bool := b.txq.length == 0
/-- 10:R37 RXBUSY. -/
def Bsc.rxbusy (b : Bsc) : Bool := b.bus == .masterWriting

/-- The described bits of FR (10:R41); all other bits zero. -/
def frDescribed (p : Params) (b : Bsc) : Word :=
  flagAt p.frRxfe b.rxfe ||| flagAt p.frTxff (b.txff p) ||| flagAt p.frRxff (b.rxff p) |||
  flagAt p.frTxfe b.txfe ||| flagAt p.frRxbusy b.rxbusy |||
  fieldAt p.frTxflrLo p.frTxflrW b.txq.length ||| fieldAt p.frRxflrLo p.frRxflrW b.rxq.length

/-- The positions of the described bits of FR. -/
def frMask (p : Params) : Word :=
  bit p.frRxfe ||| bit p.frTxff ||| bit p.frRxff ||| bit p.frTxfe ||| bit p.frRxbusy |||
  fieldAt p.frTxflrLo p.frTxflrW (2 ^ p.frTxflrW - 1) |||
  fieldAt p.frRxflrLo p.frRxflrW (2 ^ p.frRxflrW - 1)

/-- 10:R41: the value of a read of FR; `free` supplies every other bit (`draw`). -/
def frValue (p : Params) (b : Bsc) (free : Word) : Word := frDescribed p b ||| (free &&& ~~~ frMask p)

/-- 20:R63: the value of a read of RSR; `free` supplies bits 31:2. -/
def rsrValue (b : Bsc) (free : Word) : Word :=
  flagAt Config.rsrOe b.oe ||| flagAt Config.rsrUe b.ue ||| (free &&& ~~~ (bit Config.rsrOe ||| bit Config.rsrUe))

/-- 20:R65: the value of a read of DR whose oldest byte is `b`; `free` supplies bits 31:8. -/
def drValue (b : Byte) (free : Word) : Word := b.setWidth 32 ||| (free &&& 0xFFFFFF00#32)

/-- 20:R64: a write of RSR clears each flag whose written bit is 0 and never sets one. -/
def rsrWritten (b : Bsc) (v : Word) : Bsc :=
  { b with oe := b.oe && v.getLsbD Config.rsrOe, ue := b.ue && v.getLsbD Config.rsrUe }

/-- The CR bit TXE of a word. -/
def txeOf (p : Params) (cr : Word) : Bool := cr.getLsbD p.crTxe

/-- The CR bit BRK of a word. -/
def brkOf (p : Params) (cr : Word) : Bool := cr.getLsbD p.crBrk

/-- `CR.EN = CR.RXE = CR.I2C = 1`: what 45:R223 and R230 ask. -/
def receiveSetUp (p : Params) (cr : Word) : Bool := cr.getLsbD Config.crEn && cr.getLsbD p.crRxe && cr.getLsbD p.crI2c

/-- `CR.EN = CR.I2C = 1`: what 45:R230 asks of `M.READ`. -/
def protocolSetUp (p : Params) (cr : Word) : Bool := cr.getLsbD Config.crEn && cr.getLsbD p.crI2c

/-- `CR.EN = CR.RXE = CR.TXE = CR.I2C = 1`: the CR part of `P_READY` (10:R50). -/
def launchSetUp (p : Params) (cr : Word) : Bool := receiveSetUp p cr && txeOf p cr

/-- The four bits the setup collaborator sets (45:R238). -/
def setupWord (p : Params) : Word := bit Config.crEn ||| bit p.crRxe ||| bit p.crTxe ||| bit p.crI2c

/-- The bits of CR whose change 20:R68(e) leaves unspecified. -/
def setupFixedWord (p : Params) : Word := bit Config.crEn ||| bit p.crRxe ||| bit p.crI2c

end Sys2Proof.Machine
end

