-- ==== Sys2Proof/Machine/Operands.lean ====
section
/-! DEFINITION. Operand forms: field extraction and data assembly (30:R102 to R105), command operands (30:R92), the
response word (30:R95), event codes (30:R108). -/

namespace Sys2Proof.Machine

/-- 30:R102: the fields of an FR snapshot. -/
def rxfeOf (p : Params) (f : Word) : Bool := f.getLsbD p.frRxfe
def txffOf (p : Params) (f : Word) : Bool := f.getLsbD p.frTxff
def txfeOf (p : Params) (f : Word) : Bool := f.getLsbD p.frTxfe
def rxbusyOf (p : Params) (f : Word) : Bool := f.getLsbD p.frRxbusy
/-- 30:R102: TXFLR as an unsigned number, not scaled. -/
def txflrOf (p : Params) (f : Word) : Nat := (f.extractLsb' p.frTxflrLo p.frTxflrW).toNat

/-- 30:R103: the flags of an RSR snapshot. -/
def oeOf (r : Word) : Bool := r.getLsbD Config.rsrOe
def ueOf (r : Word) : Bool := r.getLsbD Config.rsrUe

/-- 30:R103: the received byte of a DR snapshot; also the byte of a DR write (20:R66). -/
def dataOf (d : Word) : Byte := d.setWidth 8

/-- 00:R7 `zext_32`: a byte as written to DR (30:R103). -/
def zext32 (b : Byte) : Word := b.setWidth 32

/-- 30:R105: `E.c AND NOT bit(CR_TXE)`. -/
def toggleOffWord (p : Params) (c : Word) : Word := c &&& ~~~ bit p.crTxe

/-- 30:R105: `E.c OR bit(CR_TXE)`. -/
def toggleOnWord (p : Params) (c : Word) : Word := c ||| bit p.crTxe

/-- 30:R92: the capacity of `RXPOLL`, its `ARG` as an unsigned number. -/
def capacityOf (arg : BitVec Config.capW) : Nat := arg.toNat

/-- 30:R95: the response word of `Return(k, v)` for a value that fits 31 bits. -/
def responseWord (k : ReturnKind) (v : Nat) : Word :=
  (match k with
   | .done => 0#32
   | .aborted => bit 31) ||| (BitVec.ofNat 31 v).setWidth 32

/-- 30:R108: the 3-bit code of an event. -/
def eventCode : Event → BitVec 3
  | .overrun => 1#3
  | .underrun => 2#3
  | .invalidArgument => 3#3
  | .notReady => 4#3
  | .cancelled => 5#3

/-- 00:R5: the word index of a register. -/
def regIndex (p : Params) : Reg → Nat
  | .dr => p.idxDr
  | .rsr => p.idxRsr
  | .cr => p.idxCr
  | .fr => p.idxFr

/-- 40:R136(d): `max(0, offered - resident - 1)` over the integers. -/
def clampedCount (offered resident : Nat) : Nat := ((offered : Int) - (resident : Int) - 1).toNat

/-- 40:R136(b): 16-bit addition with wrap-around. -/
def nextAddr (a : Addr) : Addr := a + 1#16

end Sys2Proof.Machine
end

