-- ==== Sys2Proof/Machine/Ops.lean ====
section
/-! DEFINITION. The named operations the meanings share: the caller's buffer, the send latch, register accesses
(20_memory.md), raising an event, returning (40:R134, R135), the producer and the control state. -/

namespace Sys2Proof.Machine

/-- The answer of a meaning. -/
abbrev Result := Host.Outcome State Fault Refusal

/-- Go on with the next state; a fault or a refusal stays. -/
def andThen (o : Result) (f : State → Result) : Result :=
  match o with
  | .next s => f s
  | .fault e => .fault e
  | .refused e => .refused e

/-! ### The caller's buffer (10:R44, 20:R82) -/

/-- The byte at an index, or no value where nothing is listed (log entry 16). -/
def Memory.read : List Host.Cell → Nat → Option Byte
  | [], _ => none
  | (k, v) :: rest, a => if k = a then some v else Memory.read rest a

/-- Store one byte, keeping the indices strictly rising. -/
def Memory.write : List Host.Cell → Nat → Byte → List Host.Cell
  | [], a, b => [(a, b)]
  | (k, v) :: rest, a, b =>
    if a < k then (a, b) :: (k, v) :: rest
    else if a = k then (a, b) :: rest
    else (k, v) :: Memory.write rest a b

/-- The canonical form: indices strictly rising. An unlisted index has no value, so no entry equals it. -/
abbrev Memory.wf (m : List Host.Cell) : Prop := (m.map Prod.fst).Pairwise (· < ·)

/-- The buffer of `cap` bytes that holds the given cells, later cells winning; cells outside it are dropped. -/
def Memory.ofCells (cap : Nat) (cells : List Host.Cell) : List Host.Cell :=
  cells.foldl (fun m c => if c.1 < cap then Memory.write m c.1 c.2 else m) []

/-! ### Small updates of the state -/

/-- `pc <- L` (00:R8). -/
def goto (l : Label) (s : State) : State := { s with pc := l }

/-- One more free value has been used. -/
def usedDraws (k : Nat) (s : State) : State := { s with env := { s.env with draws := s.env.draws + k } }

/-- The free word of this draw. -/
def drawWord (s : State) : Word := Config.freeWord s.env.draws

/-- Record a bus request the engine makes (30:R96). -/
def issueRequest (w : Request) (s : State) : State :=
  { s with obs := { s.obs with requests := s.obs.requests ++ [w] } }

/-! ### The send latch -/

/-- 45:R221: while `CR.TXE = 1`, an empty latch takes the head of `txq`. -/
def loadLatch (p : Params) (b : Bsc) : Bsc :=
  if txeOf p b.cr then
    match b.txl, b.txq with
    | none, h :: t => { b with txl := some h, txq := t }
    | _, _ => b
  else b

/-! ### Register accesses (20_memory.md section 2) -/

/-- `RegRead(REG)`: the value and the side effect of 20:R62 (FR), R63 (RSR), R65 (DR), R67 (CR). -/
def regRead (r : Reg) (s : State) : Except Fault (Word × State) :=
  if s.host.ready then
    let s1 := issueRequest (requestWord false (regIndex s.par r) 0#32) s
    match r with
    | .fr => .ok (frValue s.par s.bsc (drawWord s), usedDraws 1 s1)
    | .rsr => .ok (rsrValue s.bsc (drawWord s), usedDraws 1 s1)
    | .cr => .ok (s.bsc.cr, s1)
    | .dr =>
      match s.bsc.rxq with
      | [] => .error .bscRxEmptyRead
      | b :: rest => .ok (drValue b (drawWord s), usedDraws 1 { s1 with bsc := { s1.bsc with rxq := rest } })
  else .error .unmappedAccess

/-- 20:R68(d): with BRK = 1 in the word written, `rxq`, `txq` and `txl` are unspecified (93 U4): free values within the
invariants of 10:R47 (log entry 8). -/
def breakEffect (s : State) : State :=
  if brkOf s.par s.bsc.cr then
    usedDraws 3 { s with bsc := loadLatch s.par { s.bsc with
      rxq := (Config.freeBytes s.env.draws).take s.par.rxDepth
      txq := (Config.freeBytes (s.env.draws + 1)).take s.par.txDepth
      txl := (Config.freeBytes (s.env.draws + 2)).head? } }
  else s

/-- 20:R68(a), (b), (c): the falling edge of TXE drops the latch, the rising edge loads it. -/
def txeEdge (p : Params) (old : Word) (b : Bsc) : Bsc :=
  if txeOf p old && !txeOf p b.cr then { b with txl := none }
  else if !txeOf p old && txeOf p b.cr then loadLatch p b
  else b

/-- 20:R68: a write of CR. -/
def writeCr (v : Word) (s : State) : Result :=
  if (s.bsc.cr ^^^ v) &&& setupFixedWord s.par = 0#32 then
    let s1 := breakEffect { s with bsc := { s.bsc with cr := v } }
    .next { s1 with bsc := txeEdge s.par s.bsc.cr s1.bsc }
  else .refused .setupBitsChanged

/-- 20:R66: a write of DR. -/
def writeDr (v : Word) (s : State) : Result :=
  if s.bsc.txq.length < s.par.txDepth then
    .next { s with bsc := loadLatch s.par { s.bsc with txq := s.bsc.txq ++ [dataOf v] } }
  else .fault .bscTxFullWrite

/-- `RegWrite(REG, v)`: 20:R64 (RSR), R66 (DR), R68 (CR), R69 (FR: refused). -/
def regWrite (r : Reg) (v : Word) (s : State) : Result :=
  if s.host.ready then
    let s1 := issueRequest (requestWord true (regIndex s.par r) v) s
    match r with
    | .dr => writeDr v s1
    | .rsr => .next { s1 with bsc := rsrWritten s1.bsc v }
    | .cr => writeCr v s1
    | .fr => .refused .accessNotIssued
  else .fault .unmappedAccess

/-- A register read whose value goes to a working register. -/
def readInto (r : Reg) (put : Word → Engine → Engine) (s : State) : Result :=
  match regRead r s with
  | .ok (v, t) => .next { t with eng := put v t.eng }
  | .error e => .fault e

/-! ### Events and the end of an operation -/

/-- 60:R262: `raise X` appends `(code(X), X)` to `LOG` and does nothing else. -/
def raiseEvent (x : Event) (s : State) : State := { s with log := s.log ++ [(eventCode x, x)] }

/-- 40:R135: `Return(k, v)` emits the response word and goes to `IDLE`; a value of 2^31 or more has no response word
(30:R95, 93 U9). The working registers keep their values, which are dead (10:R21, R23, 93 U12; the model's choice, log
entry 14). -/
def returnWith (k : ReturnKind) (v : Nat) (s : State) : Result :=
  if v < 2 ^ Config.countW then
    .next (goto .idle { s with obs := { s.obs with responses := s.obs.responses ++ [responseWord k v] } })
  else .refused .countTooWide

/-! ### Accepting a command (40:R137) -/

/-- The tests every well-formed command meets at `ACCEPT` before its own effect: NotReady (60:R266), then the launch
premise of 45:R230. -/
def acceptWith (launch : State → State) (s : State) : Result :=
  if s.host.ready then
    if launchSetUp s.par s.bsc.cr then .next (launch s) else .refused .launchWithoutReady
  else returnWith .done 0 (raiseEvent .notReady s)

/-- 60:R265: the answer to a reserved command word. -/
def rejectReserved (s : State) : Result := returnWith .done 0 (raiseEvent .invalidArgument s)

/-- The command word leaves the port as the engine takes it. -/
def takeCommand (s : State) : State := { s with host := { s.host with cmd := none } }

end Sys2Proof.Machine
end

