-- ==== Sys2Proof/Machine/Bus.lean ====
section
/-! DEFINITION. The meanings of the nine bus micro-operations (40:R121 to R129). Each is one bus event; `pc` is advanced
by the label that uses it (40:R120), in Sequencer.lean. -/

namespace Sys2Proof.Machine

/-- `RD_FR` (40:R121): `E.f <- RegRead(FR)`. -/
def execRdFr (s : State) : Result := readInto .fr (fun v e => { e with f := v }) s

/-- `RD_RSR` (40:R122): `E.r <- RegRead(RSR)`. -/
def execRdRsr (s : State) : Result := readInto .rsr (fun v e => { e with r := v }) s

/-- `RD_DR` (40:R123): `E.d <- RegRead(DR)`, which pops the receive FIFO. -/
def execRdDr (s : State) : Result := readInto .dr (fun v e => { e with d := v }) s

/-- `RD_CR` (40:R124): `E.c <- RegRead(CR)`. -/
def execRdCr (s : State) : Result := readInto .cr (fun v e => { e with c := v }) s

/-- `WR_DR` (40:R125): `RegWrite(DR, zext_32(b))`. -/
def execWrDr (b : Byte) (s : State) : Result := regWrite .dr (zext32 b) s

/-- `CLR_OE` (40:R126): `RegWrite(RSR, NOT bit(0))`. -/
def execClrOe (s : State) : Result := regWrite .rsr clearOeWord s

/-- `CLR_UE` (40:R127): `RegWrite(RSR, NOT bit(1))`. -/
def execClrUe (s : State) : Result := regWrite .rsr clearUeWord s

/-- `TXE_OFF`, its write half (40:R128, 30:R97): the `RD_CR` before it is an event of its own (20:R72, log entry 13). -/
def execTxeOff (wdata : Word) (s : State) : Result := regWrite .cr wdata s

/-- `TXE_ON`, its write half (40:R129, 30:R97). -/
def execTxeOn (wdata : Word) (s : State) : Result := regWrite .cr wdata s

end Sys2Proof.Machine
end

