-- ==== Sys2Proof/Machine/Commands.lean ====
section
/-! DEFINITION. The meanings of the three commands: the step `ACCEPT` (40:R137, 30:R92). The labels a command then runs
through are in Sequencer.lean. -/

namespace Sys2Proof.Machine

/-- `SENSE` (43:R210): `E.op <- SENSE; pc <- SN_RD`. -/
def execSense (s : State) : Result :=
  acceptWith (fun s => goto .snRd { s with eng := { s.eng with op := .sense } }) s

/-- `RXPOLL` (41:R150): `E.op`, `E.bp`, `E.cap` and the host's buffer; `pc <- RX_ENTRY`. The buffer is present when
`BP = 1` and has `E.cap` bytes (10:R44). -/
def execRxpoll (bp : Bool) (arg : BitVec 16) (s : State) : Result :=
  acceptWith (fun s => goto .rxEntry { s with
    eng := { s.eng with op := .rxpoll, bp := bp, cap := capacityOf arg }
    host := { s.host with
      bufPresent := bp
      buf := if bp then Memory.ofCells (capacityOf arg) s.host.cmdBuf else [] } }) s

/-- `TXSTREAM` (42:R170): `E.op`, `E.addr`; `pc <- TX_INIT`. -/
def execTxstream (addr : Addr) (s : State) : Result :=
  acceptWith (fun s => goto .txInit { s with eng := { s.eng with op := .txstream, addr := addr } }) s

end Sys2Proof.Machine
end

