-- ==== Sys2Proof/Machine/Dispatch.lean ====
section
/-! DEFINITION. The dispatch: one arm per constructor of `Instr`. -/

namespace Sys2Proof.Machine

def exec (i : Instr) (s : State) : Host.Outcome State Fault Refusal :=
  match i with
  -- commands (30:R93)
  | .sense => Sys2Proof.Machine.execSense s
  | .rxpoll bp arg => Sys2Proof.Machine.execRxpoll bp arg s
  | .txstream addr => Sys2Proof.Machine.execTxstream addr s
  -- bus micro-operations (30:R97)
  | .rdDr => Sys2Proof.Machine.execRdDr s
  | .rdRsr => Sys2Proof.Machine.execRdRsr s
  | .rdCr => Sys2Proof.Machine.execRdCr s
  | .rdFr => Sys2Proof.Machine.execRdFr s
  | .wrDr b => Sys2Proof.Machine.execWrDr b s
  | .clrOe => Sys2Proof.Machine.execClrOe s
  | .clrUe => Sys2Proof.Machine.execClrUe s
  | .txeOff wdata => Sys2Proof.Machine.execTxeOff wdata s
  | .txeOn wdata => Sys2Proof.Machine.execTxeOn wdata s

end Sys2Proof.Machine
end

