-- ==== Sys2Proof/Machine/Environment.lean ====
section
/-! DEFINITION. The steps of the other agents (45_environment_agents.md): the I2C master and the host. A step that is not
enabled is not taken: the state stays (log entry 18). -/

namespace Sys2Proof.Machine

/-- The master receives a byte. -/
def masterReceives (b : Byte) (s : State) : State := { s with obs := { s.obs with masterGot := s.obs.masterGot ++ [b] } }

/-- 45:R223 `M.WRITE b`: append, or drop and set `OE` when the FIFO is full (45:R231). -/
def byteArrives (p : Params) (b : Byte) (c : Bsc) : Bsc :=
  if c.rxq.length < p.rxDepth then { c with rxq := c.rxq ++ [b] } else { c with oe := true }

/-- `M.WRITE b` (45:R223); outside the setup contract refused (45:R230). -/
def masterWrite (b : Byte) (s : State) : Result :=
  if s.bsc.bus = .masterWriting then
    if receiveSetUp s.par s.bsc.cr then .next { s with bsc := byteArrives s.par b s.bsc } else .refused .masterOutsideSetup
  else .next s

/-- 45:R225 and R229 with the controller set up: with TXE = 1 the latched byte, or an underrun and a free byte (R228);
with TXE = 0 a free byte and a free bit that may set `UE`. -/
def byteClockedOut (s : State) : State :=
  if txeOf s.par s.bsc.cr then
    match s.bsc.txl with
    | some b => masterReceives b { s with bsc := loadLatch s.par { s.bsc with txl := none } }
    | none => usedDraws 1 (masterReceives (dataOf (drawWord s)) { s with bsc := { s.bsc with ue := true } })
  else
    usedDraws 2 (masterReceives (dataOf (drawWord s))
      { s with bsc := { s.bsc with ue := (Config.freeWord (s.env.draws + 1)).getLsbD 0 || s.bsc.ue } })

/-- `M.READ` (45:R225, R229); outside the setup contract refused (45:R230). -/
def masterRead (s : State) : Result :=
  if s.bsc.bus = .slaveWriting then
    if protocolSetUp s.par s.bsc.cr then .next (byteClockedOut s) else .refused .masterOutsideSetup
  else .next s

/-- The bus phase changes (45:R222, R224, R226). Taken in the phase it leads to, it is not enabled and changes nothing. -/
def busTo (p : BusPhase) (s : State) : State := { s with bsc := { s.bsc with bus := p } }

/-- The master's steps. -/
def masterStep (m : MasterStep) (s : State) : Result :=
  match m with
  | .startWrite => .next (busTo .masterWriting s)
  | .write b => masterWrite b s
  | .startRead => .next (busTo .slaveWriting s)
  | .read => masterRead s
  | .stop => .next (busTo .idle s)

/-- A bus phase from a free word. -/
def phaseOf (w : Word) : BusPhase :=
  if w.getLsbD 0 then .masterWriting else if w.getLsbD 1 then .slaveWriting else .idle

/-- The BSC after `H.SETUP` (45:R238): EN, RXE, TXE, I2C are 1; the rest is unspecified (10:R49, 93 U13), free values
within 10:R47. `OE` and `UE` may be found set but do not fall (10:R34, R35; log entry 7). -/
def setUpBsc (p : Params) (k : Nat) (b : Bsc) : Bsc :=
  loadLatch p
    { rxq := (Config.freeBytes k).take p.rxDepth
      txq := (Config.freeBytes (k + 1)).take p.txDepth
      txl := (Config.freeBytes (k + 2)).head?
      oe := b.oe || (Config.freeWord (k + 3)).getLsbD 0
      ue := b.ue || (Config.freeWord (k + 3)).getLsbD 1
      cr := Config.freeWord (k + 4) ||| setupWord p
      bus := phaseOf (Config.freeWord (k + 5)) }

/-- The host's steps with their enabling conditions (45:R235 to R239). -/
def hostStep (h : HostStep) (s : State) : State :=
  match h with
  | .issue cw cells =>
    if s.host.cmd = none then { s with host := { s.host with cmd := some cw, cmdBuf := cells } } else s
  | .cancel => { s with host := { s.host with cancel := true } }
  | .uncancel => if s.pc = .idle then { s with host := { s.host with cancel := false } } else s
  | .setup mapped =>
    if mapped && !s.host.ready && s.pc == .idle then
      usedDraws 6 { s with bsc := setUpBsc s.par s.env.draws s.bsc, host := { s.host with ready := true } }
    else s
  | .teardown => if s.pc = .idle then { s with host := { s.host with ready := false } } else s
  | .unmap => if s.pc = .idle then s else { s with host := { s.host with ready := false } }

end Sys2Proof.Machine
end

