-- ==== Sys2Proof/Machine/Ports.lean ====
section
/-! DEFINITION. The six port micro-operations (30:R90(3), 40:R130 to R135). `LOG` is `raiseEvent` and `RETURN` is
`returnWith`, both in Ops.lean. -/

namespace Sys2Proof.Machine

/-- `CHK` (40:R130): the cancellation checkpoint with its successor label. -/
def portChk (next : Label) (s : State) : Result :=
  if s.host.cancel then returnWith .aborted 0 s else .next (goto next s)

/-- `PRODUCE` (40:R131): `(E.pb, E.pm) <- Produce(E.addr)`. The answer is the next one listed for the producer, and a
free value when none is listed (45:R233, log entry 17). -/
def portProduce (s : State) : State :=
  let s1 := { s with obs := { s.obs with calls := s.obs.calls ++ [s.eng.addr] } }
  match s.env.producer with
  | (b, m) :: rest =>
    { s1 with eng := { s1.eng with pb := b, pm := m }, env := { s1.env with producer := rest } }
  | [] =>
    let a := Config.freeAnswer s.env.draws s.eng.addr
    usedDraws 1 { s1 with eng := { s1.eng with pb := a.1, pm := a.2 } }

/-- `BUFWR` (40:R132): `Buf[E.n] <- E.d[7:0]`. -/
def portBufwr (s : State) : Result :=
  if s.host.bufPresent && decide (s.eng.n < s.eng.cap) then
    .next { s with host := { s.host with buf := Memory.write s.host.buf s.eng.n (dataOf s.eng.d) } }
  else .fault .bufferOutOfRange

/-- `SLEEP` (40:R133): no effect; the model has no clock, and the other agents may step here as at any other point
(45:R241). Nothing depends on `Config.sleepInterval`. -/
def portSleep (s : State) : State := s

end Sys2Proof.Machine
end

