-- ==== Sys2Proof/Machine/Sequencer.lean ====
section
/-! DEFINITION. The fixed micro-program (20:R80): what each label of 10:R26 issues, and where it goes
(41:R151, 42:R171, 43:R211). -/

namespace Sys2Proof.Machine

/-- What the engine takes up in its next step. -/
inductive Fetch where
  /-- `IDLE` with nothing presented: the engine does nothing (70:R300). -/
  | nothing
  /-- `ACCEPT` of the command word presented (40:R137). -/
  | command (cw : Word)
  /-- The label issues this bus request. -/
  | request (bw : Request)
  /-- The label makes no register access. -/
  | internal
deriving DecidableEq, Repr

/-- The request of a read of a register (30:R96). -/
def readRequest (p : Params) (r : Reg) : Request := requestWord false (regIndex p r) 0#32

/-- The request of a write of a register. -/
def writeRequest (p : Params) (r : Reg) (v : Word) : Request := requestWord true (regIndex p r) v

/-- The event a toggle label issues next: `RD_CR`, then the write of the word made from `E.c` (30:R105, R112). -/
def toggleRequest (s : State) (word : Word → Word) : Request :=
  if s.half then writeRequest s.par .cr (word s.eng.c) else readRequest s.par .cr

/-- The word the engine takes up in state `s`. -/
def fetch (s : State) : Fetch :=
  match s.pc with
  | .idle | .accept =>
    match s.host.cmd with
    | none => .nothing
    | some cw => .command cw
  | .snRd => .request (readRequest s.par .fr)
  | .rxCond => if s.eng.n < s.eng.cap then .request (readRequest s.par .fr) else .internal
  | .rxRsr => .request (readRequest s.par .rsr)
  | .rxClr => if s.half then .request (writeRequest s.par .rsr clearOeWord) else .internal
  | .rxDr => .request (readRequest s.par .dr)
  | .txOcond | .txIcond | .txAcct | .txFcond => .request (readRequest s.par .fr)
  | .txRsr => .request (readRequest s.par .rsr)
  | .txClr => if s.half then .request (writeRequest s.par .rsr clearUeWord) else .internal
  | .txPush => .request (writeRequest s.par .dr (zext32 s.eng.pb))
  | .txFoff | .txLoff => .request (toggleRequest s (toggleOffWord s.par))
  | .txFon | .txLon => .request (toggleRequest s (toggleOnWord s.par))
  | .rxEntry | .rxK0 | .rxK1 | .rxStore | .rxDone | .snDone => .internal
  | .txInit | .txK0 | .txK1 | .txK2 | .txProd | .txSleep | .txCalc | .txDone => .internal

/-- The end of one of a label's two events: after the first the second is due, after the second the label is left. -/
def afterEvent (next : Label) (s : State) : State :=
  if s.half then goto next { s with half := false } else { s with half := true }

/-- 42:R180: the updates of `TX_PUSH` that go with its write. -/
def afterPush (s : State) : State :=
  goto .txIcond { s with eng := { s.eng with addr := nextAddr s.eng.addr, offered := s.eng.offered + 1 } }

/-- 42:R182: `E.resident <- E.f.TXFLR`. -/
def afterAcct (s : State) : State :=
  goto .txCalc { s with eng := { s.eng with resident := txflrOf s.par s.eng.f } }

/-- What a label does after its bus request, and its successor. A label that issues none is left alone. -/
def afterRequest (s : State) : State :=
  match s.pc with
  | .snRd => goto .snDone s
  | .rxCond => goto (if rxfeOf s.par s.eng.f then .rxDone else .rxK1) s
  | .rxRsr => goto .rxClr s
  | .rxClr => afterEvent .rxDr s
  | .rxDr => goto .rxStore s
  | .txOcond => goto (if rxfeOf s.par s.eng.f then .txK1 else .txAcct) s
  | .txIcond => goto (if txffOf s.par s.eng.f then .txSleep else .txK2) s
  | .txRsr => goto .txClr s
  | .txClr => afterEvent .txProd s
  | .txPush => afterPush s
  | .txAcct => afterAcct s
  | .txFcond => goto (if txfeOf s.par s.eng.f then .txLoff else .txFoff) s
  | .txFoff => afterEvent .txFon s
  | .txFon => afterEvent .txFcond s
  | .txLoff => afterEvent .txLon s
  | .txLon => afterEvent .txDone s
  | _ => s

/-- 41:R152 `RX_ENTRY`. -/
def stepRxEntry (s : State) : Result :=
  if s.eng.bp then .next (goto .rxK0 { s with eng := { s.eng with n := 0 } }) else returnWith .done 0 s

/-- The first event of `RX_CLR` and `TX_CLR` (41:R156, 42:R178): with the flag set in the snapshot the record goes to
`LOG` and the clear is due (20:R72: an event of its own); with it clear the label is left. -/
def stepReport (flag : Bool) (x : Event) (next : Label) (s : State) : State :=
  if flag then afterEvent next (raiseEvent x s) else goto next s

/-- 41:R157 `RX_STORE`. -/
def stepRxStore (s : State) : Result :=
  andThen (portBufwr s) fun t => .next (goto .rxCond { t with eng := { t.eng with n := t.eng.n + 1 } })

/-- 42:R172 `TX_INIT`. -/
def stepTxInit (s : State) : State := goto .txK0 { s with eng := { s.eng with offered := 0 } }

/-- 42:R179 `TX_PROD`. -/
def stepTxProd (s : State) : State :=
  let t := portProduce s
  goto (if t.eng.pm then .txPush else .txSleep) t

/-- 42:R183 `TX_CALC`. -/
def stepTxCalc (s : State) : State :=
  goto .txFcond { s with eng := { s.eng with count := clampedCount s.eng.offered s.eng.resident } }

/-- 43:R211 `SN_DONE`: the value returned is the bit RXBUSY of the snapshot. -/
def stepSnDone (s : State) : Result := returnWith .done (if rxbusyOf s.par s.eng.f then 1 else 0) s

/-- The step of a label that makes no register access. The labels that always make one never come here. -/
def internalStep (s : State) : Result :=
  match s.pc with
  | .rxEntry => stepRxEntry s
  | .rxK0 => portChk .rxCond s
  | .rxCond => .next (goto .rxDone s)
  | .rxK1 => portChk .rxRsr s
  | .rxClr => .next (stepReport (oeOf s.eng.r) .overrun .rxDr s)
  | .rxStore => stepRxStore s
  | .rxDone => returnWith .done s.eng.n s
  | .txInit => .next (stepTxInit s)
  | .txK0 => portChk .txOcond s
  | .txK1 => portChk .txIcond s
  | .txK2 => portChk .txRsr s
  | .txClr => .next (stepReport (ueOf s.eng.r) .underrun .txProd s)
  | .txProd => .next (stepTxProd s)
  | .txSleep => .next (goto .txOcond (portSleep s))
  | .txCalc => .next (stepTxCalc s)
  | .txDone => returnWith .done s.eng.count s
  | .snDone => stepSnDone s
  | .idle | .accept | .snRd | .rxRsr | .rxDr | .txOcond | .txIcond | .txRsr | .txPush | .txAcct | .txFcond => .next s
  | .txFoff | .txFon | .txLoff | .txLon => .next s

/-- The write half of a toggle is due and will write `w`: CR was just read, and agrees with `w` in every bit but TXE. -/
def placeToggle (w : Word) (s : State) : State :=
  let c := toggleOffWord s.par w ||| (s.bsc.cr &&& bit s.par.crTxe)
  { s with half := true, eng := { s.eng with c := c }, bsc := { s.bsc with cr := c } }

/-- The state whose sequencer is about to issue the given instruction: a command at the port with `pc = IDLE`; for a bus
micro-operation the label that issues it, with the working registers that make its word, inside a running command
(`ready = 1`; log entry 4). -/
def placeInstr (i : Instr) (s : State) : State :=
  let t := { s with half := false, host := { s.host with ready := true } }
  match i with
  | .sense => s
  | .rxpoll _ _ => s
  | .txstream _ => s
  | .rdFr => goto .snRd t
  | .rdRsr => goto .rxRsr t
  | .rdDr => goto .rxDr t
  | .rdCr => goto .txFoff t
  | .wrDr b => goto .txPush { t with eng := { t.eng with pb := b } }
  | .clrOe => goto .rxClr { t with half := true, eng := { t.eng with r := t.eng.r ||| bit Config.rsrOe } }
  | .clrUe => goto .txClr { t with half := true, eng := { t.eng with r := t.eng.r ||| bit Config.rsrUe } }
  | .txeOff w => goto .txFoff (placeToggle w t)
  | .txeOn w => goto .txFon (placeToggle w t)

/-- The engine takes the next step and finds the encoded word (log entry 4): a command word stands at the command port
with `pc = IDLE`; a request word is the one its label issues. -/
def placeWord (e : Encoded) (s : State) : State :=
  let t := { s with env := { s.env with script := .engine :: s.env.script } }
  match e with
  | .command cw => goto .idle { t with host := { t.host with cmd := some cw } }
  | .request _ =>
    match decode s.par e with
    | .ok i => placeInstr i t
    | .error _ => s

end Sys2Proof.Machine
end

