-- ==== Sys2Proof/Machine/Engine.lean ====
section
/-! DEFINITION. The engine's step (45:R220): what its label takes up, decoded and executed. -/

namespace Sys2Proof.Machine

/-- The engine's step: the word fetched is decoded and executed, with what its label adds around it. -/
def engineStep (s : State) : Result :=
  match fetch s with
  | .nothing => .next s
  | .command cw =>
    match decodeCommand cw with
    | .ok i => exec i (takeCommand s)
    | .error _ => rejectReserved (takeCommand s)
  | .request bw =>
    match decodeRequest s.par bw with
    | .ok i => andThen (exec i s) fun t => .next (afterRequest t)
    | .error _ => .refused .accessNotIssued
  | .internal => internalStep s

/-- The state with the given turns to come. -/
def withScript (turns : List Turn) (s : State) : State := { s with env := { s.env with script := turns } }

end Sys2Proof.Machine
end

