-- ==== Sys2Proof/Machine/Step.lean ====
section
/-! DEFINITION. One step of the machine: one agent's step (45:R220). -/

namespace Sys2Proof.Machine

/-- One step: the agent whose turn is next in `script` takes it; with no turn listed the engine does (log entry 3). -/
def step (s : State) : Host.Outcome State Fault Refusal :=
  match s.env.script with
  | [] => engineStep s
  | .engine :: rest => engineStep (withScript rest s)
  | .master m :: rest => masterStep m (withScript rest s)
  | .host h :: rest => .next (hostStep h (withScript rest s))

/-- `s` with the table row's word placed where the next step takes it up (log entry 4). -/
def State.withFetchWord (s : State) (nbits w : Nat) : State :=
  match encodedOfTable nbits w with
  | some e => placeWord e s
  | none => s

end Sys2Proof.Machine
end

