-- ==== Sys2Proof/Safety.lean ====
section
/-! DEFINITION. What claims are stated in: the launch premises (10:R50), the classes of labels, the invariant every step
keeps, and what counts as a run without a model fault (60:R285). -/

namespace Sys2Proof.Machine

/-! ### Premises (10:R50) -/

/-- `P_READY`. -/
abbrev PReady (s : State) : Prop := s.host.ready = true ∧ launchSetUp s.par s.bsc.cr = true

/-- `P_CLEAN`. -/
abbrev PClean (s : State) : Prop :=
  s.bsc.rxq = [] ∧ s.bsc.txq = [] ∧ s.bsc.txl = none ∧ s.bsc.oe = false ∧ s.bsc.ue = false ∧ s.bsc.bus = .idle

/-- Only the engine takes turns: `P_QUIET`, and no host step either. `P_SERIAL` holds of every run: no agent but the engine
has a step that accesses a register. -/
abbrev EngineOnly (s : State) : Prop := s.env.script = []

/-- The state the engine steps from when its turn is next. -/
def engineTurn (s : State) : Option State :=
  match s.env.script with
  | [] => some s
  | .engine :: rest => some (withScript rest s)
  | .master _ :: _ => none
  | .host _ :: _ => none

/-! ### Labels -/

/-- The checkpoints and their successors (41:R151, 42:R171). -/
def checkpoints : List (Label × Label) :=
  [(.rxK0, .rxCond), (.rxK1, .rxRsr), (.txK0, .txOcond), (.txK1, .txIcond), (.txK2, .txRsr)]

/-- The labels of the flush (42:R187 to R189). -/
def Label.inFlush : Label → Bool
  | .txFcond | .txFoff | .txFon | .txLoff | .txLon => true
  | _ => false

/-- The labels whose micro-operation is `TXE_OFF` or `TXE_ON`. -/
def Label.inToggle : Label → Bool
  | .txFoff | .txFon | .txLoff | .txLon => true
  | _ => false

/-- The labels under which the engine makes two events (20:R72): the toggle labels, `RX_CLR` and `TX_CLR`. -/
def Label.hasTwoEvents : Label → Bool
  | .rxClr | .txClr | .txFoff | .txFon | .txLoff | .txLon => true
  | _ => false

/-- The labels of `RXPOLL` after `RX_ENTRY`. -/
def Label.inRxpoll : Label → Bool
  | .rxK0 | .rxCond | .rxK1 | .rxRsr | .rxClr | .rxDr | .rxStore | .rxDone => true
  | _ => false

/-- From the test of `RX_COND` to the pop of `RX_DR`. -/
def Label.beforePop : Label → Bool
  | .rxK1 | .rxRsr | .rxClr | .rxDr => true
  | _ => false

/-- From the test of `TX_ICOND` to the write of `TX_PUSH`. -/
def Label.beforePush : Label → Bool
  | .txK2 | .txRsr | .txClr | .txProd | .txPush => true
  | _ => false

/-- The labels after `TX_CALC`. -/
def Label.afterCalc : Label → Bool
  | .txFcond | .txFoff | .txFon | .txLoff | .txLon | .txDone => true
  | _ => false

/-! ### The invariant -/

/-- 10:R47 (i) to (iii). -/
structure Bsc.Inv (p : Params) (b : Bsc) : Prop where
  rx : b.rxq.length ≤ p.rxDepth
  tx : b.txq.length ≤ p.txDepth
  latch : txeOf p b.cr = true → b.txl = none → b.txq = []

/-- The constraints of 00:R5 and 10:R47 with what the labels have established (41:R157, R158, 42:R180, R191(b)) and the
canonical form of `Buf`. -/
structure State.Inv (s : State) : Prop where
  par : s.par.Valid
  bsc : s.bsc.Inv s.par
  buf : Memory.wf s.host.buf
  half : s.half = true → s.pc.hasTwoEvents = true
  toggle : s.half = true → s.pc.inToggle = true → s.eng.c = s.bsc.cr
  entry : s.pc = .rxEntry → s.eng.bp = true → s.host.bufPresent = true
  present : s.pc.inRxpoll = true → s.host.bufPresent = true ∧ s.eng.n ≤ s.eng.cap
  pop : s.pc.beforePop = true → s.eng.n < s.eng.cap ∧ s.bsc.rxq ≠ []
  store : s.pc = .rxStore → s.eng.n < s.eng.cap
  push : s.pc.beforePush = true → s.bsc.txq.length < s.par.txDepth
  count : s.pc.afterCalc = true → s.eng.count ≤ s.eng.offered

/-- The step ends in no model fault (60:R285). -/
def noFault : Result → Bool
  | .next _ => true
  | .fault _ => false
  | .refused _ => true

/-- A bus micro-operation (30:R90(2)), not a command. -/
def isBusOp : Instr → Bool
  | .sense => false
  | .rxpoll _ _ => false
  | .txstream _ => false
  | .rdDr => true
  | .rdRsr => true
  | .rdCr => true
  | .rdFr => true
  | .wrDr _ => true
  | .clrOe => true
  | .clrUe => true
  | .txeOff _ => true
  | .txeOn _ => true

end Sys2Proof.Machine
end

