-- ==== Sys2Proof/Certificates/Slice0/Obligations.lean ====
section
/-! DEFINITION. The statements for the provers. -/

open Sys2Proof Sys2Proof.Machine

/-! ### Encoding -/

/-- 30:R93, R97: for every choice of parameters 00:R5 allows, decoding the word of a well-formed instruction gives it back,
every operand at every value. -/
def Obligations.DecodeEncodeRoundTrip : Prop :=
  ∀ (p : Params) (i : Instr), p.Valid → i.wellFormed p = true → decode p (encode p i) = .ok i

/-- 30:R93: a command word decodes to a row's instruction exactly when `w AND mask = match`. -/
def Obligations.CommandWordSelectsItsRow : Prop :=
  ∀ w : Word,
    (decodeCommand w = .ok .sense ↔ w &&& 0xFFFFFFFF#32 = 0x00000001#32) ∧
    ((∃ bp arg, decodeCommand w = .ok (.rxpoll bp arg)) ↔ w &&& 0x0000FFFB#32 = 0x00000002#32) ∧
    ((∃ a, decodeCommand w = .ok (.txstream a)) ↔ w &&& 0x0000FFFF#32 = 0x00000003#32)

/-- 30:R97: a request word decodes to a row's micro-operation exactly when `w AND mask = match`, and a word no row selects
decodes to no instruction: with the default parameters of 00:R5, as the opcode map is written, and with every choice of
parameters 00:R5 allows, the word indices and the TXE bit as chosen. -/
def Obligations.RequestWordSelectsItsRow : Prop :=
  (∀ w : Request,
    (decodeRequest Params.default w = .ok .rdDr ↔ w &&& 0xF00000000#36 = 0x000000000#36) ∧
    (decodeRequest Params.default w = .ok .rdRsr ↔ w &&& 0xF00000000#36 = 0x100000000#36) ∧
    (decodeRequest Params.default w = .ok .rdCr ↔ w &&& 0xF00000000#36 = 0x300000000#36) ∧
    (decodeRequest Params.default w = .ok .rdFr ↔ w &&& 0xF00000000#36 = 0x400000000#36) ∧
    ((∃ b, decodeRequest Params.default w = .ok (.wrDr b)) ↔ w &&& 0xFFFFFFF00#36 = 0x800000000#36) ∧
    (decodeRequest Params.default w = .ok .clrOe ↔ w &&& 0xFFFFFFFFF#36 = 0x9FFFFFFFE#36) ∧
    (decodeRequest Params.default w = .ok .clrUe ↔ w &&& 0xFFFFFFFFF#36 = 0x9FFFFFFFD#36) ∧
    ((∃ v, decodeRequest Params.default w = .ok (.txeOff v)) ↔ w &&& 0xF00000100#36 = 0xB00000000#36) ∧
    ((∃ v, decodeRequest Params.default w = .ok (.txeOn v)) ↔ w &&& 0xF00000100#36 = 0xB00000100#36) ∧
    ((∀ i, decodeRequest Params.default w ≠ .ok i) ↔
      ¬ (w &&& 0xF00000000#36 = 0x000000000#36 ∨ w &&& 0xF00000000#36 = 0x100000000#36 ∨
         w &&& 0xF00000000#36 = 0x300000000#36 ∨ w &&& 0xF00000000#36 = 0x400000000#36 ∨
         w &&& 0xFFFFFFF00#36 = 0x800000000#36 ∨ w &&& 0xFFFFFFFFF#36 = 0x9FFFFFFFE#36 ∨
         w &&& 0xFFFFFFFFF#36 = 0x9FFFFFFFD#36 ∨ w &&& 0xF00000100#36 = 0xB00000000#36 ∨
         w &&& 0xF00000100#36 = 0xB00000100#36))) ∧
  (∀ (p : Params) (w : Request), p.Valid →
    (decodeRequest p w = .ok .rdDr ↔ w &&& 0xF00000000#36 = requestWord false p.idxDr 0#32) ∧
    (decodeRequest p w = .ok .rdRsr ↔ w &&& 0xF00000000#36 = requestWord false p.idxRsr 0#32) ∧
    (decodeRequest p w = .ok .rdCr ↔ w &&& 0xF00000000#36 = requestWord false p.idxCr 0#32) ∧
    (decodeRequest p w = .ok .rdFr ↔ w &&& 0xF00000000#36 = requestWord false p.idxFr 0#32) ∧
    ((∃ b, decodeRequest p w = .ok (.wrDr b)) ↔ w &&& 0xFFFFFFF00#36 = requestWord true p.idxDr 0#32) ∧
    (decodeRequest p w = .ok .clrOe ↔ w = requestWord true p.idxRsr 0xFFFFFFFE#32) ∧
    (decodeRequest p w = .ok .clrUe ↔ w = requestWord true p.idxRsr 0xFFFFFFFD#32) ∧
    ((∃ v, decodeRequest p w = .ok (.txeOff v)) ↔
      w &&& (0xF00000000#36 ||| (bit p.crTxe).setWidth 36) = requestWord true p.idxCr 0#32) ∧
    ((∃ v, decodeRequest p w = .ok (.txeOn v)) ↔
      w &&& (0xF00000000#36 ||| (bit p.crTxe).setWidth 36) = requestWord true p.idxCr (bit p.crTxe)) ∧
    ((∀ i, decodeRequest p w ≠ .ok i) ↔
      ¬ (w &&& 0xF00000000#36 = requestWord false p.idxDr 0#32 ∨ w &&& 0xF00000000#36 = requestWord false p.idxRsr 0#32 ∨
         w &&& 0xF00000000#36 = requestWord false p.idxCr 0#32 ∨ w &&& 0xF00000000#36 = requestWord false p.idxFr 0#32 ∨
         w &&& 0xFFFFFFF00#36 = requestWord true p.idxDr 0#32 ∨ w = requestWord true p.idxRsr 0xFFFFFFFE#32 ∨
         w = requestWord true p.idxRsr 0xFFFFFFFD#32 ∨
         w &&& (0xF00000000#36 ||| (bit p.crTxe).setWidth 36) = requestWord true p.idxCr 0#32 ∨
         w &&& (0xF00000000#36 ||| (bit p.crTxe).setWidth 36) = requestWord true p.idxCr (bit p.crTxe))))

/-- 30:R92, R96: the operands of a decoded word are its fields. -/
def Obligations.OperandsAreTheFields : Prop :=
  (∀ w bp arg, decodeCommand w = .ok (.rxpoll bp arg) → bp = w.getLsbD 2 ∧ arg = w.extractLsb' 16 16) ∧
  (∀ w a, decodeCommand w = .ok (.txstream a) → a = w.extractLsb' 16 16) ∧
  (∀ p w b, decodeRequest p w = .ok (.wrDr b) → b = w.extractLsb' 0 8) ∧
  (∀ (p : Params) w v, p.Valid → decodeRequest p w = .ok (.txeOff v) →
    v = w.extractLsb' 0 32 ∧ v.getLsbD p.crTxe = false) ∧
  (∀ (p : Params) w v, p.Valid → decodeRequest p w = .ok (.txeOn v) →
    v = w.extractLsb' 0 32 ∧ v.getLsbD p.crTxe = true)

/-- 30:R94: the reserved command words are exactly those with `OP = 00`, `Z` not zero, `SENSE` with an operand bit, or
`TXSTREAM` with `BP = 1`. -/
def Obligations.ReservedCommandWords : Prop :=
  ∀ w : Word, (∀ i, decodeCommand w ≠ .ok i) ↔
    (w.extractLsb' 0 2 = 0#2 ∨ w.extractLsb' 3 13 ≠ 0#13 ∨
     (w.extractLsb' 0 2 = 1#2 ∧ (w.getLsbD 2 = true ∨ w.extractLsb' 16 16 ≠ 0#16)) ∨
     (w.extractLsb' 0 2 = 3#2 ∧ w.getLsbD 2 = true))

/-- Words written out from 30:R93, R97 and R111, with the default parameters, decode to what they stand for. -/
def Obligations.TableWordsDecode : Prop :=
  decode Params.default (.command 0x00000001#32) = .ok .sense ∧
  decode Params.default (.command 0x00040006#32) = .ok (.rxpoll true 4#16) ∧
  decode Params.default (.command 0x00050002#32) = .ok (.rxpoll false 5#16) ∧
  decode Params.default (.command 0x00100003#32) = .ok (.txstream 0x0010#16) ∧
  decode Params.default (.request 0x000000000#36) = .ok .rdDr ∧
  decode Params.default (.request 0x100000000#36) = .ok .rdRsr ∧
  decode Params.default (.request 0x300000000#36) = .ok .rdCr ∧
  decode Params.default (.request 0x400000000#36) = .ok .rdFr ∧
  decode Params.default (.request 0x800000007#36) = .ok (.wrDr 7#8) ∧
  decode Params.default (.request 0x9FFFFFFFE#36) = .ok .clrOe ∧
  decode Params.default (.request 0x9FFFFFFFD#36) = .ok .clrUe ∧
  decode Params.default (.request 0xB00000205#36) = .ok (.txeOff 0x205#32) ∧
  decode Params.default (.request 0xB00000305#36) = .ok (.txeOn 0x305#32)

/-! ### The step -/

/-- When the engine's turn is next and a command word that decodes stands at the port in `IDLE`, the step is `exec` of it,
the word taken from the port (40:R137). -/
def Obligations.StepRunsPresentedCommand : Prop :=
  ∀ s u cw i, engineTurn s = some u → u.pc = .idle → u.host.cmd = some cw → decodeCommand cw = .ok i →
    step s = exec i { u with host := { u.host with cmd := none } }

/-- When the engine's turn is next and its label issues a request word that decodes, the step is `exec` of it with what the
label does after it (the branch and the successor). -/
def Obligations.StepRunsLabelRequest : Prop :=
  ∀ s u bw i, engineTurn s = some u → fetch u = .request bw → decodeRequest u.par bw = .ok i →
    step s = andThen (exec i u) fun t => .next (afterRequest t)

/-- 60:R265, 30:R94: a reserved command word in `IDLE` is answered by an InvalidArgument record and DONE 0; no register is
accessed and nothing else changes, whatever `ready` is. That the working registers keep their values is the model's
choice (log entry 14). -/
def Obligations.ReservedCommandAnswered : Prop :=
  ∀ s u cw, engineTurn s = some u → u.pc = .idle → u.host.cmd = some cw → (∀ i, decodeCommand cw ≠ .ok i) →
    step s = .next { u with
      host := { u.host with cmd := none }
      log := u.log ++ [(3#3, .invalidArgument)]
      obs := { u.obs with responses := u.obs.responses ++ [0x00000000#32] } }

/-! ### Accepting a command -/

/-- 40:R137: with `ready = 1` (and the launch premise of 45:R230, the model's premise of log entry 9) each command is
accepted: `E.op`, its operands, the buffer, and the first label of its micro-program; no register is accessed. -/
def Obligations.CommandsAccepted : Prop :=
  ∀ s : State, PReady s →
    exec .sense s = .next { s with pc := .snRd, eng := { s.eng with op := .sense } } ∧
    (∀ arg, exec (.rxpoll true arg) s = .next { s with
      pc := .rxEntry, eng := { s.eng with op := .rxpoll, bp := true, cap := arg.toNat }
      host := { s.host with bufPresent := true, buf := Memory.ofCells arg.toNat s.host.cmdBuf } }) ∧
    (∀ arg, exec (.rxpoll false arg) s = .next { s with
      pc := .rxEntry, eng := { s.eng with op := .rxpoll, bp := false, cap := arg.toNat }
      host := { s.host with bufPresent := false, buf := [] } }) ∧
    (∀ a, exec (.txstream a) s = .next { s with
      pc := .txInit, eng := { s.eng with op := .txstream, addr := a } })

/-- 60:R266: with `ready = 0` every command is answered by a NotReady record and DONE 0, with no register access and
nothing else changed. That the working registers keep their values is the model's choice (log entry 14). -/
def Obligations.CommandsNotReady : Prop :=
  ∀ (i : Instr) (s : State), isBusOp i = false → s.host.ready = false →
    exec i s = .next { s with
      pc := .idle
      log := s.log ++ [(4#3, .notReady)]
      obs := { s.obs with responses := s.obs.responses ++ [0x00000000#32] } }

/-- The model's choice (log entry 9, after 45:R230 and 93 U5): a command launched with `ready = 1` and one of the four
setup bits clear is refused by name. -/
def Obligations.LaunchOutsideSetupRefused : Prop :=
  ∀ (i : Instr) (s : State), isBusOp i = false → s.host.ready = true → launchSetUp s.par s.bsc.cr = false →
    exec i s = .refused .launchWithoutReady

/-! ### Bus micro-operations -/

/-- 40:R121, 10:R41, 20:R62: `RD_FR` puts into `E.f` a word whose every described field is computed from the BSC state,
records the request, and changes nothing else but the count of free values. The parameters meet 00:R5. -/
def Obligations.ReadFlagRegister : Prop :=
  ∀ s : State, s.par.Valid → s.host.ready = true → ∃ t, exec .rdFr s = .next t ∧
    t.eng.f.getLsbD s.par.frRxfe = decide (s.bsc.rxq.length = 0) ∧
    t.eng.f.getLsbD s.par.frTxff = decide (s.bsc.txq.length = s.par.txDepth) ∧
    t.eng.f.getLsbD s.par.frRxff = decide (s.bsc.rxq.length = s.par.rxDepth) ∧
    t.eng.f.getLsbD s.par.frTxfe = decide (s.bsc.txq.length = 0) ∧
    t.eng.f.getLsbD s.par.frRxbusy = decide (s.bsc.bus = .masterWriting) ∧
    (s.bsc.txq.length ≤ s.par.txDepth →
      (t.eng.f.extractLsb' s.par.frTxflrLo s.par.frTxflrW).toNat = s.bsc.txq.length) ∧
    (s.bsc.rxq.length ≤ s.par.rxDepth →
      (t.eng.f.extractLsb' s.par.frRxflrLo s.par.frRxflrW).toNat = s.bsc.rxq.length) ∧
    t = { s with
      eng := { s.eng with f := t.eng.f }
      env := { s.env with draws := t.env.draws }
      obs := { s.obs with requests := s.obs.requests ++ [requestWord false s.par.idxFr 0#32] } }

/-- 20:R63, 40:R122: `RD_RSR` puts into `E.r` a word with bit 0 = `OE` and bit 1 = `UE`; no flag is cleared, no BSC state
changes. -/
def Obligations.ReadRawStatus : Prop :=
  ∀ s : State, s.host.ready = true → ∃ t, exec .rdRsr s = .next t ∧
    t.eng.r.getLsbD 0 = s.bsc.oe ∧ t.eng.r.getLsbD 1 = s.bsc.ue ∧
    t = { s with
      eng := { s.eng with r := t.eng.r }
      env := { s.env with draws := t.env.draws }
      obs := { s.obs with requests := s.obs.requests ++ [requestWord false s.par.idxRsr 0#32] } }

/-- 20:R65, 40:R123: `RD_DR` pops the oldest received byte into `E.d[7:0]` and changes no other BSC state; with the FIFO
empty it is the model fault BscRxEmptyRead. -/
def Obligations.ReadDataRegister : Prop :=
  ∀ s : State, s.host.ready = true →
    (∀ b rest, s.bsc.rxq = b :: rest → ∃ t, exec .rdDr s = .next t ∧
      t.eng.d.extractLsb' 0 8 = b ∧
      t = { s with
        eng := { s.eng with d := t.eng.d }
        bsc := { s.bsc with rxq := rest }
        env := { s.env with draws := t.env.draws }
        obs := { s.obs with requests := s.obs.requests ++ [requestWord false s.par.idxDr 0#32] } }) ∧
    (s.bsc.rxq = [] → exec .rdDr s = .fault .bscRxEmptyRead)

/-- 20:R67, 40:R124: `RD_CR` puts the stored CR into `E.c`. No state changes. -/
def Obligations.ReadControlRegister : Prop :=
  ∀ s : State, s.host.ready = true →
    exec .rdCr s = .next { s with
      eng := { s.eng with c := s.bsc.cr }
      obs := { s.obs with requests := s.obs.requests ++ [requestWord false s.par.idxCr 0#32] } }

/-- 20:R66, 40:R125, 45:R221: `WR_DR` with room appends the byte, or puts the oldest queued byte into an empty latch while
TXE = 1; with the FIFO full it is the model fault BscTxFullWrite. -/
def Obligations.WriteDataRegister : Prop :=
  ∀ (s : State) (b : Byte), s.host.ready = true →
    (s.bsc.txq.length < s.par.txDepth →
      exec (.wrDr b) s = .next { s with
        bsc :=
          if s.bsc.cr.getLsbD s.par.crTxe = true ∧ s.bsc.txl = none then
            { s.bsc with txl := (s.bsc.txq ++ [b]).head?, txq := (s.bsc.txq ++ [b]).tail }
          else { s.bsc with txq := s.bsc.txq ++ [b] }
        obs := { s.obs with requests := s.obs.requests ++ [requestWord true s.par.idxDr (b.setWidth 32)] } }) ∧
    (s.par.txDepth ≤ s.bsc.txq.length → exec (.wrDr b) s = .fault .bscTxFullWrite)

/-- 40:R126, R127, 30:R104: `CLR_OE` clears `OE` and leaves `UE`; `CLR_UE` clears `UE` and leaves `OE`. -/
def Obligations.ClearStickyFlags : Prop :=
  ∀ s : State, s.host.ready = true →
    exec .clrOe s = .next { s with
      bsc := { s.bsc with oe := false }
      obs := { s.obs with requests := s.obs.requests ++ [requestWord true s.par.idxRsr 0xFFFFFFFE#32] } } ∧
    exec .clrUe s = .next { s with
      bsc := { s.bsc with ue := false }
      obs := { s.obs with requests := s.obs.requests ++ [requestWord true s.par.idxRsr 0xFFFFFFFD#32] } }

/-- 20:R64: a write of RSR ANDs each flag with its written bit: 0 clears, 1 leaves it, no write sets a flag; nothing else
changes. -/
def Obligations.RawStatusWriteClearsOnly : Prop :=
  ∀ (s : State) (v : Word), s.host.ready = true → ∃ t, regWrite .rsr v s = .next t ∧
    t.bsc = { s.bsc with oe := s.bsc.oe && v.getLsbD 0, ue := s.bsc.ue && v.getLsbD 1 } ∧
    t = { s with bsc := t.bsc, obs := { s.obs with requests := t.obs.requests } }

/-- 40:R128, 20:R68(a), (c): the write of `TXE_OFF`, of a word that has TXE = 0, BRK = 0 and agrees with CR in EN, RXE and
I2C, stores the word; if TXE was 1 the send latch is dropped, and nothing else of the BSC changes. -/
def Obligations.TransmitEnableOff : Prop :=
  ∀ (s : State) (w : Word), s.host.ready = true → w.getLsbD s.par.crTxe = false → w.getLsbD s.par.crBrk = false →
    (s.bsc.cr ^^^ w) &&& setupFixedWord s.par = 0#32 →
    exec (.txeOff w) s = .next { s with
      bsc := { s.bsc with cr := w, txl := if s.bsc.cr.getLsbD s.par.crTxe then none else s.bsc.txl }
      obs := { s.obs with requests := s.obs.requests ++ [requestWord true s.par.idxCr w] } }

/-- 40:R129, 20:R68(b), (c): the write of `TXE_ON`, of a word that has TXE = 1, BRK = 0 and agrees with CR in EN, RXE and
I2C, stores the word; if TXE was 0 an empty latch takes the head of the queue. -/
def Obligations.TransmitEnableOn : Prop :=
  ∀ (s : State) (w : Word), s.host.ready = true → w.getLsbD s.par.crTxe = true → w.getLsbD s.par.crBrk = false →
    (s.bsc.cr ^^^ w) &&& setupFixedWord s.par = 0#32 →
    exec (.txeOn w) s = .next { s with
      bsc :=
        if s.bsc.cr.getLsbD s.par.crTxe = false ∧ s.bsc.txl = none then
          { s.bsc with cr := w, txl := s.bsc.txq.head?, txq := s.bsc.txq.tail }
        else { s.bsc with cr := w }
      obs := { s.obs with requests := s.obs.requests ++ [requestWord true s.par.idxCr w] } }

/-- 20:R68(d), 93 U4, for every free value: a CR write with BRK = 1 that changes none of EN, RXE, I2C completes, stores the
word, and keeps the bounds of 10:R47. The model's choice (log entry 8): it keeps `OE`, `UE` and the bus, and still drops the
latch on a falling edge of TXE. -/
def Obligations.BreakBitWriteCompletes : Prop :=
  ∀ (s : State) (w : Word), s.host.ready = true → w.getLsbD s.par.crBrk = true →
    (s.bsc.cr ^^^ w) &&& setupFixedWord s.par = 0#32 →
    ∃ t, exec (.txeOff w) s = .next t ∧ exec (.txeOn w) s = .next t ∧ t.bsc.Inv t.par ∧
      t.bsc.cr = w ∧ t.bsc.oe = s.bsc.oe ∧ t.bsc.ue = s.bsc.ue ∧ t.bsc.bus = s.bsc.bus ∧
      (s.bsc.cr.getLsbD s.par.crTxe = true → w.getLsbD s.par.crTxe = false → t.bsc.txl = none) ∧
      t.eng = s.eng ∧ t.host = s.host ∧ t.log = s.log ∧ t.pc = s.pc ∧ t.half = s.half

/-- The model's choice (log entry 10, after 20:R68(e) and 93 U5): a CR write that changes EN, RXE or I2C is refused. -/
def Obligations.SetupBitWriteRefused : Prop :=
  ∀ (s : State) (w : Word), s.host.ready = true → (s.bsc.cr ^^^ w) &&& setupFixedWord s.par ≠ 0#32 →
    exec (.txeOff w) s = .refused .setupBitsChanged ∧ exec (.txeOn w) s = .refused .setupBitsChanged

/-- 60:R285, 93 U8: a register access with the window unmapped is the model fault UnmappedAccess. -/
def Obligations.UnmappedAccessFaults : Prop :=
  ∀ (i : Instr) (s : State), isBusOp i = true → s.host.ready = false → exec i s = .fault .unmappedAccess

/-- The frame of the nine bus micro-operations: of the working registers only the one a read fills, of the BSC only what
20:R62 to R68 name; no label, flag of another kind, log record, response, producer call or byte of `Buf` changes. -/
def Obligations.BusOpFrame : Prop :=
  ∀ (i : Instr) (s t : State), isBusOp i = true → exec i s = .next t →
    t.par = s.par ∧ t.pc = s.pc ∧ t.half = s.half ∧ t.host = s.host ∧ t.log = s.log ∧
    t.env.script = s.env.script ∧ t.env.producer = s.env.producer ∧
    t.obs = { s.obs with requests := t.obs.requests } ∧
    (∃ w, t.obs.requests = s.obs.requests ++ [w]) ∧
    (∀ a, Memory.read t.host.buf a = Memory.read s.host.buf a) ∧
    t.bsc.bus = s.bsc.bus ∧
    (match i with
     | .rdFr => t.eng = { s.eng with f := t.eng.f } ∧ t.bsc = s.bsc
     | .rdRsr => t.eng = { s.eng with r := t.eng.r } ∧ t.bsc = s.bsc
     | .rdCr => t.eng = { s.eng with c := t.eng.c } ∧ t.bsc = s.bsc
     | .rdDr => t.eng = { s.eng with d := t.eng.d } ∧ t.bsc = { s.bsc with rxq := t.bsc.rxq }
     | .wrDr _ => t.eng = s.eng ∧ t.bsc = { s.bsc with txq := t.bsc.txq, txl := t.bsc.txl }
     | .clrOe => t.eng = s.eng ∧ t.bsc = { s.bsc with oe := t.bsc.oe }
     | .clrUe => t.eng = s.eng ∧ t.bsc = { s.bsc with ue := t.bsc.ue }
     | .txeOff w => t.eng = s.eng ∧ t.bsc.oe = s.bsc.oe ∧ t.bsc.ue = s.bsc.ue ∧
         (w.getLsbD s.par.crBrk = false → t.bsc.rxq = s.bsc.rxq ∧
           (w.getLsbD s.par.crTxe = false → t.bsc.txq = s.bsc.txq))
     | .txeOn w => t.eng = s.eng ∧ t.bsc.oe = s.bsc.oe ∧ t.bsc.ue = s.bsc.ue ∧
         (w.getLsbD s.par.crBrk = false → t.bsc.rxq = s.bsc.rxq)
     | .sense => True
     | .rxpoll _ _ => True
     | .txstream _ => True)

/-- The frame of the three commands: accepting or turning one away accesses no register, changes no BSC state, and of the
working registers only those 40:R137 names; only an accepted `RXPOLL` changes a byte of `Buf`. That a command turned away keeps
them all is the model's choice (log entry 14). -/
def Obligations.CommandFrame : Prop :=
  ∀ (i : Instr) (s t : State), isBusOp i = false → exec i s = .next t →
    t.bsc = s.bsc ∧ t.par = s.par ∧ t.half = s.half ∧ t.env = s.env ∧
    t.host.ready = s.host.ready ∧ t.host.cancel = s.host.cancel ∧ t.host.cmd = s.host.cmd ∧
    t.host.cmdBuf = s.host.cmdBuf ∧
    t.obs = { s.obs with responses := t.obs.responses } ∧
    (s.host.ready = true → t.log = s.log ∧ t.obs = s.obs) ∧
    (s.host.ready = false → t.eng = s.eng ∧ t.host = s.host) ∧
    (match i with
     | .sense => t.eng = { s.eng with op := t.eng.op } ∧
         (∀ a, Memory.read t.host.buf a = Memory.read s.host.buf a)
     | .txstream _ => t.eng = { s.eng with op := t.eng.op, addr := t.eng.addr } ∧
         (∀ a, Memory.read t.host.buf a = Memory.read s.host.buf a)
     | .rxpoll _ _ => t.eng = { s.eng with op := t.eng.op, bp := t.eng.bp, cap := t.eng.cap }
     | _ => True)

/-! ### The micro-programs -/

/-- 40:R130, 60:R267: at the five checkpoints a set `cancel` ends the command with ABORTED and nothing else, and a clear one
goes on to the successor label. That the working registers keep their values at the return is the model's choice
(log entry 14). -/
def Obligations.CheckpointAbortsOrContinues : Prop :=
  ∀ s u l next, engineTurn s = some u → (l, next) ∈ checkpoints → u.pc = l →
    (u.host.cancel = true → step s = .next { u with
      pc := .idle, obs := { u.obs with responses := u.obs.responses ++ [0x80000000#32] } }) ∧
    (u.host.cancel = false → step s = .next { u with pc := next })

/-- 41:R152: `RX_ENTRY` with no buffer returns DONE 0 and touches nothing; with one it clears `E.n` and goes to `RX_K0`.
That the working registers keep their values at the return is the model's choice (log entry 14). -/
def Obligations.ReceiveEntry : Prop :=
  ∀ s u, engineTurn s = some u → u.pc = .rxEntry →
    (u.eng.bp = false → step s = .next { u with
      pc := .idle, obs := { u.obs with responses := u.obs.responses ++ [0x00000000#32] } }) ∧
    (u.eng.bp = true → step s = .next { u with pc := .rxK0, eng := { u.eng with n := 0 } })

/-- 41:R154: `RX_COND` tests the room first and then makes no register access; with room it makes one `RD_FR` and enters the
body exactly when the receive FIFO is not empty. -/
def Obligations.ReceiveCondition : Prop :=
  ∀ s u, engineTurn s = some u → u.par.Valid → u.pc = .rxCond →
    (u.eng.cap ≤ u.eng.n → step s = .next { u with pc := .rxDone }) ∧
    (u.eng.n < u.eng.cap → u.host.ready = true → ∃ t, step s = .next t ∧
      t.pc = (if u.bsc.rxq = [] then .rxDone else .rxK1) ∧ t.bsc = u.bsc ∧ t.host = u.host ∧ t.log = u.log ∧
      t.eng = { u.eng with f := t.eng.f } ∧
      t.obs = { u.obs with requests := u.obs.requests ++ [requestWord false u.par.idxFr 0#32] })

/-- 41:R151, R156, R157, 42:R171, R178, 40:R122, R123: `RX_RSR` and `TX_RSR` each take one snapshot of RSR into `E.r` and go to `RX_CLR`
and `TX_CLR`, which test it; `RX_DR` pops the oldest received byte into `E.d[7:0]` and goes to `RX_STORE`. -/
def Obligations.SnapshotSteps : Prop :=
  ∀ s u, engineTurn s = some u → u.par.Valid → u.host.ready = true →
    (∀ l next, (l, next) ∈ [(Label.rxRsr, Label.rxClr), (.txRsr, .txClr)] → u.pc = l → ∃ t, step s = .next t ∧
      t.eng.r.getLsbD 0 = u.bsc.oe ∧ t.eng.r.getLsbD 1 = u.bsc.ue ∧
      t = { u with
        pc := next
        eng := { u.eng with r := t.eng.r }
        env := { u.env with draws := t.env.draws }
        obs := { u.obs with requests := u.obs.requests ++ [requestWord false u.par.idxRsr 0#32] } }) ∧
    (u.pc = .rxDr → ∀ b rest, u.bsc.rxq = b :: rest → ∃ t, step s = .next t ∧
      t.eng.d.extractLsb' 0 8 = b ∧
      t = { u with
        pc := .rxStore
        eng := { u.eng with d := t.eng.d }
        bsc := { u.bsc with rxq := rest }
        env := { u.env with draws := t.env.draws }
        obs := { u.obs with requests := u.obs.requests ++ [requestWord false u.par.idxDr 0#32] } })

/-- 41:R156, 42:R178, 60:R263, R264, 20:R72: `RX_CLR` and `TX_CLR` test their own flag of the snapshot. If it is clear the
iteration goes on. If it is set the event is appended to `LOG` in one step, and in the next that flag is cleared with its
clear word and the iteration goes on. -/
def Obligations.StickyFlagReportedAndCleared : Prop :=
  ∀ s u, engineTurn s = some u → u.par.Valid →
    (u.pc = .rxClr → u.half = false →
      (u.eng.r.getLsbD 0 = false → step s = .next { u with pc := .rxDr }) ∧
      (u.eng.r.getLsbD 0 = true → step s = .next { u with half := true, log := u.log ++ [(1#3, .overrun)] })) ∧
    (u.pc = .rxClr → u.half = true → u.host.ready = true → step s = .next { u with
      pc := .rxDr, half := false, bsc := { u.bsc with oe := false }
      obs := { u.obs with requests := u.obs.requests ++ [requestWord true u.par.idxRsr 0xFFFFFFFE#32] } }) ∧
    (u.pc = .txClr → u.half = false →
      (u.eng.r.getLsbD 1 = false → step s = .next { u with pc := .txProd }) ∧
      (u.eng.r.getLsbD 1 = true → step s = .next { u with half := true, log := u.log ++ [(2#3, .underrun)] })) ∧
    (u.pc = .txClr → u.half = true → u.host.ready = true → step s = .next { u with
      pc := .txProd, half := false, bsc := { u.bsc with ue := false }
      obs := { u.obs with requests := u.obs.requests ++ [requestWord true u.par.idxRsr 0xFFFFFFFD#32] } })

/-- 41:R157, 40:R132: `RX_STORE` inside `Buf` stores `E.d[7:0]` at index `E.n`, leaves every other byte, and increments
`E.n`; outside `Buf` (no rule leads there) it is the model fault of log entry 16. -/
def Obligations.ReceiveStore : Prop :=
  ∀ s u, engineTurn s = some u → u.pc = .rxStore →
    (u.host.bufPresent = true → u.eng.n < u.eng.cap → ∃ t, step s = .next t ∧
      Memory.read t.host.buf u.eng.n = some (u.eng.d.extractLsb' 0 8) ∧
      (∀ a, a ≠ u.eng.n → Memory.read t.host.buf a = Memory.read u.host.buf a) ∧
      t = { u with
        pc := .rxCond, eng := { u.eng with n := u.eng.n + 1 }, host := { u.host with buf := t.host.buf } }) ∧
    (u.host.bufPresent = false ∨ u.eng.cap ≤ u.eng.n → step s = .fault .bufferOutOfRange)

/-- 41:R158, 42:R190, 43:R211, 40:R135, 30:R95: the last step of each command returns its value with kind DONE and goes to
`IDLE`; a count of 2^31 or more is refused (93 U9, log entry 12). That the working registers keep their values is the model's
choice (log entry 14). -/
def Obligations.CommandsReturn : Prop :=
  ∀ s u v, engineTurn s = some u →
    (u.pc = .rxDone ∧ v = u.eng.n) ∨ (u.pc = .txDone ∧ v = u.eng.count) ∨
      (u.pc = .snDone ∧ v = if u.eng.f.getLsbD u.par.frRxbusy then 1 else 0) →
    (v < 2 ^ 31 → step s = .next { u with
      pc := .idle, obs := { u.obs with responses := u.obs.responses ++ [BitVec.ofNat 32 v] } }) ∧
    (2 ^ 31 ≤ v → step s = .refused .countTooWide)

/-- 42:R174, R176, R187: the outer, inner and flush conditions each make one fresh `RD_FR`, test RXFE, TXFF and TXFE of the
BSC as it is, and change nothing else. -/
def Obligations.StreamConditions : Prop :=
  ∀ s u, engineTurn s = some u → u.par.Valid → u.host.ready = true →
    u.pc = .txOcond ∨ u.pc = .txIcond ∨ u.pc = .txFcond →
    ∃ t, step s = .next t ∧
      (u.pc = .txOcond → t.pc = if u.bsc.rxq = [] then .txK1 else .txAcct) ∧
      (u.pc = .txIcond → t.pc = if u.bsc.txq.length = u.par.txDepth then .txSleep else .txK2) ∧
      (u.pc = .txFcond → t.pc = if u.bsc.txq = [] then .txLoff else .txFoff) ∧
      t.bsc = u.bsc ∧ t.host = u.host ∧ t.log = u.log ∧ t.eng = { u.eng with f := t.eng.f } ∧
      t.obs = { u.obs with requests := u.obs.requests ++ [requestWord false u.par.idxFr 0#32] }

/-- 42:R179, 40:R131, 45:R233: `TX_PROD` calls the producer once with `E.addr`. Its answer is the next one listed, or any
answer when none is listed; with `has_more = 0` control goes to `TX_SLEEP`, else to `TX_PUSH`. Neither the BSC nor `E.addr`
nor `E.offered` changes. -/
def Obligations.ProducerCalledOnce : Prop :=
  ∀ s u, engineTurn s = some u → u.pc = .txProd →
    ∃ t, step s = .next t ∧
      t.obs = { u.obs with calls := u.obs.calls ++ [u.eng.addr] } ∧
      t.pc = (if t.eng.pm then .txPush else .txSleep) ∧
      t.eng = { u.eng with pb := t.eng.pb, pm := t.eng.pm } ∧
      t.bsc = u.bsc ∧ t.host = u.host ∧ t.log = u.log ∧
      (∀ b m rest, u.env.producer = (b, m) :: rest →
        t.eng.pb = b ∧ t.eng.pm = m ∧ t.env.producer = rest)

/-- 42:R180, 40:R136(b): `TX_PUSH` with room writes the byte to DR, advances `E.addr` modulo 65536 and counts one offered
byte, in one step. -/
def Obligations.StreamPush : Prop :=
  ∀ s u, engineTurn s = some u → u.par.Valid → u.pc = .txPush → u.host.ready = true → u.bsc.txq.length < u.par.txDepth →
    ∃ t, step s = .next t ∧ t.pc = .txIcond ∧
      t.eng = { u.eng with addr := t.eng.addr, offered := u.eng.offered + 1 } ∧
      t.eng.addr.toNat = (u.eng.addr.toNat + 1) % 65536 ∧
      t.bsc.txl.toList ++ t.bsc.txq = u.bsc.txl.toList ++ u.bsc.txq ++ [u.eng.pb] ∧
      t.bsc = { u.bsc with txl := t.bsc.txl, txq := t.bsc.txq } ∧
      t.host = u.host ∧ t.log = u.log ∧
      t.obs = { u.obs with requests := u.obs.requests ++ [requestWord true u.par.idxDr (u.eng.pb.setWidth 32)] }

/-- 42:R182, R183, 40:R136(d): the accounting. `TX_ACCT` makes one fresh `RD_FR` and takes its transmit fill level, and
changes nothing else; `TX_CALC` stores `max(0, offered - resident - 1)` and accesses no register. -/
def Obligations.StreamAccounting : Prop :=
  ∀ s u, engineTurn s = some u →
    (u.pc = .txAcct → u.par.Valid → u.host.ready = true → u.bsc.txq.length ≤ u.par.txDepth → ∃ t, step s = .next t ∧
      t = { u with
        pc := .txCalc
        eng := { u.eng with f := t.eng.f, resident := u.bsc.txq.length }
        env := { u.env with draws := t.env.draws }
        obs := { u.obs with requests := u.obs.requests ++ [requestWord false u.par.idxFr 0#32] } }) ∧
    (u.pc = .txCalc → ∃ c : Nat, (c : Int) = max 0 ((u.eng.offered : Int) - u.eng.resident - 1) ∧
      step s = .next { u with pc := .txFcond, eng := { u.eng with count := c } })

/-- 42:R172, R181: `TX_INIT` clears `E.offered`; `TX_SLEEP` only goes on to the outer condition, whatever `cancel` is. -/
def Obligations.StreamInitAndSleep : Prop :=
  ∀ s u, engineTurn s = some u →
    (u.pc = .txInit → step s = .next { u with pc := .txK0, eng := { u.eng with offered := 0 } }) ∧
    (u.pc = .txSleep → step s = .next { u with pc := .txOcond })

/-- 40:R128, R129, 20:R72, R68, 30:R105, for CR with BRK = 0 and TXE = 1: the two events of `TXE_OFF` and then the two of
`TXE_ON`, with no other agent between, at `TX_LOFF` and `TX_LON` or at `TX_FOFF` and `TX_FON`, drop the latched byte, load
the next one from the queue, leave CR as it was, and make the four requests of `TOGGLE`. -/
def Obligations.ToggleDropsAndLoads : Prop :=
  ∀ s : State, s.par.Valid → EngineOnly s → s.half = false → s.host.ready = true →
    s.bsc.cr.getLsbD s.par.crTxe = true → s.bsc.cr.getLsbD s.par.crBrk = false →
    s.pc = .txFoff ∨ s.pc = .txLoff →
    Sys2Proof.core.run 4 s = .next { s with
      pc := if s.pc = .txFoff then .txFcond else .txDone
      eng := { s.eng with c := s.bsc.cr &&& ~~~ bit s.par.crTxe }
      bsc := { s.bsc with txl := s.bsc.txq.head?, txq := s.bsc.txq.tail }
      obs := { s.obs with requests := s.obs.requests ++
        [requestWord false s.par.idxCr 0#32, requestWord true s.par.idxCr (s.bsc.cr &&& ~~~ bit s.par.crTxe),
         requestWord false s.par.idxCr 0#32, requestWord true s.par.idxCr s.bsc.cr] } }

/-- 42:R189: during the flush `cancel` has no effect: the step from the same state with `cancel` set gives the same state
with `cancel` set. That the undescribed bits of `E.f` agree too rests on the model's choice of log entry 2: the two steps see
the same free word. -/
def Obligations.FlushIgnoresCancel : Prop :=
  ∀ s u t, engineTurn s = some u → u.par.Valid → u.pc.inFlush = true → step s = .next t →
    step { s with host := { s.host with cancel := true } } = .next { t with host := { t.host with cancel := true } }

/-! ### The other agents -/

/-- 45:R223, R231: `M.WRITE b` in MasterWriting, with the controller set up, appends `b` when there is room and otherwise
sets `OE` and loses `b`; nothing else changes. -/
def Obligations.MasterWrite : Prop :=
  ∀ (s : State) (b : Byte) rest, s.env.script = .master (.write b) :: rest → s.bsc.bus = .masterWriting →
    receiveSetUp s.par s.bsc.cr = true →
    step s = .next { s with
      bsc := if s.bsc.rxq.length < s.par.rxDepth then { s.bsc with rxq := s.bsc.rxq ++ [b] }
             else { s.bsc with oe := true }
      env := { s.env with script := rest } }

/-- 45:R225, R221, R228, for TXE = 1 and the controller set up: `M.READ` gives the master the latched byte and reloads the
latch; with no byte available it sets `UE` and the master receives one byte, of any value. -/
def Obligations.MasterRead : Prop :=
  ∀ (s : State) rest, s.env.script = .master .read :: rest → s.bsc.bus = .slaveWriting →
    s.bsc.cr.getLsbD s.par.crTxe = true → protocolSetUp s.par s.bsc.cr = true →
    (∀ b, s.bsc.txl = some b → step s = .next { s with
      bsc := { s.bsc with txl := s.bsc.txq.head?, txq := s.bsc.txq.tail }
      env := { s.env with script := rest }
      obs := { s.obs with masterGot := s.obs.masterGot ++ [b] } }) ∧
    (s.bsc.txl = none → ∃ t b, step s = .next t ∧ t = { s with
      bsc := { s.bsc with ue := true }
      env := { s.env with script := rest, draws := t.env.draws }
      obs := { s.obs with masterGot := s.obs.masterGot ++ [b] } })

/-- 45:R229: `M.READ` while TXE = 0 gives the master one byte of any value, may set `UE`, does not clear it, and changes
neither queue nor latch. -/
def Obligations.MasterReadWhileDisabled : Prop :=
  ∀ (s : State) rest, s.env.script = .master .read :: rest → s.bsc.bus = .slaveWriting →
    s.bsc.cr.getLsbD s.par.crTxe = false → protocolSetUp s.par s.bsc.cr = true →
    ∃ t b, step s = .next t ∧ (s.bsc.ue = true → t.bsc.ue = true) ∧ t = { s with
      bsc := { s.bsc with ue := t.bsc.ue }
      env := { s.env with script := rest, draws := t.env.draws }
      obs := { s.obs with masterGot := s.obs.masterGot ++ [b] } }

/-- 45:R222, R224, R226: the master's phase steps, taken outside the phase they lead to, set `bus` and change nothing else. -/
def Obligations.MasterChangesPhase : Prop :=
  ∀ (s : State) m p rest, (m, p) ∈ [(MasterStep.startWrite, BusPhase.masterWriting), (.startRead, .slaveWriting), (.stop, .idle)] →
    s.env.script = .master m :: rest → s.bsc.bus ≠ p →
    step s = .next { s with bsc := { s.bsc with bus := p }, env := { s.env with script := rest } }

/-- The model's choice (log entry 11, after 45:R230): `M.WRITE` in MasterWriting with EN, RXE or I2C clear and `M.READ` in
SlaveWriting with EN or I2C clear are refused by name. -/
def Obligations.MasterOutsideSetupRefused : Prop :=
  ∀ (s : State) rest,
    (∀ b, s.env.script = .master (.write b) :: rest → s.bsc.bus = .masterWriting →
      receiveSetUp s.par s.bsc.cr = false → step s = .refused .masterOutsideSetup) ∧
    (s.env.script = .master .read :: rest → s.bsc.bus = .slaveWriting →
      protocolSetUp s.par s.bsc.cr = false → step s = .refused .masterOutsideSetup)

/-- The model's choice (log entry 18, after 45:R222 to R226): a step of the master in a phase where the spec does not enable it
(`M.WRITE` outside MasterWriting, `M.READ` outside SlaveWriting, a phase step in the phase it leads to) only uses up its turn. -/
def Obligations.MasterStepNotEnabled : Prop :=
  ∀ (s : State) m rest, s.env.script = .master m :: rest →
    ((∃ b, m = .write b) ∧ s.bsc.bus ≠ .masterWriting) ∨ (m = .read ∧ s.bsc.bus ≠ .slaveWriting) ∨
      (m = .startWrite ∧ s.bsc.bus = .masterWriting) ∨ (m = .startRead ∧ s.bsc.bus = .slaveWriting) ∨
      (m = .stop ∧ s.bsc.bus = .idle) →
    step s = .next { s with env := { s.env with script := rest } }

/-- 45:R232: no step of the master changes CR, `cancel`, the engine or `LOG`, makes a bus request, clears `OE` or `UE`,
removes a received byte, or adds a byte to the transmit path. -/
def Obligations.MasterCannot : Prop :=
  ∀ (s t : State) m rest, s.env.script = .master m :: rest → step s = .next t →
    t.bsc.cr = s.bsc.cr ∧ t.host = s.host ∧ t.eng = s.eng ∧ t.pc = s.pc ∧ t.log = s.log ∧
    t.obs.requests = s.obs.requests ∧ (s.bsc.oe = true → t.bsc.oe = true) ∧ (s.bsc.ue = true → t.bsc.ue = true) ∧
    s.bsc.rxq <+: t.bsc.rxq ∧ (t.bsc.txl.toList ++ t.bsc.txq) <:+ (s.bsc.txl.toList ++ s.bsc.txq)

/-- 45:R235, R236, R238, R239: what each of the host's steps does to the command port, `cancel`, `ready` and the setup bits of
CR, and that none touches the engine, `LOG` or a stream. The model's choices: the rest of the BSC is any state within 10:R47
after `H.SETUP` (log entry 7); a teardown during a command, the step `unmap`, clears `ready` (log entry 15); a step where the
spec does not enable it, `setup`, `uncancel`, `teardown` or `unmap`, only uses up its turn (log entry 18); so does a command
issued at a full port, and an issued command replaces what an empty port held (log entry 28). -/
def Obligations.HostSteps : Prop :=
  ∀ (s : State) h rest, s.env.script = .host h :: rest → ∃ t, step s = .next t ∧
    t.par = s.par ∧ t.half = s.half ∧ t.eng = s.eng ∧ t.pc = s.pc ∧ t.log = s.log ∧ t.obs = s.obs ∧
    t.env.script = rest ∧ t.env.producer = s.env.producer ∧
    (∀ cw cells, h = .issue cw cells →
      t.host = (if s.host.cmd = none then { s.host with cmd := some cw, cmdBuf := cells } else s.host) ∧ t.bsc = s.bsc) ∧
    (h = .cancel → t.host = { s.host with cancel := true } ∧ t.bsc = s.bsc) ∧
    (h = .uncancel → t.host = { s.host with cancel := if s.pc = .idle then false else s.host.cancel } ∧ t.bsc = s.bsc) ∧
    (h = .setup true → s.pc = .idle → s.host.ready = false →
      t.host = { s.host with ready := true } ∧ (s.par.Valid → launchSetUp t.par t.bsc.cr = true) ∧ t.bsc.Inv t.par) ∧
    (h = .setup true → s.pc ≠ .idle ∨ s.host.ready = true → t.host = s.host ∧ t.bsc = s.bsc) ∧
    (h = .setup false → t.host = s.host ∧ t.bsc = s.bsc) ∧
    (h = .teardown → t.host = { s.host with ready := if s.pc = .idle then false else s.host.ready } ∧ t.bsc = s.bsc) ∧
    (h = .unmap → t.host = { s.host with ready := if s.pc = .idle then s.host.ready else false } ∧ t.bsc = s.bsc)

/-! ### Invariants and whole-machine rules -/

/-- 10:R48 and the model's choices for the rest (log entries 1, 5, 6): what reset leaves, and that it meets the invariant. -/
def Obligations.ResetState : Prop :=
  State.reset.pc = .idle ∧ State.reset.log = [] ∧ State.reset.host.ready = false ∧ State.reset.host.cancel = false ∧
  State.reset.host.bufPresent = false ∧ State.reset.par = Params.default ∧ State.reset.Inv

/-- 00:R5, 10:R46: no step of any agent changes the parameters. -/
def Obligations.ParametersNeverChange : Prop :=
  ∀ s t, step s = .next t → t.par = s.par

/-- 10:R47 with the labels' own facts: every step of every agent keeps the invariant. -/
def Obligations.StepKeepsInvariant : Prop :=
  ∀ s t : State, s.Inv → step s = .next t → t.Inv

/-- 60:R285: from a state that meets the invariant with the window mapped, no step of any agent is a model fault. -/
def Obligations.NoModelFault : Prop :=
  ∀ s : State, s.Inv → s.host.ready = true → noFault (step s) = true

/-- 10:R34, R35, R47(iv): a step that lowers `OE` or `UE` makes the matching clear request, whatever agent takes it. -/
def Obligations.OnlyClearRequestsLowerFlags : Prop :=
  ∀ s t, step s = .next t →
    (s.bsc.oe = true → t.bsc.oe = false → t.obs.requests = s.obs.requests ++ [requestWord true s.par.idxRsr 0xFFFFFFFE#32]) ∧
    (s.bsc.ue = true → t.bsc.ue = false → t.obs.requests = s.obs.requests ++ [requestWord true s.par.idxRsr 0xFFFFFFFD#32])

/-- 10:R36, R40, R43, 30:R105, R109: from a state that meets the invariant, a step of the engine changes no bit of CR but
TXE, and neither the bus phase nor `ready` nor `cancel`. -/
def Obligations.EngineChangesOnlyTxe : Prop :=
  ∀ s u t : State, s.Inv → engineTurn s = some u → step s = .next t →
    (∀ k, k ≠ u.par.crTxe → t.bsc.cr.getLsbD k = s.bsc.cr.getLsbD k) ∧
    t.bsc.bus = s.bsc.bus ∧ t.host.ready = s.host.ready ∧ t.host.cancel = s.host.cancel

/-- 10:R28, 60:R262, 00:R12: no step of any agent takes a record out of `LOG`, and none takes one out of the streams of
responses, bytes sent to the master, producer calls and bus requests. -/
def Obligations.StreamsOnlyGrow : Prop :=
  ∀ s t, step s = .next t →
    s.log <+: t.log ∧ s.obs.responses <+: t.obs.responses ∧ s.obs.masterGot <+: t.obs.masterGot ∧
    s.obs.calls <+: t.obs.calls ∧ s.obs.requests <+: t.obs.requests

/-- 30:R97, 20:R69: every bus request any step makes is the word of one of the nine micro-operations. -/
def Obligations.RequestsAreMicroOperations : Prop :=
  ∀ s t, s.par.Valid → step s = .next t →
    t.obs.requests = s.obs.requests ∨
    ∃ w i, t.obs.requests = s.obs.requests ++ [w] ∧ decodeRequest s.par w = .ok i

/-! ### Whole commands, no other agent stepping -/

/-- 43:R210 to R212: `SENSE` from `IDLE` makes one read of FR and returns 1 exactly when `bus = MasterWriting`; it changes
no BSC state, and a set `cancel` has no effect on it. -/
def Obligations.SenseReportsBusy : Prop :=
  ∀ s : State, s.par.Valid → EngineOnly s → s.pc = .idle → PReady s → s.host.cmd = some 0x00000001#32 →
    ∃ t, Sys2Proof.core.run 3 s = .next t ∧ t.pc = .idle ∧ t.bsc = s.bsc ∧ t.log = s.log ∧
      t.obs = { s.obs with
        responses := s.obs.responses ++ [if s.bsc.bus = .masterWriting then 1#32 else 0#32]
        requests := s.obs.requests ++ [requestWord false s.par.idxFr 0#32] }

/-- 41:R160(a), (d): with no other agent stepping and `cancel = 0`, `RXPOLL c` with a buffer returns `min(c, k)` where `k`
bytes are in the receive FIFO, stores exactly those bytes in arrival order and leaves every other element of the caller's buffer
(10:R44) and the other bytes of the FIFO, and reports and clears a set `OE` once if an iteration ran. -/
def Obligations.ReceivePollerReturnsMin : Prop :=
  ∀ (s : State) (c : BitVec 16), s.par.Valid → EngineOnly s → s.pc = .idle → s.half = false → PReady s → s.host.cancel = false →
    s.host.cmd = some (c.setWidth 32 <<< 16 ||| 0x6#32) →
    ∃ k t, Sys2Proof.core.run k s = .next t ∧ t.pc = .idle ∧
      t.obs.responses = s.obs.responses ++ [BitVec.ofNat 32 (min c.toNat s.bsc.rxq.length)] ∧
      (∀ i, i < min c.toNat s.bsc.rxq.length → Memory.read t.host.buf i = s.bsc.rxq[i]?) ∧
      (∀ i, min c.toNat s.bsc.rxq.length ≤ i →
        Memory.read t.host.buf i = Memory.read (Memory.ofCells c.toNat s.host.cmdBuf) i) ∧
      t.bsc = { s.bsc with
        rxq := s.bsc.rxq.drop (min c.toNat s.bsc.rxq.length)
        oe := if min c.toNat s.bsc.rxq.length = 0 then s.bsc.oe else false } ∧
      t.log = s.log ++ (if s.bsc.oe = true ∧ min c.toNat s.bsc.rxq.length ≠ 0 then [(1#3, Event.overrun)] else [])

/-- 42:R187 to R189, for CR with BRK = 0 and TXE = 1 and no other agent stepping: from its first test the flush ends, with
`|txq| + 1` toggle cycles and `|txq| + 1` reads of FR, the transmit path empty, CR as it was, and the command returns
DONE `E.count`. -/
def Obligations.FlushEmptiesTransmitPath : Prop :=
  ∀ s : State, s.par.Valid → EngineOnly s → s.pc = .txFcond → s.half = false → s.host.ready = true →
    s.bsc.cr.getLsbD s.par.crTxe = true → s.bsc.cr.getLsbD s.par.crBrk = false → s.eng.count < 2 ^ 31 →
    ∃ k t new, Sys2Proof.core.run k s = .next t ∧ t.pc = .idle ∧
      t.bsc = { s.bsc with txq := [], txl := none } ∧
      t.obs.responses = s.obs.responses ++ [BitVec.ofNat 32 s.eng.count] ∧
      t.obs.requests = s.obs.requests ++ new ∧
      new.count (requestWord false s.par.idxFr 0#32) = s.bsc.txq.length + 1 ∧
      new.count (requestWord true s.par.idxCr (s.bsc.cr &&& ~~~ bit s.par.crTxe)) = s.bsc.txq.length + 1 ∧
      new.count (requestWord true s.par.idxCr s.bsc.cr) = s.bsc.txq.length + 1

/-- 42:R191(e), 70:R314: `TXSTREAM` started with a received byte waiting offers nothing: the producer is not called, the
flush still runs, the result is 0, and the receive FIFO is as it was (BRK = 0, no other agent stepping, `cancel = 0`). -/
def Obligations.StreamWithRequestPendingOffersNothing : Prop :=
  ∀ (s : State) (a : BitVec 16), s.par.Valid → EngineOnly s → s.pc = .idle → s.half = false → PReady s → s.host.cancel = false →
    s.bsc.cr.getLsbD s.par.crBrk = false → s.bsc.rxq ≠ [] → s.host.cmd = some (a.setWidth 32 <<< 16 ||| 0x3#32) →
    ∃ k t, Sys2Proof.core.run k s = .next t ∧ t.pc = .idle ∧
      t.bsc = { s.bsc with txq := [], txl := none } ∧
      t.obs.responses = s.obs.responses ++ [0x00000000#32] ∧ t.obs.calls = s.obs.calls
end

