-- ==== Sys2Proof/Laws/Encoding.lean ====
section
/-! SUPPORT. The fields of request and command words, and when a bus row selects a request word. -/

namespace Sys2Proof

theorem getLsbD_bit (k i : Nat) : (bit k).getLsbD i = (decide (i < 32) && decide (i = k)) := by
  rw [bit, BitVec.getLsbD_shiftLeft]
  by_cases h : i < k
  · simp [h, Nat.ne_of_lt h]
  · simp only [h, decide_false, Bool.not_false, Bool.and_true]
    by_cases h2 : i = k
    · simp [h2]
    · have : i - k ≠ 0 := by omega
      simp [h2, BitVec.getLsbD_one, this]

/-- The defaults of 00:R5 meet its constraints. -/
theorem Params.default_valid : Params.default.Valid := by constructor <;> decide

/-- A word masked by one bit is that bit or zero. -/
theorem and_bit (d : Word) (k : Nat) : d &&& bit k = if d.getLsbD k = true then bit k else 0#32 := by
  apply BitVec.eq_of_getLsbD_eq
  intro i hi
  rw [BitVec.getLsbD_and, getLsbD_bit]
  by_cases h : i = k
  · subst h
    cases hd : d.getLsbD i <;> simp [getLsbD_bit, hi]
  · cases hd : d.getLsbD k <;> simp [getLsbD_bit, h]

/-- The bit of TXE is in the word (00:R5). -/
theorem bitTxe_ne_zero {p : Params} (h : p.Valid) : bit p.crTxe ≠ 0#32 := by
  intro hz
  have hf := h.crBitFits p.crTxe (by simp [Params.crBits])
  have hb := getLsbD_bit p.crTxe p.crTxe
  simp [hz, hf] at hb

/-- A byte written to DR has its upper bits zero. -/
theorem upper_of_byte (b : Byte) : (b.setWidth 32 : Word) &&& 0xFFFFFF00#32 = 0#32 := by
  apply BitVec.eq_of_getLsbD_eq
  intro i hi
  interval_cases i <;> simp

/-- The 3-bit register index of a request word. -/
theorem reqIdx_eq (bw : Request) : reqIdx bw = (bw.extractLsb' 32 3).toNat := rfl

@[simp] theorem reqWe_requestWord (we : Bool) (idx : Nat) (d : Word) : reqWe (requestWord we idx d) = we := by
  cases we <;> simp [reqWe, requestWord]

@[simp] theorem reqData_requestWord (we : Bool) (idx : Nat) (d : Word) : reqData (requestWord we idx d) = d := by
  apply BitVec.eq_of_getLsbD_eq
  intro i hi
  simp only [reqData, requestWord]
  cases we
  · simp [hi]
    omega
  · have : (34359738368#36 : BitVec 36).getLsbD i = false := by
      rw [show (34359738368#36 : BitVec 36) = BitVec.twoPow 36 35 by decide]
      simp
      omega
    simp [hi, this]
    omega

theorem idxBits_requestWord (we : Bool) (idx : Nat) (d : Word) :
    (requestWord we idx d).extractLsb' 32 3 = BitVec.ofNat 3 idx := by
  apply BitVec.eq_of_getLsbD_eq
  intro i hi
  cases we <;> simp only [requestWord] <;>
    rcases (by omega : i = 0 ∨ i = 1 ∨ i = 2) with rfl | rfl | rfl <;> simp

@[simp] theorem reqIdx_requestWord (we : Bool) (idx : Nat) (d : Word) : reqIdx (requestWord we idx d) = idx % 8 := by
  simp [reqIdx, idxBits_requestWord]

/-- A request word is its three fields. -/
theorem request_ext {a b : Request} (hw : reqWe a = reqWe b) (hi : reqIdx a = reqIdx b) (hd : reqData a = reqData b) :
    a = b := by
  have hi' : a.extractLsb' 32 3 = b.extractLsb' 32 3 := BitVec.eq_of_toNat_eq hi
  apply BitVec.eq_of_getLsbD_eq
  intro i h
  by_cases h1 : i < 32
  · have := congrArg (fun x : Word => x.getLsbD i) hd
    simpa [reqData, h1] using this
  · by_cases h2 : i = 35
    · subst h2
      exact hw
    · have := congrArg (fun x : BitVec 3 => x.getLsbD (i - 32)) hi'
      have h3 : 32 + (i - 32) = i := by omega
      have h4 : i - 32 < 3 := by omega
      simpa [h3, h4] using this

theorem requestWord_eta (bw : Request) : bw = requestWord (reqWe bw) (reqIdx bw) (reqData bw) := by
  apply request_ext
  · simp
  · have : reqIdx bw < 8 := by
      unfold reqIdx
      omega
    simp [Nat.mod_eq_of_lt this]
  · simp

theorem requestWord_inj (we we' : Bool) (idx idx' : Nat) (d d' : Word) :
    requestWord we idx d = requestWord we' idx' d' ↔ we = we' ∧ idx % 8 = idx' % 8 ∧ d = d' := by
  constructor
  · intro h
    exact ⟨by simpa using congrArg reqWe h, by simpa using congrArg reqIdx h, by simpa using congrArg reqData h⟩
  · rintro ⟨rfl, h, rfl⟩
    exact request_ext (by simp) (by simpa using h) (by simp)

theorem requestWord_and_mask (we : Bool) (idx : Nat) (d m : Word) :
    requestWord we idx d &&& (0xF00000000#36 ||| m.setWidth 36) = requestWord we idx (d &&& m) := by
  have mw : (0xF00000000#36 ||| m.setWidth 36) = requestWord true 7 m := by
    rw [requestWord]
    rfl
  rw [mw]
  apply request_ext
  · have : reqWe (requestWord we idx d &&& requestWord true 7 m)
        = (reqWe (requestWord we idx d) && reqWe (requestWord true 7 m)) := by
      simp [reqWe]
    rw [this]
    simp
  · have : (requestWord we idx d &&& requestWord true 7 m).extractLsb' 32 3
        = (requestWord we idx d).extractLsb' 32 3 &&& (requestWord true 7 m).extractLsb' 32 3 := by
      rw [BitVec.extractLsb'_and]
    rw [reqIdx_eq, reqIdx_eq, this, idxBits_requestWord, idxBits_requestWord, idxBits_requestWord]
    rw [show BitVec.ofNat 3 7 = BitVec.allOnes 3 by decide, BitVec.and_allOnes]
  · have : reqData (requestWord we idx d &&& requestWord true 7 m)
        = reqData (requestWord we idx d) &&& reqData (requestWord true 7 m) := by
      simp only [reqData, BitVec.extractLsb'_and]
    rw [this]
    simp

/-- When a row of 30:R97 selects a request word: same `WE`, same `WIDX`, and the masked data as the row has them. -/
theorem busRow_selects (mn : String) (we we' : Bool) (idx idx' : Nat) (dm dv d : Word) :
    (busRow mn we idx dm dv).selects (requestWord we' idx' d)
      = (decide (we' = we) && decide (idx' % 8 = idx % 8) && decide (d &&& dm = dv)) := by
  simp only [Row.selects, busRow, requestWord_and_mask]
  rw [Bool.eq_iff_iff]
  simp only [beq_iff_eq, requestWord_inj]
  simp [and_assoc]

/-- The same, for any request word, by its fields. -/
theorem busRow_selects_iff (mn : String) (we : Bool) (idx : Nat) (dm dv : Word) (w : Request) :
    (busRow mn we idx dm dv).selects w = true ↔ reqWe w = we ∧ reqIdx w = idx % 8 ∧ reqData w &&& dm = dv := by
  conv_lhs => rw [requestWord_eta w]
  rw [busRow_selects]
  have : reqIdx w < 8 := by
    unfold reqIdx
    omega
  simp [Nat.mod_eq_of_lt this, and_assoc]

/-- The word indices differ and fit `WIDX` (00:R5, 30:R96). -/
theorem indices_apart {p : Params} (h : p.Valid) :
    (p.idxDr < 8 ∧ p.idxRsr < 8 ∧ p.idxCr < 8 ∧ p.idxFr < 8) ∧
    p.idxDr ≠ p.idxRsr ∧ p.idxDr ≠ p.idxCr ∧ p.idxDr ≠ p.idxFr ∧ p.idxRsr ≠ p.idxCr ∧ p.idxRsr ≠ p.idxFr ∧
    p.idxCr ≠ p.idxFr := by
  have hn := h.indices
  have hf := h.indexFits
  simp [Params.indices] at hn hf
  tauto

/-- What a request word decodes to, by its fields. -/
theorem decodeRequest_fields {p : Params} (h : p.Valid) (w : Request) : decodeRequest p w =
    if reqWe w = false then
      if reqIdx w = p.idxDr then .ok .rdDr
      else if reqIdx w = p.idxRsr then .ok .rdRsr
      else if reqIdx w = p.idxCr then .ok .rdCr
      else if reqIdx w = p.idxFr then .ok .rdFr
      else .error (rejectRequest p w)
    else if reqIdx w = p.idxDr ∧ reqData w &&& 0xFFFFFF00#32 = 0#32 then .ok (.wrDr ((reqData w).setWidth 8))
    else if reqIdx w = p.idxRsr ∧ reqData w = clearOeWord then .ok .clrOe
    else if reqIdx w = p.idxRsr ∧ reqData w = clearUeWord then .ok .clrUe
    else if reqIdx w = p.idxCr ∧ reqData w &&& bit p.crTxe = 0#32 then .ok (.txeOff (reqData w))
    else if reqIdx w = p.idxCr ∧ reqData w &&& bit p.crTxe = bit p.crTxe then .ok (.txeOn (reqData w))
    else .error (rejectRequest p w) := by
  obtain ⟨⟨h1, h2, h3, h4⟩, -⟩ := indices_apart h
  have all : (0xFFFFFFFF#32 : Word) = BitVec.allOnes 32 := by decide
  cases hw : reqWe w <;>
    simp only [decodeRequest, rowRdDr, rowRdRsr, rowRdCr, rowRdFr, rowWrDr, rowClrOe, rowClrUe, rowTxeOff, rowTxeOn,
      busRow_selects_iff, hw, Nat.mod_eq_of_lt h1, Nat.mod_eq_of_lt h2, Nat.mod_eq_of_lt h3, Nat.mod_eq_of_lt h4, all,
      BitVec.and_allOnes] <;>
    simp

/-! ### Command words -/

@[simp] theorem cmdOp_commandWord (arg : BitVec 16) (bp : Bool) (op : BitVec 2) : cmdOp (commandWord arg bp op) = op := by
  apply BitVec.eq_of_getLsbD_eq
  intro i hi
  cases bp <;> simp only [cmdOp, commandWord] <;> rcases (by omega : i = 0 ∨ i = 1) with rfl | rfl <;> simp

@[simp] theorem cmdBp_commandWord (arg : BitVec 16) (bp : Bool) (op : BitVec 2) : cmdBp (commandWord arg bp op) = bp := by
  cases bp <;> simp [cmdBp, commandWord]

theorem cmdZ_commandWord (arg : BitVec 16) (bp : Bool) (op : BitVec 2) : cmdZ (commandWord arg bp op) = 0#13 := by
  apply BitVec.eq_of_getLsbD_eq
  intro i hi
  cases bp <;> simp only [cmdZ, commandWord] <;> interval_cases i <;> simp

@[simp] theorem cmdArg_commandWord (arg : BitVec 16) (bp : Bool) (op : BitVec 2) :
    cmdArg (commandWord arg bp op) = arg := by
  apply BitVec.eq_of_getLsbD_eq
  intro i hi
  cases bp <;> simp only [cmdArg, commandWord] <;> interval_cases i <;> simp

/-- A command word is its four fields. -/
theorem command_ext {a b : Word} (ho : cmdOp a = cmdOp b) (hb : cmdBp a = cmdBp b) (hz : cmdZ a = cmdZ b)
    (ha : cmdArg a = cmdArg b) : a = b := by
  apply BitVec.eq_of_getLsbD_eq
  intro i h
  by_cases h1 : i < 2
  · simpa [cmdOp, h1] using congrArg (fun x : BitVec 2 => x.getLsbD i) ho
  · by_cases h2 : i = 2
    · subst h2
      exact hb
    · by_cases h3 : i < 16
      · have h4 : 3 + (i - 3) = i := by omega
        have h5 : i - 3 < 13 := by omega
        simpa [cmdZ, h4, h5] using congrArg (fun x : BitVec 13 => x.getLsbD (i - 3)) hz
      · have h4 : 16 + (i - 16) = i := by omega
        have h5 : i - 16 < 16 := by omega
        simpa [cmdArg, h4, h5] using congrArg (fun x : BitVec 16 => x.getLsbD (i - 16)) ha

theorem cmdFields_and (w m : Word) :
    cmdOp (w &&& m) = cmdOp w &&& cmdOp m ∧ cmdBp (w &&& m) = (cmdBp w && cmdBp m) ∧
    cmdZ (w &&& m) = cmdZ w &&& cmdZ m ∧ cmdArg (w &&& m) = cmdArg w &&& cmdArg m := by
  refine ⟨?_, ?_, ?_, ?_⟩ <;> simp only [cmdOp, cmdBp, cmdZ, cmdArg, BitVec.extractLsb'_and, BitVec.getLsbD_and]

/-- A masked command word has a given value when its fields do. -/
theorem command_masked_iff (w m v : Word) :
    w &&& m = v ↔ cmdOp w &&& cmdOp m = cmdOp v ∧ (cmdBp w && cmdBp m) = cmdBp v ∧
      cmdZ w &&& cmdZ m = cmdZ v ∧ cmdArg w &&& cmdArg m = cmdArg v := by
  obtain ⟨a, b, c, d⟩ := cmdFields_and w m
  constructor
  · rintro rfl
    exact ⟨a.symm, b.symm, c.symm, d.symm⟩
  · rintro ⟨h1, h2, h3, h4⟩
    exact command_ext (a.trans h1) (b.trans h2) (c.trans h3) (d.trans h4)

/-- When `SENSE`'s row selects a command word, by its fields. -/
theorem rowSense_selects (w : Word) :
    rowSense.selects w = true ↔ cmdOp w = 1#2 ∧ cmdBp w = false ∧ cmdZ w = 0#13 ∧ cmdArg w = 0#16 := by
  simp only [Row.selects, beq_iff_eq, command_masked_iff, rowSense]
  rw [show cmdOp 0xFFFFFFFF#32 = BitVec.allOnes 2 by decide, show cmdBp 0xFFFFFFFF#32 = true by decide,
    show cmdZ 0xFFFFFFFF#32 = BitVec.allOnes 13 by decide, show cmdArg 0xFFFFFFFF#32 = BitVec.allOnes 16 by decide,
    show cmdOp 1#32 = 1#2 by decide, show cmdBp 1#32 = false by decide, show cmdZ 1#32 = 0#13 by decide,
    show cmdArg 1#32 = 0#16 by decide, BitVec.and_allOnes, BitVec.and_allOnes, BitVec.and_allOnes, Bool.and_true]

/-- When `RXPOLL`'s row selects a command word, by its fields. -/
theorem rowRxpoll_selects (w : Word) : rowRxpoll.selects w = true ↔ cmdOp w = 2#2 ∧ cmdZ w = 0#13 := by
  simp only [Row.selects, beq_iff_eq, command_masked_iff, rowRxpoll]
  rw [show cmdOp 0xFFFB#32 = BitVec.allOnes 2 by decide, show cmdBp 0xFFFB#32 = false by decide,
    show cmdZ 0xFFFB#32 = BitVec.allOnes 13 by decide, show cmdArg 0xFFFB#32 = 0#16 by decide,
    show cmdOp 2#32 = 2#2 by decide, show cmdBp 2#32 = false by decide, show cmdZ 2#32 = 0#13 by decide,
    show cmdArg 2#32 = 0#16 by decide, BitVec.and_allOnes, BitVec.and_allOnes, BitVec.and_zero, Bool.and_false]
  simp

/-- When `TXSTREAM`'s row selects a command word, by its fields. -/
theorem rowTxstream_selects (w : Word) :
    rowTxstream.selects w = true ↔ cmdOp w = 3#2 ∧ cmdBp w = false ∧ cmdZ w = 0#13 := by
  simp only [Row.selects, beq_iff_eq, command_masked_iff, rowTxstream]
  rw [show cmdOp 0xFFFF#32 = BitVec.allOnes 2 by decide, show cmdBp 0xFFFF#32 = true by decide,
    show cmdZ 0xFFFF#32 = BitVec.allOnes 13 by decide, show cmdArg 0xFFFF#32 = 0#16 by decide,
    show cmdOp 3#32 = 3#2 by decide, show cmdBp 3#32 = false by decide, show cmdZ 3#32 = 0#13 by decide,
    show cmdArg 3#32 = 0#16 by decide, BitVec.and_allOnes, BitVec.and_allOnes, BitVec.and_zero, Bool.and_true]
  simp

end Sys2Proof
end

