-- ==== Sys2Proof/Laws/Flags.lean ====
section
/-! SUPPORT. What each field of a register value is, whatever its free bits are, and what the toggle and clear words
change, for every choice of parameters that meets 00:R5. -/

namespace Sys2Proof.Machine

/-! ### Words bit by bit -/

theorem getLsbD_flagAt (k : Nat) (b : Bool) (i : Nat) :
    (flagAt k b).getLsbD i = (b && (decide (i < 32) && decide (i = k))) := by
  cases b <;> simp [flagAt, getLsbD_bit]

theorem getLsbD_fieldAt (lo w v i : Nat) :
    (fieldAt lo w v).getLsbD i =
      (decide (i < 32) && (decide (lo ≤ i) && decide (i < lo + w)) && v.testBit (i - lo)) := by
  simp only [fieldAt, BitVec.getLsbD_shiftLeft, BitVec.getLsbD_setWidth, BitVec.getLsbD_ofNat]
  by_cases h1 : i < 32 <;> by_cases h2 : lo ≤ i
  · have h3 : i - lo < 32 := by omega
    have h4 : (i - lo < w) = (i < lo + w) := propext (by omega)
    have h5 : ¬ i < lo := by omega
    simp [h1, h2, h3, h4, h5]
  · have h5 : i < lo := by omega
    simp [h2, h5]
  · simp [h1]
  · simp [h1]

/-! ### The flag register -/

/-- A place in the field of `w` bits from `lo`. -/
abbrev inField (lo w i : Nat) : Bool := decide (lo ≤ i) && decide (i < lo + w)

theorem inField_of_apart {lo w i : Nat} (h : i < lo ∨ lo + w ≤ i) : inField lo w i = false := by
  simp only [inField, Bool.and_eq_false_iff, decide_eq_false_iff_not]
  omega

/-- 10:R41: every bit of an FR value. -/
theorem frValue_getLsbD (p : Params) (b : Bsc) (free : Word) {i : Nat} (hi : i < 32) :
    (frValue p b free).getLsbD i =
      ((b.rxfe && decide (i = p.frRxfe)) || (b.txff p && decide (i = p.frTxff)) || (b.rxff p && decide (i = p.frRxff)) ||
        (b.txfe && decide (i = p.frTxfe)) || (b.rxbusy && decide (i = p.frRxbusy)) ||
        (inField p.frTxflrLo p.frTxflrW i && b.txq.length.testBit (i - p.frTxflrLo)) ||
        (inField p.frRxflrLo p.frRxflrW i && b.rxq.length.testBit (i - p.frRxflrLo)) ||
        (free.getLsbD i && !(decide (i = p.frRxfe) || decide (i = p.frTxff) || decide (i = p.frRxff) ||
          decide (i = p.frTxfe) || decide (i = p.frRxbusy) || inField p.frTxflrLo p.frTxflrW i ||
          inField p.frRxflrLo p.frRxflrW i))) := by
  have ones : ∀ lo w : Nat, (inField lo w i && (2 ^ w - 1).testBit (i - lo)) = inField lo w i := by
    intro lo w
    by_cases h : i - lo < w
    · simp [Nat.testBit_two_pow_sub_one, h]
    · have : inField lo w i = false := by
        simp only [inField, Bool.and_eq_false_iff, decide_eq_false_iff_not]
        omega
      simp [this]
  simp only [frValue, frDescribed, frMask, BitVec.getLsbD_or, BitVec.getLsbD_and, BitVec.getLsbD_not, getLsbD_flagAt,
    getLsbD_fieldAt, getLsbD_bit, hi, decide_true, Bool.true_and, ones]

/-- The places of FR's one-bit fields differ (00:R5). -/
theorem frFlags_apart {p : Params} (h : p.Valid) :
    p.frRxfe ≠ p.frTxff ∧ p.frRxfe ≠ p.frRxff ∧ p.frRxfe ≠ p.frTxfe ∧ p.frRxfe ≠ p.frRxbusy ∧ p.frTxff ≠ p.frRxff ∧
    p.frTxff ≠ p.frTxfe ∧ p.frTxff ≠ p.frRxbusy ∧ p.frRxff ≠ p.frTxfe ∧ p.frRxff ≠ p.frRxbusy ∧
    p.frTxfe ≠ p.frRxbusy := by
  have := h.frFlags
  simp [Params.frFlags] at this
  tauto

/-- A flag's place is in neither level field (00:R5). -/
theorem frFlag_outside {p : Params} (h : p.Valid) {k : Nat} (hk : k ∈ p.frFlags) :
    k < 32 ∧ inField p.frTxflrLo p.frTxflrW k = false ∧ inField p.frRxflrLo p.frRxflrW k = false :=
  ⟨h.frFlagFits k hk, inField_of_apart (h.frTxflrApart k hk), inField_of_apart (h.frRxflrApart k hk)⟩

/-- 30:R102, 10:R41: the RXFE bit of an FR value. -/
theorem rxfeOf_frValue {p : Params} (h : p.Valid) (b : Bsc) (free : Word) : rxfeOf p (frValue p b free) = b.rxfe := by
  obtain ⟨h1, h2, h3⟩ := frFlag_outside h (k := p.frRxfe) (by simp [Params.frFlags])
  obtain ⟨a1, a2, a3, a4, -⟩ := frFlags_apart h
  rw [rxfeOf, frValue_getLsbD p b free h1]
  simp [h2, h3, a1, a2, a3, a4]

theorem txffOf_frValue {p : Params} (h : p.Valid) (b : Bsc) (free : Word) : txffOf p (frValue p b free) = b.txff p := by
  obtain ⟨h1, h2, h3⟩ := frFlag_outside h (k := p.frTxff) (by simp [Params.frFlags])
  obtain ⟨a1, -, -, -, a5, a6, a7, -⟩ := frFlags_apart h
  rw [txffOf, frValue_getLsbD p b free h1]
  simp [h2, h3, a1.symm, a5, a6, a7]

theorem rxff_frValue {p : Params} (h : p.Valid) (b : Bsc) (free : Word) :
    (frValue p b free).getLsbD p.frRxff = b.rxff p := by
  obtain ⟨h1, h2, h3⟩ := frFlag_outside h (k := p.frRxff) (by simp [Params.frFlags])
  obtain ⟨-, a2, -, -, a5, -, -, a8, a9, -⟩ := frFlags_apart h
  rw [frValue_getLsbD p b free h1]
  simp [h2, h3, a2.symm, a5.symm, a8, a9]

theorem txfeOf_frValue {p : Params} (h : p.Valid) (b : Bsc) (free : Word) : txfeOf p (frValue p b free) = b.txfe := by
  obtain ⟨h1, h2, h3⟩ := frFlag_outside h (k := p.frTxfe) (by simp [Params.frFlags])
  obtain ⟨-, -, a3, -, -, a6, -, a8, -, a10⟩ := frFlags_apart h
  rw [txfeOf, frValue_getLsbD p b free h1]
  simp [h2, h3, a3.symm, a6.symm, a8.symm, a10]

theorem rxbusyOf_frValue {p : Params} (h : p.Valid) (b : Bsc) (free : Word) :
    rxbusyOf p (frValue p b free) = b.rxbusy := by
  obtain ⟨h1, h2, h3⟩ := frFlag_outside h (k := p.frRxbusy) (by simp [Params.frFlags])
  obtain ⟨-, -, -, a4, -, -, a7, -, a9, a10⟩ := frFlags_apart h
  rw [rxbusyOf, frValue_getLsbD p b free h1]
  simp [h2, h3, a4.symm, a7.symm, a9.symm, a10.symm]

/-- A place in a level field is no flag's place. -/
theorem frFlags_ne {p : Params} {i : Nat} (hi : i ∉ p.frFlags) :
    i ≠ p.frRxfe ∧ i ≠ p.frTxff ∧ i ≠ p.frRxff ∧ i ≠ p.frTxfe ∧ i ≠ p.frRxbusy := by
  simpa [Params.frFlags] using hi

theorem txflr_frValue {p : Params} (h : p.Valid) (b : Bsc) (free : Word) :
    (frValue p b free).extractLsb' p.frTxflrLo p.frTxflrW = BitVec.ofNat p.frTxflrW b.txq.length := by
  apply BitVec.eq_of_getLsbD_eq
  intro i hi
  have hfit := h.frTxflrFits
  have hin : inField p.frTxflrLo p.frTxflrW (p.frTxflrLo + i) = true := by
    simp only [inField, Bool.and_eq_true, decide_eq_true_eq]
    omega
  have hout : inField p.frRxflrLo p.frRxflrW (p.frTxflrLo + i) = false :=
    inField_of_apart (by have := h.frLevelsApart; omega)
  have hne : p.frTxflrLo + i ∉ p.frFlags := fun hm => by have := h.frTxflrApart _ hm; omega
  obtain ⟨n1, n2, n3, n4, n5⟩ := frFlags_ne hne
  rw [BitVec.getLsbD_extractLsb', frValue_getLsbD p b free (by omega)]
  simp only [hin, hout, n1, n2, n3, n4, n5, BitVec.getLsbD_ofNat]
  simp [hi]

theorem rxflr_frValue {p : Params} (h : p.Valid) (b : Bsc) (free : Word) :
    (frValue p b free).extractLsb' p.frRxflrLo p.frRxflrW = BitVec.ofNat p.frRxflrW b.rxq.length := by
  apply BitVec.eq_of_getLsbD_eq
  intro i hi
  have hfit := h.frRxflrFits
  have hin : inField p.frRxflrLo p.frRxflrW (p.frRxflrLo + i) = true := by
    simp only [inField, Bool.and_eq_true, decide_eq_true_eq]
    omega
  have hout : inField p.frTxflrLo p.frTxflrW (p.frRxflrLo + i) = false :=
    inField_of_apart (by have := h.frLevelsApart; omega)
  have hne : p.frRxflrLo + i ∉ p.frFlags := fun hm => by have := h.frRxflrApart _ hm; omega
  obtain ⟨n1, n2, n3, n4, n5⟩ := frFlags_ne hne
  rw [BitVec.getLsbD_extractLsb', frValue_getLsbD p b free (by omega)]
  simp only [hin, hout, n1, n2, n3, n4, n5, BitVec.getLsbD_ofNat]
  simp [hi]

/-- A fill level within the depth is the field's value (00:R5: the field is wide enough). -/
theorem txflrOf_frValue {p : Params} (h : p.Valid) (b : Bsc) (free : Word) (hl : b.txq.length ≤ p.txDepth) :
    txflrOf p (frValue p b free) = b.txq.length := by
  rw [txflrOf, txflr_frValue h, BitVec.toNat_ofNat]
  exact Nat.mod_eq_of_lt (Nat.lt_of_le_of_lt hl h.txLevel)

theorem rxflrOf_frValue {p : Params} (h : p.Valid) (b : Bsc) (free : Word) (hl : b.rxq.length ≤ p.rxDepth) :
    ((frValue p b free).extractLsb' p.frRxflrLo p.frRxflrW).toNat = b.rxq.length := by
  rw [rxflr_frValue h, BitVec.toNat_ofNat]
  exact Nat.mod_eq_of_lt (Nat.lt_of_le_of_lt hl h.rxLevel)

/-! ### RSR and DR -/

theorem oeOf_rsrValue (b : Bsc) (free : Word) : oeOf (rsrValue b free) = b.oe := by
  simp only [oeOf, rsrValue, flagAt, bit, Config.rsrOe, Config.rsrUe]
  cases b.oe <;> cases b.ue <;> simp

theorem ueOf_rsrValue (b : Bsc) (free : Word) : ueOf (rsrValue b free) = b.ue := by
  simp only [ueOf, rsrValue, flagAt, bit, Config.rsrOe, Config.rsrUe]
  cases b.oe <;> cases b.ue <;> simp

theorem dataOf_drValue (b : Byte) (free : Word) : dataOf (drValue b free) = b := by
  ext i hi
  simp only [dataOf, drValue]
  interval_cases i <;> simp

theorem dataOf_zext32 (b : Byte) : dataOf (zext32 b) = b := by
  simp [dataOf, zext32]

/-- 30:R104: the clear word of `CLR_OE` clears `OE` and leaves `UE`. -/
theorem rsrWritten_clearOe (b : Bsc) : rsrWritten b clearOeWord = { b with oe := false } := by
  simp [rsrWritten, clearOeWord, bit, Config.rsrOe, Config.rsrUe]

/-- 30:R104: the clear word of `CLR_UE` clears `UE` and leaves `OE`. -/
theorem rsrWritten_clearUe (b : Bsc) : rsrWritten b clearUeWord = { b with ue := false } := by
  simp [rsrWritten, clearUeWord, bit, Config.rsrOe, Config.rsrUe]

/-! ### CR -/

/-- The places of CR's fields differ and lie in a word (00:R5). -/
theorem crBits_apart {p : Params} (h : p.Valid) :
    p.crTxe < 32 ∧ p.crBrk < 32 ∧ p.crTxe ≠ Config.crEn ∧ p.crTxe ≠ p.crRxe ∧ p.crTxe ≠ p.crI2c ∧ p.crTxe ≠ p.crBrk := by
  have hn := h.crBits
  have hf := h.crBitFits
  simp [Params.crBits] at hn hf
  refine ⟨hf.2.1, hf.2.2.2.2, ?_, hn.2.1.1, hn.2.1.2.1, hn.2.1.2.2⟩
  exact fun he => hn.1.1 he.symm

theorem toggleOffWord_getLsbD (p : Params) (c : Word) {i : Nat} (hi : i < 32) :
    (toggleOffWord p c).getLsbD i = (c.getLsbD i && !decide (i = p.crTxe)) := by
  simp only [toggleOffWord, BitVec.getLsbD_and, BitVec.getLsbD_not, getLsbD_bit, hi, decide_true, Bool.true_and]

theorem toggleOnWord_getLsbD (p : Params) (c : Word) {i : Nat} (hi : i < 32) :
    (toggleOnWord p c).getLsbD i = (c.getLsbD i || decide (i = p.crTxe)) := by
  simp only [toggleOnWord, BitVec.getLsbD_or, getLsbD_bit, hi, decide_true, Bool.true_and]

theorem txeOf_toggleOff {p : Params} (h : p.Valid) (c : Word) : txeOf p (toggleOffWord p c) = false := by
  simp [txeOf, toggleOffWord_getLsbD p c (crBits_apart h).1]

theorem txeOf_toggleOn {p : Params} (h : p.Valid) (c : Word) : txeOf p (toggleOnWord p c) = true := by
  simp [txeOf, toggleOnWord_getLsbD p c (crBits_apart h).1]

theorem brkOf_toggleOff {p : Params} (h : p.Valid) (c : Word) : brkOf p (toggleOffWord p c) = brkOf p c := by
  obtain ⟨-, h2, -, -, -, h6⟩ := crBits_apart h
  simp [brkOf, toggleOffWord_getLsbD p c h2, h6.symm]

theorem brkOf_toggleOn {p : Params} (h : p.Valid) (c : Word) : brkOf p (toggleOnWord p c) = brkOf p c := by
  obtain ⟨-, h2, -, -, -, h6⟩ := crBits_apart h
  simp [brkOf, toggleOnWord_getLsbD p c h2, h6.symm]

/-- 30:R105: every bit of CR but TXE is written back as read. -/
theorem toggleOn_toggleOff (p : Params) (c : Word) : toggleOnWord p (toggleOffWord p c) = toggleOnWord p c := by
  apply BitVec.eq_of_getLsbD_eq
  intro i hi
  simp only [toggleOnWord_getLsbD _ _ hi, toggleOffWord_getLsbD _ _ hi]
  by_cases h : i = p.crTxe <;> simp [h]

/-- None of the bits 20:R68(e) speaks of is TXE. -/
theorem setupFixed_txe {p : Params} (h : p.Valid) : (setupFixedWord p).getLsbD p.crTxe = false := by
  obtain ⟨-, -, h3, h4, h5, -⟩ := crBits_apart h
  simp [setupFixedWord, getLsbD_bit, h3, h4, h5]

theorem setupFixed_toggleOff {p : Params} (h : p.Valid) (c : Word) :
    (c ^^^ toggleOffWord p c) &&& setupFixedWord p = 0#32 := by
  apply BitVec.eq_of_getLsbD_eq
  intro i hi
  by_cases hk : i = p.crTxe
  · simp [hk, setupFixed_txe h]
  · simp [toggleOffWord_getLsbD p c hi, hk]

theorem setupFixed_toggleOn {p : Params} (h : p.Valid) (c : Word) :
    (c ^^^ toggleOnWord p c) &&& setupFixedWord p = 0#32 := by
  apply BitVec.eq_of_getLsbD_eq
  intro i hi
  by_cases hk : i = p.crTxe
  · simp [hk, setupFixed_txe h]
  · simp [toggleOnWord_getLsbD p c hi, hk]

/-- A set TXE bit is what `OR bit(CR_TXE)` writes. -/
theorem toggleOn_of_txe (p : Params) (c : Word) (h : txeOf p c = true) : toggleOnWord p c = c := by
  apply BitVec.eq_of_getLsbD_eq
  intro i hi
  rw [toggleOnWord_getLsbD p c hi]
  by_cases hk : i = p.crTxe
  · subst hk
    simpa [txeOf] using h
  · simp [hk]

end Sys2Proof.Machine
end

