-- ==== Sys2Proof/Laws/Memory.lean ====
section
/-! SUPPORT. The laws of the caller's buffer: read after write, and the canonical form kept by every operation. -/

namespace Sys2Proof.Machine

@[simp] theorem Memory.read_nil (a : Nat) : Memory.read [] a = none := rfl

theorem Memory.read_write_same (m : List Host.Cell) (a : Nat) (b : Byte) :
    Memory.read (Memory.write m a b) a = some b := by
  induction m with
  | nil => simp [Memory.write, Memory.read]
  | cons c rest ih =>
    obtain ⟨k, v⟩ := c
    by_cases h1 : a < k
    · simp [Memory.write, Memory.read, h1]
    · by_cases h2 : a = k
      · simp [Memory.write, Memory.read, h2]
      · have h3 : ¬ k = a := fun h => h2 h.symm
        simp [Memory.write, Memory.read, h1, h2, h3, ih]

theorem Memory.read_write_other (m : List Host.Cell) {a a' : Nat} (b : Byte) (hne : a' ≠ a) :
    Memory.read (Memory.write m a b) a' = Memory.read m a' := by
  have hne' : ¬ a = a' := fun h => hne h.symm
  induction m with
  | nil => simp [Memory.write, Memory.read, hne']
  | cons c rest ih =>
    obtain ⟨k, v⟩ := c
    by_cases h1 : a < k
    · simp [Memory.write, Memory.read, h1, hne']
    · by_cases h2 : a = k
      · subst h2
        simp [Memory.write, Memory.read, hne']
      · simp [Memory.write, Memory.read, h1, h2, ih]

theorem Memory.write_keys (m : List Host.Cell) (a : Nat) (b : Byte) (x : Nat)
    (hx : x ∈ (Memory.write m a b).map Prod.fst) : x = a ∨ x ∈ m.map Prod.fst := by
  induction m with
  | nil => simpa [Memory.write] using hx
  | cons c rest ih =>
    obtain ⟨k, v⟩ := c
    by_cases h1 : a < k
    · simpa [Memory.write, h1] using hx
    · by_cases h2 : a = k
      · subst h2
        simp only [Memory.write, Nat.lt_irrefl, if_false, if_true, List.map_cons, List.mem_cons] at hx
        rcases hx with hx | hx
        · exact .inl hx
        · exact .inr (by simp [hx])
      · simp only [Memory.write, h1, h2, if_false, List.map_cons, List.mem_cons] at hx
        rcases hx with hx | hx
        · exact .inr (by simp [hx])
        · rcases ih hx with h | h
          · exact .inl h
          · exact .inr (by simp only [List.map_cons, List.mem_cons]; exact .inr h)

theorem Memory.write_wf (m : List Host.Cell) (a : Nat) (b : Byte) (h : Memory.wf m) :
    Memory.wf (Memory.write m a b) := by
  induction m with
  | nil => simp [Memory.write, Memory.wf]
  | cons c rest ih =>
    obtain ⟨k, v⟩ := c
    simp only [Memory.wf, List.map_cons, List.pairwise_cons] at h
    by_cases h1 : a < k
    · simp only [Memory.write, h1, if_true, Memory.wf, List.map_cons, List.pairwise_cons]
      refine ⟨?_, h.1, h.2⟩
      intro x hx
      rcases List.mem_cons.mp hx with rfl | hx
      · exact h1
      · exact Nat.lt_trans h1 (h.1 x hx)
    · by_cases h2 : a = k
      · subst h2
        simp only [Memory.write, Nat.lt_irrefl, if_false, if_true, Memory.wf, List.map_cons, List.pairwise_cons]
        exact ⟨h.1, h.2⟩
      · simp only [Memory.write, h1, h2, if_false, Memory.wf, List.map_cons, List.pairwise_cons]
        refine ⟨?_, ih h.2⟩
        intro x hx
        rcases Memory.write_keys rest a b x hx with rfl | hx
        · omega
        · exact h.1 x hx

theorem Memory.ofCells_wf (cap : Nat) (cells : List Host.Cell) : Memory.wf (Memory.ofCells cap cells) := by
  have gen : ∀ (cells m : List Host.Cell), Memory.wf m →
      Memory.wf (cells.foldl (fun m c => if c.1 < cap then Memory.write m c.1 c.2 else m) m) := by
    intro cells
    induction cells with
    | nil => intro m h; exact h
    | cons c rest ih =>
      intro m h
      simp only [List.foldl_cons]
      apply ih
      split
      · exact Memory.write_wf m _ _ h
      · exact h
  exact gen cells [] (by simp [Memory.wf])

theorem Memory.reset_wf : Memory.wf State.reset.host.buf := by decide

end Sys2Proof.Machine
end

