-- ==== Sys2Proof/Laws/State.lean ====
section
/-! SUPPORT. One lemma per field per update of the state, true by rfl. -/

namespace Sys2Proof.Machine

@[simp] theorem goto_par (l : Label) (s : State) :
    (goto l s).par = s.par := rfl
@[simp] theorem goto_pc (l : Label) (s : State) :
    (goto l s).pc = l := rfl
@[simp] theorem goto_half (l : Label) (s : State) :
    (goto l s).half = s.half := rfl
@[simp] theorem goto_eng (l : Label) (s : State) :
    (goto l s).eng = s.eng := rfl
@[simp] theorem goto_bsc (l : Label) (s : State) :
    (goto l s).bsc = s.bsc := rfl
@[simp] theorem goto_host (l : Label) (s : State) :
    (goto l s).host = s.host := rfl
@[simp] theorem goto_log (l : Label) (s : State) :
    (goto l s).log = s.log := rfl
@[simp] theorem goto_env (l : Label) (s : State) :
    (goto l s).env = s.env := rfl
@[simp] theorem goto_obs (l : Label) (s : State) :
    (goto l s).obs = s.obs := rfl

@[simp] theorem usedDraws_par (k : Nat) (s : State) :
    (usedDraws k s).par = s.par := rfl
@[simp] theorem usedDraws_pc (k : Nat) (s : State) :
    (usedDraws k s).pc = s.pc := rfl
@[simp] theorem usedDraws_half (k : Nat) (s : State) :
    (usedDraws k s).half = s.half := rfl
@[simp] theorem usedDraws_eng (k : Nat) (s : State) :
    (usedDraws k s).eng = s.eng := rfl
@[simp] theorem usedDraws_bsc (k : Nat) (s : State) :
    (usedDraws k s).bsc = s.bsc := rfl
@[simp] theorem usedDraws_host (k : Nat) (s : State) :
    (usedDraws k s).host = s.host := rfl
@[simp] theorem usedDraws_log (k : Nat) (s : State) :
    (usedDraws k s).log = s.log := rfl
@[simp] theorem usedDraws_env (k : Nat) (s : State) :
    (usedDraws k s).env = { s.env with draws := s.env.draws + k } := rfl
@[simp] theorem usedDraws_obs (k : Nat) (s : State) :
    (usedDraws k s).obs = s.obs := rfl

@[simp] theorem issueRequest_par (w : Request) (s : State) :
    (issueRequest w s).par = s.par := rfl
@[simp] theorem issueRequest_pc (w : Request) (s : State) :
    (issueRequest w s).pc = s.pc := rfl
@[simp] theorem issueRequest_half (w : Request) (s : State) :
    (issueRequest w s).half = s.half := rfl
@[simp] theorem issueRequest_eng (w : Request) (s : State) :
    (issueRequest w s).eng = s.eng := rfl
@[simp] theorem issueRequest_bsc (w : Request) (s : State) :
    (issueRequest w s).bsc = s.bsc := rfl
@[simp] theorem issueRequest_host (w : Request) (s : State) :
    (issueRequest w s).host = s.host := rfl
@[simp] theorem issueRequest_log (w : Request) (s : State) :
    (issueRequest w s).log = s.log := rfl
@[simp] theorem issueRequest_env (w : Request) (s : State) :
    (issueRequest w s).env = s.env := rfl
@[simp] theorem issueRequest_obs (w : Request) (s : State) :
    (issueRequest w s).obs = { s.obs with requests := s.obs.requests ++ [w] } := rfl

@[simp] theorem raiseEvent_par (x : Event) (s : State) :
    (raiseEvent x s).par = s.par := rfl
@[simp] theorem raiseEvent_pc (x : Event) (s : State) :
    (raiseEvent x s).pc = s.pc := rfl
@[simp] theorem raiseEvent_half (x : Event) (s : State) :
    (raiseEvent x s).half = s.half := rfl
@[simp] theorem raiseEvent_eng (x : Event) (s : State) :
    (raiseEvent x s).eng = s.eng := rfl
@[simp] theorem raiseEvent_bsc (x : Event) (s : State) :
    (raiseEvent x s).bsc = s.bsc := rfl
@[simp] theorem raiseEvent_host (x : Event) (s : State) :
    (raiseEvent x s).host = s.host := rfl
@[simp] theorem raiseEvent_log (x : Event) (s : State) :
    (raiseEvent x s).log = s.log ++ [(eventCode x, x)] := rfl
@[simp] theorem raiseEvent_env (x : Event) (s : State) :
    (raiseEvent x s).env = s.env := rfl
@[simp] theorem raiseEvent_obs (x : Event) (s : State) :
    (raiseEvent x s).obs = s.obs := rfl

@[simp] theorem withScript_par (ts : List Turn) (s : State) :
    (withScript ts s).par = s.par := rfl
@[simp] theorem withScript_pc (ts : List Turn) (s : State) :
    (withScript ts s).pc = s.pc := rfl
@[simp] theorem withScript_half (ts : List Turn) (s : State) :
    (withScript ts s).half = s.half := rfl
@[simp] theorem withScript_eng (ts : List Turn) (s : State) :
    (withScript ts s).eng = s.eng := rfl
@[simp] theorem withScript_bsc (ts : List Turn) (s : State) :
    (withScript ts s).bsc = s.bsc := rfl
@[simp] theorem withScript_host (ts : List Turn) (s : State) :
    (withScript ts s).host = s.host := rfl
@[simp] theorem withScript_log (ts : List Turn) (s : State) :
    (withScript ts s).log = s.log := rfl
@[simp] theorem withScript_env (ts : List Turn) (s : State) :
    (withScript ts s).env = { s.env with script := ts } := rfl
@[simp] theorem withScript_obs (ts : List Turn) (s : State) :
    (withScript ts s).obs = s.obs := rfl

@[simp] theorem takeCommand_par (s : State) :
    (takeCommand s).par = s.par := rfl
@[simp] theorem takeCommand_pc (s : State) :
    (takeCommand s).pc = s.pc := rfl
@[simp] theorem takeCommand_half (s : State) :
    (takeCommand s).half = s.half := rfl
@[simp] theorem takeCommand_eng (s : State) :
    (takeCommand s).eng = s.eng := rfl
@[simp] theorem takeCommand_bsc (s : State) :
    (takeCommand s).bsc = s.bsc := rfl
@[simp] theorem takeCommand_host (s : State) :
    (takeCommand s).host = { s.host with cmd := none } := rfl
@[simp] theorem takeCommand_log (s : State) :
    (takeCommand s).log = s.log := rfl
@[simp] theorem takeCommand_env (s : State) :
    (takeCommand s).env = s.env := rfl
@[simp] theorem takeCommand_obs (s : State) :
    (takeCommand s).obs = s.obs := rfl

@[simp] theorem masterReceives_par (b : Byte) (s : State) :
    (masterReceives b s).par = s.par := rfl
@[simp] theorem masterReceives_pc (b : Byte) (s : State) :
    (masterReceives b s).pc = s.pc := rfl
@[simp] theorem masterReceives_half (b : Byte) (s : State) :
    (masterReceives b s).half = s.half := rfl
@[simp] theorem masterReceives_eng (b : Byte) (s : State) :
    (masterReceives b s).eng = s.eng := rfl
@[simp] theorem masterReceives_bsc (b : Byte) (s : State) :
    (masterReceives b s).bsc = s.bsc := rfl
@[simp] theorem masterReceives_host (b : Byte) (s : State) :
    (masterReceives b s).host = s.host := rfl
@[simp] theorem masterReceives_log (b : Byte) (s : State) :
    (masterReceives b s).log = s.log := rfl
@[simp] theorem masterReceives_env (b : Byte) (s : State) :
    (masterReceives b s).env = s.env := rfl
@[simp] theorem masterReceives_obs (b : Byte) (s : State) :
    (masterReceives b s).obs = { s.obs with masterGot := s.obs.masterGot ++ [b] } := rfl

@[simp] theorem busTo_par (p : BusPhase) (s : State) :
    (busTo p s).par = s.par := rfl
@[simp] theorem busTo_pc (p : BusPhase) (s : State) :
    (busTo p s).pc = s.pc := rfl
@[simp] theorem busTo_half (p : BusPhase) (s : State) :
    (busTo p s).half = s.half := rfl
@[simp] theorem busTo_eng (p : BusPhase) (s : State) :
    (busTo p s).eng = s.eng := rfl
@[simp] theorem busTo_bsc (p : BusPhase) (s : State) :
    (busTo p s).bsc = { s.bsc with bus := p } := rfl
@[simp] theorem busTo_host (p : BusPhase) (s : State) :
    (busTo p s).host = s.host := rfl
@[simp] theorem busTo_log (p : BusPhase) (s : State) :
    (busTo p s).log = s.log := rfl
@[simp] theorem busTo_env (p : BusPhase) (s : State) :
    (busTo p s).env = s.env := rfl
@[simp] theorem busTo_obs (p : BusPhase) (s : State) :
    (busTo p s).obs = s.obs := rfl

end Sys2Proof.Machine
end

