-- ==== Sys2Proof/Laws/Ops.lean ====
section
/-! SUPPORT. For each shared operation, what it can do, said once. -/

namespace Sys2Proof.Machine

@[simp] theorem andThen_next (s : State) (f : State → Result) : andThen (.next s) f = f s := rfl
@[simp] theorem andThen_fault (e : Fault) (f : State → Result) : andThen (.fault e) f = .fault e := rfl
@[simp] theorem andThen_refused (e : Refusal) (f : State → Result) : andThen (.refused e) f = .refused e := rfl

/-- A chain answers a next state only through the first part's next state. -/
theorem andThen_eq_next {o : Result} {f : State → Result} {t : State} (h : andThen o f = .next t) :
    ∃ m, o = .next m ∧ f m = .next t := by
  cases o with
  | next m => exact ⟨m, rfl, h⟩
  | fault e => cases h
  | refused e => cases h

/-! ### The send latch -/

@[simp] theorem loadLatch_rxq (p : Params) (b : Bsc) : (loadLatch p b).rxq = b.rxq := by
  unfold loadLatch
  split <;> [split; skip] <;> rfl

@[simp] theorem loadLatch_oe (p : Params) (b : Bsc) : (loadLatch p b).oe = b.oe := by
  unfold loadLatch
  split <;> [split; skip] <;> rfl

@[simp] theorem loadLatch_ue (p : Params) (b : Bsc) : (loadLatch p b).ue = b.ue := by
  unfold loadLatch
  split <;> [split; skip] <;> rfl

@[simp] theorem loadLatch_cr (p : Params) (b : Bsc) : (loadLatch p b).cr = b.cr := by
  unfold loadLatch
  split <;> [split; skip] <;> rfl

@[simp] theorem loadLatch_bus (p : Params) (b : Bsc) : (loadLatch p b).bus = b.bus := by
  unfold loadLatch
  split <;> [split; skip] <;> rfl

/-- The load moves a byte from the queue's head to the latch: latch and queue together hold the same bytes. -/
theorem loadLatch_bytes (p : Params) (b : Bsc) : (loadLatch p b).txl.toList ++ (loadLatch p b).txq = b.txl.toList ++ b.txq := by
  unfold loadLatch
  split
  · split
    · rename_i hl hq
      simp [hl, hq]
    · rfl
  · rfl

theorem loadLatch_txq_length (p : Params) (b : Bsc) : (loadLatch p b).txq.length ≤ b.txq.length := by
  unfold loadLatch
  split
  · split
    · rename_i hq
      simp [hq]
    · exact Nat.le_refl _
  · exact Nat.le_refl _

/-- With TXE = 1 and the latch empty, the load takes the head of the queue, if there is one (45:R221). -/
theorem loadLatch_empty (p : Params) (b : Bsc) (ht : txeOf p b.cr = true) (hl : b.txl = none) :
    loadLatch p b = { b with txl := b.txq.head?, txq := b.txq.tail } := by
  obtain ⟨rxq, txq, txl, oe, ue, cr, bus⟩ := b
  subst hl
  have ht' : txeOf p cr = true := ht
  cases txq <;> simp [loadLatch, ht']

/-- With a byte in the latch nothing is loaded. -/
theorem loadLatch_full (p : Params) (b : Bsc) (x : Byte) (hl : b.txl = some x) : loadLatch p b = b := by
  unfold loadLatch
  split
  · split
    · rename_i h _
      rw [hl] at h
      cases h
    · rfl
  · rfl

/-- 10:R47 holds after a load whenever the queues are within their depths. -/
theorem loadLatch_inv (p : Params) (b : Bsc) (h1 : b.rxq.length ≤ p.rxDepth) (h2 : b.txq.length ≤ p.txDepth) :
    (loadLatch p b).Inv p := by
  refine ⟨by simpa using h1, Nat.le_trans (loadLatch_txq_length p b) h2, ?_⟩
  intro ht hl
  have ht' : txeOf p b.cr = true := by simpa using ht
  cases h : b.txl with
  | some x =>
    rw [loadLatch_full p b x h] at hl
    rw [h] at hl
    cases hl
  | none =>
    rw [loadLatch_empty p b ht' h] at hl ⊢
    cases hq : b.txq with
    | nil => rfl
    | cons x rest => simp [hq] at hl

/-! ### Register reads -/

theorem regRead_unmapped (r : Reg) (s : State) (h : s.host.ready = false) :
    regRead r s = .error .unmappedAccess := by
  simp [regRead, h]

theorem regRead_fr (s : State) (h : s.host.ready = true) :
    regRead .fr s = .ok (frValue s.par s.bsc (drawWord s), usedDraws 1 (issueRequest (readRequest s.par .fr) s)) := by
  simp [regRead, h, readRequest]

theorem regRead_rsr (s : State) (h : s.host.ready = true) :
    regRead .rsr s = .ok (rsrValue s.bsc (drawWord s), usedDraws 1 (issueRequest (readRequest s.par .rsr) s)) := by
  simp [regRead, h, readRequest]

theorem regRead_cr (s : State) (h : s.host.ready = true) :
    regRead .cr s = .ok (s.bsc.cr, issueRequest (readRequest s.par .cr) s) := by
  simp [regRead, h, readRequest]

theorem regRead_dr_empty (s : State) (h : s.host.ready = true) (hq : s.bsc.rxq = []) :
    regRead .dr s = .error .bscRxEmptyRead := by
  simp [regRead, h, hq]

theorem regRead_dr (s : State) (h : s.host.ready = true) {b : Byte} {rest : List Byte} (hq : s.bsc.rxq = b :: rest) :
    regRead .dr s = .ok (drValue b (drawWord s),
      usedDraws 1 (issueRequest (readRequest s.par .dr) { s with bsc := { s.bsc with rxq := rest } })) := by
  simp [regRead, h, hq, readRequest, issueRequest]

/-- Everything a register read can do when it answers: one request, at most one free value, and of the BSC only the
receive FIFO, by one pop of DR. -/
theorem regRead_ok {r : Reg} {s t : State} {v : Word} (h : regRead r s = .ok (v, t)) :
    s.host.ready = true ∧ t.par = s.par ∧ t.pc = s.pc ∧ t.half = s.half ∧ t.eng = s.eng ∧ t.host = s.host ∧ t.log = s.log ∧
    t.env = { s.env with draws := t.env.draws } ∧
    t.obs = { s.obs with requests := s.obs.requests ++ [readRequest s.par r] } ∧
    ((r ≠ .dr ∧ t.bsc = s.bsc) ∨
      (r = .dr ∧ s.bsc.rxq = dataOf v :: t.bsc.rxq ∧ t.bsc = { s.bsc with rxq := t.bsc.rxq })) := by
  cases hr : s.host.ready with
  | false =>
    rw [regRead_unmapped r s hr] at h
    cases h
  | true =>
    cases r with
    | fr =>
      rw [regRead_fr s hr] at h
      cases h
      simp
    | rsr =>
      rw [regRead_rsr s hr] at h
      cases h
      simp
    | cr =>
      rw [regRead_cr s hr] at h
      cases h
      simp
    | dr =>
      cases hq : s.bsc.rxq with
      | nil =>
        rw [regRead_dr_empty s hr hq] at h
        cases h
      | cons b rest =>
        rw [regRead_dr s hr hq] at h
        cases h
        simp [dataOf_drValue]

/-! ### Register writes -/

theorem regWrite_unmapped (r : Reg) (v : Word) (s : State) (h : s.host.ready = false) :
    regWrite r v s = .fault .unmappedAccess := by
  simp [regWrite, h]

theorem regWrite_rsr (v : Word) (s : State) (h : s.host.ready = true) :
    regWrite .rsr v s = .next (issueRequest (writeRequest s.par .rsr v) { s with bsc := rsrWritten s.bsc v }) := by
  simp [regWrite, h, writeRequest, issueRequest]

theorem regWrite_dr (v : Word) (s : State) (h : s.host.ready = true) (hl : s.bsc.txq.length < s.par.txDepth) :
    regWrite .dr v s = .next (issueRequest (writeRequest s.par .dr v)
      { s with bsc := loadLatch s.par { s.bsc with txq := s.bsc.txq ++ [dataOf v] } }) := by
  simp [regWrite, h, writeDr, hl, writeRequest, issueRequest]

theorem regWrite_dr_full (v : Word) (s : State) (h : s.host.ready = true) (hl : ¬ s.bsc.txq.length < s.par.txDepth) :
    regWrite .dr v s = .fault .bscTxFullWrite := by
  simp [regWrite, h, writeDr, hl, issueRequest]

@[simp] theorem txeEdge_cr (p : Params) (old : Word) (b : Bsc) : (txeEdge p old b).cr = b.cr := by
  unfold txeEdge
  split <;> [rfl; split] <;> simp

@[simp] theorem txeEdge_oe (p : Params) (old : Word) (b : Bsc) : (txeEdge p old b).oe = b.oe := by
  unfold txeEdge
  split <;> [rfl; split] <;> simp

@[simp] theorem txeEdge_ue (p : Params) (old : Word) (b : Bsc) : (txeEdge p old b).ue = b.ue := by
  unfold txeEdge
  split <;> [rfl; split] <;> simp

@[simp] theorem txeEdge_bus (p : Params) (old : Word) (b : Bsc) : (txeEdge p old b).bus = b.bus := by
  unfold txeEdge
  split <;> [rfl; split] <;> simp

@[simp] theorem txeEdge_rxq (p : Params) (old : Word) (b : Bsc) : (txeEdge p old b).rxq = b.rxq := by
  unfold txeEdge
  split <;> [rfl; split] <;> simp

/-- An edge of TXE keeps 10:R47. -/
theorem txeEdge_inv (p : Params) (old : Word) {b : Bsc} (h : b.Inv p) : (txeEdge p old b).Inv p := by
  unfold txeEdge
  split
  · rename_i hx
    have hf : txeOf p b.cr = false := by
      simp only [Bool.and_eq_true, Bool.not_eq_true'] at hx
      exact hx.2
    exact ⟨h.rx, h.tx, fun ht => by simp [hf] at ht⟩
  · split
    · exact loadLatch_inv p b h.rx h.tx
    · exact h

/-- The free effect of BRK keeps everything but the two queues, the latch and the count of free values, and meets 10:R47
when it acts. -/
theorem breakEffect_frame (s : State) :
    (breakEffect s).par = s.par ∧ (breakEffect s).pc = s.pc ∧ (breakEffect s).half = s.half ∧ (breakEffect s).eng = s.eng ∧
    (breakEffect s).host = s.host ∧ (breakEffect s).log = s.log ∧ (breakEffect s).obs = s.obs ∧
    (breakEffect s).env = { s.env with draws := (breakEffect s).env.draws } ∧
    (breakEffect s).bsc.cr = s.bsc.cr ∧ (breakEffect s).bsc.oe = s.bsc.oe ∧ (breakEffect s).bsc.ue = s.bsc.ue ∧
    (breakEffect s).bsc.bus = s.bsc.bus ∧
    (brkOf s.par s.bsc.cr = true → (breakEffect s).bsc.Inv s.par) ∧ (brkOf s.par s.bsc.cr = false → breakEffect s = s) := by
  by_cases hb : brkOf s.par s.bsc.cr = true
  · simp only [breakEffect, hb, if_true]
    simp only [usedDraws_par, usedDraws_pc, usedDraws_half, usedDraws_eng, usedDraws_host, usedDraws_log, usedDraws_obs,
      usedDraws_env, usedDraws_bsc, loadLatch_cr, loadLatch_oe, loadLatch_ue, loadLatch_bus, true_and]
    refine ⟨fun _ => loadLatch_inv _ _ ?_ ?_, fun h => by cases h⟩
    · simp
    · simp
  · simp [breakEffect, hb]

/-- Everything a write of CR can do when it answers (20:R68). -/
theorem writeCr_next {v : Word} {s t : State} (h : writeCr v s = .next t) :
    (s.bsc.cr ^^^ v) &&& setupFixedWord s.par = 0#32 ∧
    t.par = s.par ∧ t.pc = s.pc ∧ t.half = s.half ∧ t.eng = s.eng ∧ t.host = s.host ∧ t.log = s.log ∧ t.obs = s.obs ∧
    t.env = { s.env with draws := t.env.draws } ∧
    t.bsc.cr = v ∧ t.bsc.oe = s.bsc.oe ∧ t.bsc.ue = s.bsc.ue ∧ t.bsc.bus = s.bsc.bus ∧
    (brkOf s.par v = true → t.bsc.Inv s.par) ∧
    (brkOf s.par v = false → t.bsc = txeEdge s.par s.bsc.cr { s.bsc with cr := v }) := by
  unfold writeCr at h
  split at h
  · rename_i hx
    obtain ⟨a0, a1, a2, a3, a4, a5, a6, a7, a8, a9, a10, a11, a12, a13⟩ :=
      breakEffect_frame { s with bsc := { s.bsc with cr := v } }
    cases h
    refine ⟨hx, a0, a1, a2, a3, a4, a5, a6, a7, ?_, ?_, ?_, ?_, ?_, ?_⟩
    · simpa using a8
    · simpa using a9
    · simpa using a10
    · simpa using a11
    · exact fun hb => txeEdge_inv _ _ (a12 hb)
    · intro hb
      rw [a13 hb]
  · cases h

/-- A write of CR that changes none of EN, RXE, I2C answers. -/
theorem writeCr_completes (v : Word) (s : State) (h : (s.bsc.cr ^^^ v) &&& setupFixedWord s.par = 0#32) :
    ∃ t, writeCr v s = .next t := by
  simp [writeCr, h]

theorem regWrite_cr (v : Word) (s : State) (h : s.host.ready = true) :
    regWrite .cr v s = writeCr v (issueRequest (writeRequest s.par .cr v) s) := by
  simp [regWrite, h, writeRequest]

/-! ### Return -/

/-- `Return` of a value that fits the response word. -/
theorem returnWith_fits (k : ReturnKind) (v : Nat) (s : State) (h : v < 2 ^ 31) :
    returnWith k v s = .next { s with
      pc := .idle, obs := { s.obs with responses := s.obs.responses ++ [responseWord k v] } } := by
  have h' : v < 2 ^ Config.countW := h
  simp [returnWith, h', goto]

theorem returnWith_wide (k : ReturnKind) (v : Nat) (s : State) (h : 2 ^ 31 ≤ v) :
    returnWith k v s = .refused .countTooWide := by
  have h' : ¬ v < 2 ^ Config.countW := Nat.not_lt.mpr h
  simp [returnWith, h']

/-- 30:R95: a DONE response is its value. -/
theorem responseWord_done (v : Nat) (h : v < 2 ^ 31) : responseWord .done v = BitVec.ofNat 32 v := by
  apply BitVec.eq_of_toNat_eq
  simp [responseWord]
  omega

theorem responseWord_aborted : responseWord .aborted 0 = 0x80000000#32 := by decide

end Sys2Proof.Machine
end

