-- ==== Sys2Proof/Laws/PerInstr.lean ====
section
/-! SUPPORT. The family `EncodesRow`, one lemma per constructor: the word of a well-formed instruction is selected by its
own row of the opcode maps 30:R93 and R97 and by no other row of its map. -/

namespace Sys2Proof.Laws.EncodesRow

/-- The mnemonics of the rows that select a word, in the order of its map. -/
def selecting (p : Params) : Encoded → List String
  | .command cw => (commandRows.filter fun r => r.selects cw).map (·.mnemonic)
  | .request bw => ((busRows p).filter fun r => r.selects bw).map (·.mnemonic)

/-- The row an instruction belongs to, by its mnemonic. -/
def mnemonic : Instr → String
  | .sense => "SENSE"
  | .rxpoll _ _ => "RXPOLL"
  | .txstream _ => "TXSTREAM"
  | .rdDr => "RD_DR"
  | .rdRsr => "RD_RSR"
  | .rdCr => "RD_CR"
  | .rdFr => "RD_FR"
  | .wrDr _ => "WR_DR"
  | .clrOe => "CLR_OE"
  | .clrUe => "CLR_UE"
  | .txeOff _ => "TXE_OFF"
  | .txeOn _ => "TXE_ON"

/-- Whatever the parameters, the word of `i` is selected by the row of `i` and by no other. -/
def Statement (i : Instr) : Prop :=
  ∀ p : Params, p.Valid → i.wellFormed p = true → selecting p (encode p i) = [mnemonic i]

/-- The rows of 30:R97 that select a request word, by its fields. -/
theorem selecting_request {p : Params} (h : p.Valid) (we : Bool) (idx : Nat) (d : Word) (hi : idx < 8) :
    selecting p (.request (requestWord we idx d)) =
    (if we = false ∧ idx = p.idxDr then ["RD_DR"] else []) ++
    (if we = false ∧ idx = p.idxRsr then ["RD_RSR"] else []) ++
    (if we = false ∧ idx = p.idxCr then ["RD_CR"] else []) ++
    (if we = false ∧ idx = p.idxFr then ["RD_FR"] else []) ++
    (if we = true ∧ idx = p.idxDr ∧ d &&& 0xFFFFFF00#32 = 0#32 then ["WR_DR"] else []) ++
    (if we = true ∧ idx = p.idxRsr ∧ d = clearOeWord then ["CLR_OE"] else []) ++
    (if we = true ∧ idx = p.idxRsr ∧ d = clearUeWord then ["CLR_UE"] else []) ++
    (if we = true ∧ idx = p.idxCr ∧ d &&& bit p.crTxe = 0#32 then ["TXE_OFF"] else []) ++
    (if we = true ∧ idx = p.idxCr ∧ d &&& bit p.crTxe = bit p.crTxe then ["TXE_ON"] else []) := by
  obtain ⟨⟨h1, h2, h3, h4⟩, -⟩ := indices_apart h
  have all : (0xFFFFFFFF#32 : Word) = BitVec.allOnes 32 := by decide
  have key : ∀ {n : Nat} (r : Row n) (w : BitVec n) (p : Prop) [Decidable p], (r.selects w = true ↔ p) →
      ∀ rest : List (Row n), ((r :: rest).filter fun x => x.selects w).map (·.mnemonic) =
        (if p then [r.mnemonic] else []) ++ (rest.filter fun x => x.selects w).map (·.mnemonic) := by
    intro n r w p _ h rest
    by_cases hp : p
    · simp [hp, h.mpr hp]
    · have : r.selects w = false := by simpa using fun hs => hp (h.mp hs)
      simp [hp, this]
  have rd : ∀ (mn : String) (i : Nat), i < 8 → ((busRow mn false i 0#32 0#32).selects (requestWord we idx d) = true ↔
      we = false ∧ idx = i) := by
    intro mn i h
    simp [busRow_selects, Nat.mod_eq_of_lt h, Nat.mod_eq_of_lt hi]
  have wr : ∀ (mn : String) (i : Nat) (m v : Word), i < 8 →
      ((busRow mn true i m v).selects (requestWord we idx d) = true ↔ we = true ∧ idx = i ∧ d &&& m = v) := by
    intro mn i m v h
    simp [busRow_selects, and_assoc, Nat.mod_eq_of_lt h, Nat.mod_eq_of_lt hi]
  have wr1 : ∀ (mn : String) (i : Nat) (v : Word), i < 8 →
      ((busRow mn true i 0xFFFFFFFF#32 v).selects (requestWord we idx d) = true ↔ we = true ∧ idx = i ∧ d = v) := by
    intro mn i v h
    rw [wr _ _ _ _ h, all, BitVec.and_allOnes]
  simp only [selecting, busRows]
  rw [key (rowRdDr p) _ _ (rd _ _ h1), key (rowRdRsr p) _ _ (rd _ _ h2), key (rowRdCr p) _ _ (rd _ _ h3),
    key (rowRdFr p) _ _ (rd _ _ h4), key (rowWrDr p) _ _ (wr _ _ _ _ h1), key (rowClrOe p) _ _ (wr1 _ _ _ h2),
    key (rowClrUe p) _ _ (wr1 _ _ _ h2), key (rowTxeOff p) _ _ (wr _ _ _ _ h3), key (rowTxeOn p) _ _ (wr _ _ _ _ h3)]
  simp [rowRdDr, rowRdRsr, rowRdCr, rowRdFr, rowWrDr, rowClrOe, rowClrUe, rowTxeOff, rowTxeOn, busRow]

/-- The rows of 30:R93 that select a command word with `Z` zero, by its fields. -/
theorem selecting_command (p : Params) (arg : BitVec 16) (bp : Bool) (op : BitVec 2) : selecting p (.command (commandWord arg bp op)) =
    (if op = 1#2 ∧ bp = false ∧ arg = 0#16 then ["SENSE"] else []) ++
    (if op = 2#2 then ["RXPOLL"] else []) ++
    (if op = 3#2 ∧ bp = false then ["TXSTREAM"] else []) := by
  have h1 : rowSense.selects (commandWord arg bp op) = decide (op = 1#2 ∧ bp = false ∧ arg = 0#16) := by
    rw [Bool.eq_iff_iff, rowSense_selects]
    simp [cmdZ_commandWord]
  have h2 : rowRxpoll.selects (commandWord arg bp op) = decide (op = 2#2) := by
    rw [Bool.eq_iff_iff, rowRxpoll_selects]
    simp [cmdZ_commandWord]
  have h3 : rowTxstream.selects (commandWord arg bp op) = decide (op = 3#2 ∧ bp = false) := by
    rw [Bool.eq_iff_iff, rowTxstream_selects]
    simp [cmdZ_commandWord]
  simp only [selecting, commandRows, List.filter, h1, h2, h3]
  by_cases a : op = 1#2 ∧ bp = false ∧ arg = 0#16 <;> by_cases b : op = 2#2 <;>
    by_cases c : op = 3#2 ∧ bp = false <;> simp [a, b, c, rowSense, rowRxpoll, rowTxstream]

theorem sense : Statement .sense := by
  intro p _ _
  simp [encode, selecting_command, mnemonic]

theorem rxpoll (bp : Bool) (arg : BitVec 16) : Statement (.rxpoll bp arg) := by
  intro p _ _
  simp [encode, selecting_command, mnemonic]

theorem txstream (addr : Addr) : Statement (.txstream addr) := by
  intro p _ _
  simp [encode, selecting_command, mnemonic]

theorem rdDr : Statement .rdDr := by
  intro p h _
  obtain ⟨⟨h1, h2, h3, h4⟩, a1, a2, a3, a4, a5, a6⟩ := indices_apart h
  simp [encode, selecting_request h _ _ _ h1, mnemonic, a1, a2, a3]

theorem rdRsr : Statement .rdRsr := by
  intro p h _
  obtain ⟨⟨h1, h2, h3, h4⟩, a1, a2, a3, a4, a5, a6⟩ := indices_apart h
  simp [encode, selecting_request h _ _ _ h2, mnemonic, a1.symm, a4, a5]

theorem rdCr : Statement .rdCr := by
  intro p h _
  obtain ⟨⟨h1, h2, h3, h4⟩, a1, a2, a3, a4, a5, a6⟩ := indices_apart h
  simp [encode, selecting_request h _ _ _ h3, mnemonic, a2.symm, a4.symm, a6]

theorem rdFr : Statement .rdFr := by
  intro p h _
  obtain ⟨⟨h1, h2, h3, h4⟩, a1, a2, a3, a4, a5, a6⟩ := indices_apart h
  simp [encode, selecting_request h _ _ _ h4, mnemonic, a3.symm, a5.symm, a6.symm]

theorem wrDr (b : Byte) : Statement (.wrDr b) := by
  intro p h _
  obtain ⟨⟨h1, h2, h3, h4⟩, a1, a2, a3, a4, a5, a6⟩ := indices_apart h
  simp [encode, selecting_request h _ _ _ h1, mnemonic, a1, a2, upper_of_byte]

theorem clrOe : Statement .clrOe := by
  intro p h _
  obtain ⟨⟨h1, h2, h3, h4⟩, a1, a2, a3, a4, a5, a6⟩ := indices_apart h
  have hne : clearOeWord ≠ clearUeWord := by decide
  simp [encode, selecting_request h _ _ _ h2, mnemonic, a1.symm, a4, hne]

theorem clrUe : Statement .clrUe := by
  intro p h _
  obtain ⟨⟨h1, h2, h3, h4⟩, a1, a2, a3, a4, a5, a6⟩ := indices_apart h
  have hne : clearUeWord ≠ clearOeWord := by decide
  simp [encode, selecting_request h _ _ _ h2, mnemonic, a1.symm, a4, hne]

theorem txeOff (wdata : Word) : Statement (.txeOff wdata) := by
  intro p h hw
  obtain ⟨⟨h1, h2, h3, h4⟩, a1, a2, a3, a4, a5, a6⟩ := indices_apart h
  have hb : wdata.getLsbD p.crTxe = false := by simpa [Instr.wellFormed] using hw
  simp [encode, selecting_request h _ _ _ h3, mnemonic, a2.symm, a4.symm, and_bit, hb, (bitTxe_ne_zero h).symm]

theorem txeOn (wdata : Word) : Statement (.txeOn wdata) := by
  intro p h hw
  obtain ⟨⟨h1, h2, h3, h4⟩, a1, a2, a3, a4, a5, a6⟩ := indices_apart h
  have hb : wdata.getLsbD p.crTxe = true := hw
  simp [encode, selecting_request h _ _ _ h3, mnemonic, a2.symm, a4.symm, and_bit, hb, bitTxe_ne_zero h]

end Sys2Proof.Laws.EncodesRow
end

