-- ==== Sys2Proof/Laws/Sequencer.lean ====
section
/-! SUPPORT. The words the sequencer issues decode to the micro-operations of its labels, and the engine's turn. -/

namespace Sys2Proof.Machine

/-- The word each label's read issues, and each clear, decodes to the micro-operation the label has. -/
theorem decodeRequest_read_fr {p : Params} (h : p.Valid) : decodeRequest p (readRequest p .fr) = .ok .rdFr := by
  obtain ⟨⟨h1, h2, h3, h4⟩, a1, a2, a3, a4, a5, a6⟩ := indices_apart h
  simp [decodeRequest_fields h, readRequest, regIndex, Nat.mod_eq_of_lt h4, a3.symm, a5.symm, a6.symm]

theorem decodeRequest_read_rsr {p : Params} (h : p.Valid) : decodeRequest p (readRequest p .rsr) = .ok .rdRsr := by
  obtain ⟨⟨h1, h2, h3, h4⟩, a1, a2, a3, a4, a5, a6⟩ := indices_apart h
  simp [decodeRequest_fields h, readRequest, regIndex, Nat.mod_eq_of_lt h2, a1.symm]

theorem decodeRequest_read_dr {p : Params} (h : p.Valid) : decodeRequest p (readRequest p .dr) = .ok .rdDr := by
  obtain ⟨⟨h1, h2, h3, h4⟩, a1, a2, a3, a4, a5, a6⟩ := indices_apart h
  simp [decodeRequest_fields h, readRequest, regIndex, Nat.mod_eq_of_lt h1]

theorem decodeRequest_read_cr {p : Params} (h : p.Valid) : decodeRequest p (readRequest p .cr) = .ok .rdCr := by
  obtain ⟨⟨h1, h2, h3, h4⟩, a1, a2, a3, a4, a5, a6⟩ := indices_apart h
  simp [decodeRequest_fields h, readRequest, regIndex, Nat.mod_eq_of_lt h3, a2.symm, a4.symm]

theorem decodeRequest_clearOe {p : Params} (h : p.Valid) :
    decodeRequest p (writeRequest p .rsr clearOeWord) = .ok .clrOe := by
  obtain ⟨⟨h1, h2, h3, h4⟩, a1, a2, a3, a4, a5, a6⟩ := indices_apart h
  simp [decodeRequest_fields h, writeRequest, regIndex, Nat.mod_eq_of_lt h2, a1.symm]

theorem decodeRequest_clearUe {p : Params} (h : p.Valid) :
    decodeRequest p (writeRequest p .rsr clearUeWord) = .ok .clrUe := by
  obtain ⟨⟨h1, h2, h3, h4⟩, a1, a2, a3, a4, a5, a6⟩ := indices_apart h
  have hne : clearUeWord ≠ clearOeWord := by decide
  simp [decodeRequest_fields h, writeRequest, regIndex, Nat.mod_eq_of_lt h2, a1.symm, hne]

theorem decodeRequest_push {p : Params} (h : p.Valid) (b : Byte) :
    decodeRequest p (writeRequest p .dr (zext32 b)) = .ok (.wrDr b) := by
  obtain ⟨⟨h1, h2, h3, h4⟩, a1, a2, a3, a4, a5, a6⟩ := indices_apart h
  simp [decodeRequest_fields h, writeRequest, regIndex, Nat.mod_eq_of_lt h1, zext32, upper_of_byte]

theorem decodeRequest_toggleOff {p : Params} (h : p.Valid) (c : Word) :
    decodeRequest p (writeRequest p .cr (toggleOffWord p c)) = .ok (.txeOff (toggleOffWord p c)) := by
  obtain ⟨⟨h1, h2, h3, h4⟩, a1, a2, a3, a4, a5, a6⟩ := indices_apart h
  have hz : toggleOffWord p c &&& bit p.crTxe = 0#32 := by simp [toggleOffWord, BitVec.and_assoc]
  simp [decodeRequest_fields h, writeRequest, regIndex, Nat.mod_eq_of_lt h3, a2.symm, a4.symm, hz]

theorem decodeRequest_toggleOn {p : Params} (h : p.Valid) (c : Word) :
    decodeRequest p (writeRequest p .cr (toggleOnWord p c)) = .ok (.txeOn (toggleOnWord p c)) := by
  obtain ⟨⟨h1, h2, h3, h4⟩, a1, a2, a3, a4, a5, a6⟩ := indices_apart h
  have hz : toggleOnWord p c &&& bit p.crTxe = bit p.crTxe := by
    rw [and_bit, if_pos]
    exact txeOf_toggleOn h c
  simp [decodeRequest_fields h, writeRequest, regIndex, Nat.mod_eq_of_lt h3, a2.symm, a4.symm, hz, bitTxe_ne_zero h]

/-- When the engine's turn is next, the step is the engine's. -/
theorem step_of_engineTurn {s u : State} (h : engineTurn s = some u) : step s = engineStep u := by
  unfold engineTurn at h
  unfold step
  split at h <;> simp_all

/-- The engine's step at a label that issues a request word. -/
theorem engineStep_request {s : State} {bw : Request} {i : Instr} (hf : fetch s = .request bw)
    (hd : decodeRequest s.par bw = .ok i) :
    engineStep s = andThen (exec i s) fun t => .next (afterRequest t) := by
  simp [engineStep, hf, hd]

/-- The engine's step at a label that makes no register access. -/
theorem engineStep_internal {s : State} (hf : fetch s = .internal) : engineStep s = internalStep s := by
  simp [engineStep, hf]

end Sys2Proof.Machine
end

