-- ==== Sys2Proof/Laws/Step.lean ====
section
/-! SUPPORT. What a step can be, said once: which agent took it, what the engine took up, and what its parts leave alone. -/

namespace Sys2Proof.Machine

/-- A step that answers is the engine's, the master's or the host's. -/
theorem step_cases {s t : State} (h : step s = .next t) :
    (∃ u, engineTurn s = some u ∧ engineStep u = .next t) ∨
    (∃ m rest, s.env.script = .master m :: rest ∧ masterStep m (withScript rest s) = .next t) ∨
    (∃ x rest, s.env.script = .host x :: rest ∧ t = hostStep x (withScript rest s)) := by
  unfold step at h
  unfold engineTurn
  cases hs : s.env.script with
  | nil =>
    rw [hs] at h
    exact .inl ⟨s, rfl, h⟩
  | cons a rest =>
    rw [hs] at h
    cases a with
    | engine => exact .inl ⟨_, rfl, h⟩
    | master m => exact .inr (.inl ⟨m, rest, rfl, h⟩)
    | host x =>
      cases h
      exact .inr (.inr ⟨x, rest, rfl, rfl⟩)

/-- Taking the engine's turn off the list changes nothing but that list. -/
theorem engineTurn_eq {s u : State} (h : engineTurn s = some u) :
    u = { s with env := { s.env with script := u.env.script } } := by
  unfold engineTurn at h
  split at h <;> cases h <;> rfl

/-- An engine step that answers: nothing to do, a command accepted, a reserved word rejected, a bus micro-operation with what
its label adds, or a label without a register access. -/
theorem engineStep_cases {s t : State} (h : engineStep s = .next t) :
    (fetch s = .nothing ∧ t = s) ∨
    (∃ cw i, fetch s = .command cw ∧ decodeCommand cw = .ok i ∧ exec i (takeCommand s) = .next t) ∨
    (∃ cw e, fetch s = .command cw ∧ decodeCommand cw = .error e ∧ rejectReserved (takeCommand s) = .next t) ∨
    (∃ bw i m, fetch s = .request bw ∧ decodeRequest s.par bw = .ok i ∧ exec i s = .next m ∧
      t = afterRequest m) ∨
    (fetch s = .internal ∧ internalStep s = .next t) := by
  unfold engineStep at h
  split at h
  · rename_i hf
    cases h
    exact .inl ⟨hf, rfl⟩
  · rename_i cw hf
    split at h
    · rename_i i hd
      exact .inr (.inl ⟨cw, i, hf, hd, h⟩)
    · rename_i e hd
      exact .inr (.inr (.inl ⟨cw, e, hf, hd, h⟩))
  · rename_i bw hf
    split at h
    · rename_i i hd
      obtain ⟨m, hm, ht⟩ := andThen_eq_next h
      cases ht
      exact .inr (.inr (.inr (.inl ⟨bw, i, m, hf, hd, hm, rfl⟩)))
    · cases h
  · rename_i hf
    exact .inr (.inr (.inr (.inr ⟨hf, h⟩)))

/-- A command word decodes to a command. -/
theorem decodeCommand_isCommand {cw : Word} {i : Instr} (h : decodeCommand cw = .ok i) : isBusOp i = false := by
  unfold decodeCommand at h
  split at h
  · cases h
    rfl
  · split at h
    · cases h
      rfl
    · split at h
      · cases h
        rfl
      · cases h

/-- Every request word a label issues decodes to a bus micro-operation. -/
theorem fetch_request_decodes {s : State} {bw : Request} (hp : s.par.Valid) (h : fetch s = .request bw) :
    ∃ i, decodeRequest s.par bw = .ok i ∧ isBusOp i = true := by
  unfold fetch toggleRequest at h
  split at h <;> (try split at h) <;> (try cases h) <;>
    simp [isBusOp, decodeRequest_read_fr hp, decodeRequest_read_rsr hp, decodeRequest_read_dr hp, decodeRequest_read_cr hp,
      decodeRequest_clearOe hp, decodeRequest_clearUe hp, decodeRequest_push hp, decodeRequest_toggleOff hp,
      decodeRequest_toggleOn hp]

/-- The end of one of a label's two events changes only the label and the mark of the first event. -/
theorem afterEvent_frame (l : Label) (s : State) :
    afterEvent l s = { s with pc := (afterEvent l s).pc, half := (afterEvent l s).half } := by
  unfold afterEvent
  split <;> rfl

/-- The first event of `RX_CLR` or `TX_CLR`: with the flag set one record in `LOG` and the clear due, with it clear the next
label. -/
theorem stepReport_due (flag : Bool) (x : Event) (l : Label) (s : State) (h : s.half = false) :
    stepReport flag x l s = if flag then { s with half := true, log := s.log ++ [(eventCode x, x)] } else goto l s := by
  cases flag <;> simp [stepReport, afterEvent, h, raiseEvent]

/-- What a label does after its request: control, and working registers. -/
theorem afterRequest_frame (s : State) :
    (afterRequest s).par = s.par ∧ (afterRequest s).bsc = s.bsc ∧ (afterRequest s).host = s.host ∧ (afterRequest s).log = s.log ∧
    (afterRequest s).env = s.env ∧ (afterRequest s).obs = s.obs := by
  unfold afterRequest
  split <;> simp [afterEvent, afterPush, afterAcct] <;> split <;> simp

/-- `Return` that answers emits one response word and goes to `IDLE`. -/
theorem returnWith_next {k : ReturnKind} {v : Nat} {s t : State} (h : returnWith k v s = .next t) :
    v < 2 ^ 31 ∧ t = { s with
      pc := .idle, obs := { s.obs with responses := s.obs.responses ++ [responseWord k v] } } := by
  unfold returnWith at h
  split at h
  · rename_i hv
    cases h
    exact ⟨hv, rfl⟩
  · cases h

/-- `PRODUCE`: one call with `E.addr`; the answer is the next one listed, if any. -/
theorem portProduce_frame (s : State) :
    (portProduce s).par = s.par ∧ (portProduce s).pc = s.pc ∧ (portProduce s).half = s.half ∧ (portProduce s).bsc = s.bsc ∧
    (portProduce s).host = s.host ∧ (portProduce s).log = s.log ∧
    (portProduce s).eng = { s.eng with pb := (portProduce s).eng.pb, pm := (portProduce s).eng.pm } ∧
    (portProduce s).obs = { s.obs with calls := s.obs.calls ++ [s.eng.addr] } := by
  unfold portProduce
  cases s.env.producer <;> simp

/-- `BUFWR` that answers stored one byte inside `Buf`. -/
theorem portBufwr_next {s t : State} (h : portBufwr s = .next t) :
    s.host.bufPresent = true ∧ s.eng.n < s.eng.cap ∧
    t = { s with host := { s.host with buf := Memory.write s.host.buf s.eng.n (dataOf s.eng.d) } } := by
  unfold portBufwr at h
  split at h
  · rename_i hc
    simp only [Bool.and_eq_true, decide_eq_true_eq] at hc
    cases h
    exact ⟨hc.1, hc.2, rfl⟩
  · cases h

/-- One step of a run in which only the engine takes turns. -/
theorem run_engine_succ {s t : State} (k : Nat) (hs : EngineOnly s) (h : engineStep s = .next t) :
    core.run (k + 1) s = core.run k t := by
  have hs' : s.env.script = [] := hs
  have : core.step s = .next t := by
    change step s = .next t
    simp [step, hs', h]
  simp [Host.Core.run, this]

end Sys2Proof.Machine
end

