-- ==== Sys2Proof/Tests/Slice0.lean ====
section
/-! SUPPORT. Small tests, their expected results from the tables of spec/95_test_vectors.md and the maps of
spec/30_encoding.md, and for each obligation with hypotheses a state that meets them. -/

namespace Sys2Proof.Tests

open Sys2Proof.Machine

/-! ### Small states -/

/-- `CLEAN` of 95_test_vectors.md section 0. -/
def clean : State :=
  { State.reset with
    bsc := { State.reset.bsc with cr := 0x305#32 }
    host := { State.reset.host with ready := true } }

/-- `CLEAN` with the sequencer at a label. -/
def atLabel (l : Label) : State := { clean with pc := l }

/-- `CLEAN` with the given queues and latch. -/
def queues (rx tx : List Byte) (l : Option Byte) : State :=
  { clean with bsc := { clean.bsc with rxq := rx, txq := tx, txl := l } }

/-- `CLEAN` with the given sticky flags. -/
def sticky (oe ue : Bool) : State := { clean with bsc := { clean.bsc with oe := oe, ue := ue } }

/-- `CLEAN` with the given CR and transmit path. -/
def control (cr : Word) (tx : List Byte) (l : Option Byte) : State :=
  { clean with bsc := { clean.bsc with cr := cr, txq := tx, txl := l } }

/-- A state in which one turn is listed. -/
def turn (t : Turn) (s : State) : State := withScript [t] s

/-- A state with a bus phase. -/
def phase (p : BusPhase) (s : State) : State := busTo p s

/-- A field of the next state, if there is one. -/
def got {α : Type} (f : State → α) : Result → Option α
  | .next s => some (f s)
  | .fault _ => none
  | .refused _ => none

/-- The fault, if there is one. -/
def faultOf : Result → Option Fault
  | .next _ => none
  | .fault e => some e
  | .refused _ => none

/-- The refusal, if there is one. -/
def refusalOf : Result → Option Refusal
  | .next _ => none
  | .fault _ => none
  | .refused e => some e

/-! ### Well-formedness and encoding -/

/-- The one check of `Instr.wellFormed`, with an ill-formed term for each constructor that has it (30:R97). -/
theorem test_wellFormed_refuses :
    Instr.wellFormed Params.default (.txeOff 0x305#32) = false ∧ Instr.wellFormed Params.default (.txeOn 0x205#32) = false ∧
    Instr.wellFormed Params.default (.txeOff 0x205#32) = true ∧ Instr.wellFormed Params.default (.txeOn 0x305#32) = true := by decide

/-- The masks and match words of 30:R93. -/
theorem test_command_rows : commandRows.map (fun r => (r.mask, r.value)) =
    [(0xFFFFFFFF#32, 0x1#32), (0x0000FFFB#32, 0x2#32), (0x0000FFFF#32, 0x3#32)] := by decide

/-- The masks and match words of 30:R97. -/
theorem test_bus_rows : (busRows Params.default).map (fun r => (r.mask, r.value)) =
    [(0xF00000000#36, 0x000000000#36), (0xF00000000#36, 0x100000000#36), (0xF00000000#36, 0x300000000#36),
     (0xF00000000#36, 0x400000000#36), (0xFFFFFFF00#36, 0x800000000#36), (0xFFFFFFFFF#36, 0x9FFFFFFFE#36),
     (0xFFFFFFFFF#36, 0x9FFFFFFFD#36), (0xF00000100#36, 0xB00000000#36), (0xF00000100#36, 0xB00000100#36)] := by
  decide

/-- Vectors A1 to A8. -/
theorem test_decode_commands :
    decodeCommand 0x00000001#32 = .ok .sense ∧
    decodeCommand 0x00040006#32 = .ok (.rxpoll true 4#16) ∧
    decodeCommand 0x00000006#32 = .ok (.rxpoll true 0#16) ∧
    decodeCommand 0xFFFF0006#32 = .ok (.rxpoll true 65535#16) ∧
    decodeCommand 0x00000002#32 = .ok (.rxpoll false 0#16) ∧
    decodeCommand 0x00050002#32 = .ok (.rxpoll false 5#16) ∧
    decodeCommand 0xFFFE0003#32 = .ok (.txstream 0xFFFE#16) ∧
    decodeCommand 0x00100003#32 = .ok (.txstream 0x0010#16) := by decide

/-- Vectors A9 to A17, by the classes of 30:R94. -/
theorem test_decode_reserved :
    decodeCommand 0x00000000#32 = .error .reservedOp ∧
    decodeCommand 0x00000004#32 = .error .reservedOp ∧
    decodeCommand 0x00010000#32 = .error .reservedOp ∧
    decodeCommand 0x00000005#32 = .error .senseOperand ∧
    decodeCommand 0x00010001#32 = .error .senseOperand ∧
    decodeCommand 0x00000007#32 = .error .txstreamBuffer ∧
    decodeCommand 0x0000000A#32 = .error .reservedBits ∧
    decodeCommand 0x00008003#32 = .error .reservedBits ∧
    decodeCommand 0xFFFFFFFF#32 = .error .reservedBits := by decide

/-- The request words of 30:R97 and 95_test_vectors.md section 2.1. A read ignores its WDATA. -/
theorem test_decode_requests :
    decodeRequest Params.default 0x000000000#36 = .ok .rdDr ∧ decodeRequest Params.default 0x0DEADBEEF#36 = .ok .rdDr ∧
    decodeRequest Params.default 0x100000000#36 = .ok .rdRsr ∧
    decodeRequest Params.default 0x300000000#36 = .ok .rdCr ∧ decodeRequest Params.default 0x400000000#36 = .ok .rdFr ∧
    decodeRequest Params.default 0x800000007#36 = .ok (.wrDr 7#8) ∧ decodeRequest Params.default 0x8000000FF#36 = .ok (.wrDr 255#8) ∧
    decodeRequest Params.default 0x9FFFFFFFE#36 = .ok .clrOe ∧ decodeRequest Params.default 0x9FFFFFFFD#36 = .ok .clrUe ∧
    decodeRequest Params.default 0xB00000205#36 = .ok (.txeOff 0x205#32) ∧
    decodeRequest Params.default 0xB00000305#36 = .ok (.txeOn 0x305#32) := by decide

/-- Request words that no micro-operation issues (20:R69, 30:R97). -/
theorem test_decode_no_request :
    decodeRequest Params.default 0x800000100#36 = .error .drUpperBits ∧
    decodeRequest Params.default 0x9FFFFFFFF#36 = .error .rsrWriteData ∧
    decodeRequest Params.default 0xC00000000#36 = .error .writesFlagRegister ∧
    decodeRequest Params.default 0x200000000#36 = .error .unknownRegister ∧
    decodeRequest Params.default 0xF00000000#36 = .error .unknownRegister := by decide

/-- Table words of 32 and of 36 bits in whole bytes; a value too wide is no instruction. -/
theorem test_decodeTableWord :
    decodeTableWord 32 0x00100003 = some (.txstream 0x10#16) ∧
    decodeTableWord 40 0x9FFFFFFFE = some .clrOe ∧
    decodeTableWord 40 0xB00000100 = some (.txeOn 0x100#32) ∧
    decodeTableWord 32 0 = none ∧ decodeTableWord 40 0x1000000000 = none := by decide

/-- The response words of 95_test_vectors.md section 2.2. -/
theorem test_response_words :
    responseWord .done 0 = 0x00000000#32 ∧ responseWord .done 2 = 0x00000002#32 ∧
    responseWord .done 16 = 0x00000010#32 ∧ responseWord .aborted 0 = 0x80000000#32 := by decide

/-- 30:R104, R105: the constant words and the toggle words for CR = 0x305 and 0x385. -/
theorem test_data_words :
    clearOeWord = 0xFFFFFFFE#32 ∧ clearUeWord = 0xFFFFFFFD#32 ∧ toggleOffWord Params.default 0x305#32 = 0x205#32 ∧
    toggleOnWord Params.default 0x205#32 = 0x305#32 ∧ toggleOffWord Params.default 0x385#32 = 0x285#32 ∧ setupWord Params.default = 0x305#32 := by decide

/-- Another choice of parameters: depths of 1 and 2, other indices, FR and CR laid out in another order. -/
def otherParams : Params where
  rxDepth := 1
  txDepth := 2
  idxDr := 7
  idxRsr := 5
  idxCr := 0
  idxFr := 2
  frRxfe := 31
  frTxff := 30
  frRxff := 29
  frTxfe := 28
  frRxbusy := 27
  frTxflrLo := 4
  frTxflrW := 2
  frRxflrLo := 0
  frRxflrW := 1
  crTxe := 1
  crRxe := 2
  crI2c := 3
  crBrk := 31

/-- The constraints of 00:R5 admit more than the defaults. -/
theorem test_parameters : otherParams.Valid ∧ frMask Params.default = 0x0000FFFE#32 ∧ frMask otherParams = 0xF8000031#32 :=
  ⟨by constructor <;> decide, by decide⟩

/-- With those parameters the request words and the FR value follow the chosen places (30:R96, R105, 10:R41). -/
theorem test_other_parameters :
    decodeRequest otherParams 0x700000000#36 = .ok .rdDr ∧ decodeRequest otherParams 0x0DEADBEEF#36 = .ok .rdCr ∧
    decodeRequest otherParams 0x80000000F#36 = .ok (.txeOn 0xF#32) ∧
    decodeRequest otherParams 0x80000000D#36 = .ok (.txeOff 0xD#32) ∧
    frValue otherParams { State.reset.bsc with rxq := [1#8], txq := [1#8, 2#8] } 0#32 = 0x60000021#32 := by decide

/-! ### Register values -/

/-- The FR value of a state with given fill levels and bus phase, the undescribed bits shown as 0. -/
def frOf (rx tx : Nat) (p : BusPhase) : Word :=
  frValue Params.default (phase p (queues (List.replicate rx 0#8) (List.replicate tx 0#8) none)).bsc 0#32

/-- Vectors M1 to M6. -/
theorem test_fr_receive_side :
    frOf 0 0 .idle = 0x00000012#32 ∧ frOf 1 0 .idle = 0x00000810#32 ∧ frOf 2 0 .idle = 0x00001010#32 ∧
    frOf 0 0 .masterWriting = 0x00000032#32 ∧ frOf 1 0 .masterWriting = 0x00000830#32 ∧
    frOf 16 0 .idle = 0x00008018#32 := by decide

/-- Vectors M7 to M12. -/
theorem test_fr_transmit_side :
    frOf 0 4 .idle = 0x00000102#32 ∧ frOf 0 16 .idle = 0x00000406#32 ∧ frOf 1 1 .masterWriting = 0x00000860#32 ∧
    frOf 1 16 .masterWriting = 0x00000C24#32 ∧ frOf 16 16 .masterWriting = 0x0000842C#32 ∧
    frOf 0 0 .slaveWriting = 0x00000012#32 := by decide

/-- The free bits of FR are exactly those outside the described fields: with all of them 1, M1 reads so. -/
theorem test_fr_free_bits : frValue clean.par clean.bsc 0xFFFFFFFF#32 = 0xFFFF0013#32 := by decide

/-- Vector M13, and DR as in M18. -/
theorem test_rsr_dr_values :
    rsrValue (sticky true false).bsc 0#32 = 0x00000001#32 ∧ rsrValue (sticky true true).bsc 0#32 = 0x00000003#32 ∧
    drValue 0x10#8 0#32 = 0x00000010#32 ∧ drValue 0x10#8 0xFFFFFFFF#32 = 0xFFFFFF10#32 := by decide

/-- Vectors T13. -/
theorem test_accounting :
    [(5, 1), (5, 0), (8, 3), (17, 16), (2, 0), (1, 0), (1, 1), (0, 0), (0, 3), (3, 5), (65536, 0)].map
      (fun p => clampedCount p.1 p.2) = [3, 4, 4, 0, 1, 0, 0, 0, 0, 0, 65535] := by decide

/-- 40:R136(b): the producer address wraps (vector T6). -/
theorem test_address_wraps : nextAddr 0xFFFF#16 = 0#16 ∧ nextAddr 0xFFFE#16 = 0xFFFF#16 := by decide

/-! ### Commands -/

/-- Vector A1: accepted without a register access. -/
theorem test_sense_accepted :
    got (fun t => (t.pc, t.eng.op, t.obs)) (exec .sense clean) = some (.snRd, .sense, clean.obs) := by decide

/-- Vector A18. -/
theorem test_sense_not_ready :
    got (fun t => (t.log, t.obs.responses)) (exec .sense State.reset) = some ([(4#3, .notReady)], [0#32]) := by decide

/-- Vector A2, and the buffer cells inside the capacity. -/
theorem test_rxpoll_accepted :
    got (fun t => (t.pc, t.eng.bp, t.eng.cap, t.host.buf))
      (exec (.rxpoll true 4#16) { clean with host := { clean.host with cmdBuf := [(3, 9#8), (4, 8#8), (0, 7#8)] } }) =
    some (.rxEntry, true, 4, [(0, 7#8), (3, 9#8)]) := by decide

/-- Vector A5: no buffer. -/
theorem test_rxpoll_without_buffer :
    got (fun t => (t.pc, t.eng.bp, t.host.bufPresent)) (exec (.rxpoll false 5#16) clean) =
    some (.rxEntry, false, false) := by decide

/-- Vector A7. -/
theorem test_txstream_accepted :
    got (fun t => (t.pc, t.eng.op, t.eng.addr)) (exec (.txstream 0xFFFE#16) clean) =
    some (.txInit, .txstream, 0xFFFE#16) := by decide

/-- Vector A21. -/
theorem test_txstream_not_ready :
    got (fun t => (t.log, t.obs.calls)) (exec (.txstream 0#16) State.reset) = some ([(4#3, .notReady)], []) := by decide

/-- Vector A22: decode comes before the test of `ready`. -/
theorem test_reserved_answered :
    got (fun t => (t.log, t.obs.responses, t.obs.requests))
      (step { State.reset with host := { State.reset.host with cmd := some 0#32 } }) =
    some ([(3#3, .invalidArgument)], [0#32], []) := by decide

/-! ### Bus micro-operations -/

/-- Vector M18. -/
theorem test_rdDr_pops :
    got (fun t => (dataOf t.eng.d == 0x10#8, t.bsc.rxq)) (exec .rdDr (queues [0x10#8, 0x20#8] [] none)) =
    some (true, [0x20#8]) := by
  simp [exec, execRdDr, readInto, regRead, got, queues, clean, State.reset, issueRequest, usedDraws, dataOf_drValue]

/-- Vector M19. -/
theorem test_rdDr_empty : faultOf (exec .rdDr clean) = some .bscRxEmptyRead := by decide

/-- Vector M13: nothing is cleared. -/
theorem test_rdRsr_keeps_flags :
    got (fun t => (t.bsc.oe, t.bsc.ue)) (exec .rdRsr (sticky true false)) = some (true, false) := by decide

/-- 20:R67, vector M23's read. -/
theorem test_rdCr : got (fun t => (t.eng.c, t.obs.requests)) (exec .rdCr clean) =
    some (0x305#32, [0x300000000#36]) := by decide

/-- 20:R62: a read of FR changes no BSC state. -/
theorem test_rdFr_keeps_state :
    got (fun t => (t.bsc == (queues [1#8] [2#8] none).bsc, t.obs.requests)) (exec .rdFr (queues [1#8] [2#8] none)) =
    some (true, [0x400000000#36]) := by decide

/-- Vectors M20, M21. -/
theorem test_wrDr_latch_then_queue :
    got (fun t => (t.bsc.txl, t.bsc.txq, t.obs.requests)) (exec (.wrDr 7#8) clean) =
      some (some 7#8, [], [0x800000007#36]) ∧
    got (fun t => (t.bsc.txl, t.bsc.txq)) (exec (.wrDr 8#8) (queues [] [] (some 7#8))) = some (some 7#8, [8#8]) := by
  decide

/-- Vector M22. -/
theorem test_wrDr_full :
    faultOf (exec (.wrDr 1#8) (queues [] (List.replicate 16 0#8) (some 0#8))) = some .bscTxFullWrite := by decide

/-- Vector M14. -/
theorem test_clrOe : got (fun t => (t.bsc.oe, t.bsc.ue)) (exec .clrOe (sticky true true)) = some (false, true) := by decide

/-- Vector M15. -/
theorem test_clrUe : got (fun t => (t.bsc.oe, t.bsc.ue)) (exec .clrUe (sticky true true)) = some (true, false) := by decide

/-- Vectors M16, M17. -/
theorem test_rsr_write_never_sets :
    got (fun t => (t.bsc.oe, t.bsc.ue)) (regWrite .rsr 0xFFFFFFFF#32 clean) = some (false, false) ∧
    got (fun t => (t.bsc.oe, t.bsc.ue)) (regWrite .rsr 0#32 (sticky true true)) = some (false, false) := by decide

/-- Vector M23. -/
theorem test_txeOff_drops_latch :
    got (fun t => (t.bsc.cr, t.bsc.txl, t.bsc.txq)) (exec (.txeOff 0x205#32) (control 0x305#32 [4#8] (some 3#8))) =
    some (0x205#32, none, [4#8]) := by decide

/-- Vector M26: BRK is written back, and the latch is dropped. -/
theorem test_txeOff_with_brk :
    got (fun t => (t.bsc.cr, t.bsc.txl)) (exec (.txeOff 0x285#32) (control 0x385#32 [] (some 1#8))) =
    some (0x285#32, none) := by
  simp [exec, execTxeOff, regWrite, writeCr, got, control, clean, State.reset, breakEffect, txeEdge, txeOf, brkOf, bit,
    setupFixedWord, issueRequest, Config.crEn, Params.default]

/-- Vector M24. -/
theorem test_txeOn_loads_latch :
    got (fun t => (t.bsc.cr, t.bsc.txl, t.bsc.txq)) (exec (.txeOn 0x305#32) (control 0x205#32 [4#8] none)) =
    some (0x305#32, some 4#8, []) := by decide

/-- Vector M27: no edge. -/
theorem test_txeOn_no_edge :
    got (fun t => (t.bsc.cr, t.bsc.txl, t.bsc.txq)) (exec (.txeOn 0x305#32) (control 0x305#32 [4#8] (some 3#8))) =
    some (0x305#32, some 3#8, [4#8]) := by decide

/-! ### Labels -/

/-- Vector S2's answer: RXBUSY alone decides. -/
theorem test_snDone :
    got (fun t => (t.pc, t.obs.responses))
      (step { atLabel .snDone with eng := { clean.eng with f := 0x32#32 } }) = some (.idle, [1#32]) := by decide

/-- Vector X9: the checkpoint aborts. -/
theorem test_checkpoint_aborts :
    got (fun t => (t.pc, t.obs.responses, t.log))
      (step { atLabel .rxK0 with host := { clean.host with cancel := true } }) = some (.idle, [0x80000000#32], []) := by
  decide

/-- Vector X2: with no room no FR read. -/
theorem test_rxCond_no_room :
    got (fun t => (t.pc, t.obs.requests)) (step (atLabel .rxCond)) = some (.rxDone, []) := by decide

/-- Vector X6 and 20:R72: the event with `OE` still set, then the clear, and `UE` untouched. -/
theorem test_rxClr_reports :
    got (fun t => (t.pc, t.half, t.log, t.bsc.oe))
      (step { sticky true true with pc := .rxClr, eng := { clean.eng with r := 3#32 } }) =
      some (.rxClr, true, [(1#3, .overrun)], true) ∧
    got (fun t => (t.pc, t.half, t.bsc.oe, t.bsc.ue, t.obs.requests))
      (step { sticky true true with pc := .rxClr, half := true, eng := { clean.eng with r := 3#32 } }) =
      some (.rxDr, false, false, true, [0x9FFFFFFFE#36]) := ⟨by decide, by decide⟩

/-- Vector T11 and 20:R72: the event with `UE` still set, then the clear, and `OE` untouched. -/
theorem test_txClr_reports :
    got (fun t => (t.pc, t.half, t.log, t.bsc.ue))
      (step { sticky true true with pc := .txClr, eng := { clean.eng with r := 3#32 } }) =
      some (.txClr, true, [(2#3, .underrun)], true) ∧
    got (fun t => (t.pc, t.half, t.bsc.oe, t.bsc.ue, t.obs.requests))
      (step { sticky true true with pc := .txClr, half := true, eng := { clean.eng with r := 3#32 } }) =
      some (.txProd, false, true, false, [0x9FFFFFFFD#36]) := ⟨by decide, by decide⟩

/-- Program P1, step 9. -/
theorem test_rxStore :
    got (fun t => (t.pc, t.eng.n, t.host.buf))
      (step { atLabel .rxStore with
        eng := { clean.eng with cap := 4, n := 1, d := 0x20#32 }
        host := { clean.host with bufPresent := true, buf := [(0, 0x10#8)] } }) =
    some (.rxCond, 2, [(0, 0x10#8), (1, 0x20#8)]) := by decide

/-- Program P2: the sixth call ends the pass. -/
theorem test_txProd :
    got (fun t => (t.pc, t.eng.addr, t.obs.calls))
      (step { atLabel .txProd with eng := { clean.eng with addr := 5#16 }, env := { clean.env with producer := [(0#8, false)] } }) =
    some (.txSleep, 5#16, [5#16]) := by decide

/-- Program P2: the push after the first byte has gone to the latch. -/
theorem test_txPush :
    got (fun t => (t.pc, t.eng.addr, t.eng.offered, t.bsc.txl, t.bsc.txq))
      (step { queues [] [] (some 0#8) with pc := .txPush, eng := { clean.eng with pb := 1#8, addr := 0xFFFF#16, offered := 1 } }) =
    some (.txIcond, 0#16, 2, some 0#8, [1#8]) := by decide

/-- Program P2: `TX_CALC` with 5 offered and 1 resident. -/
theorem test_txCalc :
    got (fun t => (t.pc, t.eng.count)) (step { atLabel .txCalc with eng := { clean.eng with offered := 5, resident := 1 } }) =
    some (.txFcond, 3) := by decide

/-- Program P2: the two events of `TX_FOFF`. -/
theorem test_txFoff :
    got (fun t => (t.pc, t.half, t.eng.c)) (step (atLabel .txFoff)) = some (.txFoff, true, 0x305#32) ∧
    got (fun t => (t.pc, t.bsc.cr, t.bsc.txl, t.obs.requests))
      (step { control 0x305#32 [4#8] (some 3#8) with pc := .txFoff, half := true, eng := { clean.eng with c := 0x305#32 } }) =
    some (.txFon, 0x205#32, none, [0xB00000205#36]) := by decide

/-! ### The master and the host -/

/-- Vectors M28, M29. -/
theorem test_master_write :
    got (fun t => (t.bsc.rxq.length, t.bsc.rxq.getLast?, t.bsc.oe))
      (step (turn (.master (.write 0x4F#8)) (phase .masterWriting (queues (List.replicate 15 0#8) [] none)))) =
      some (16, some 0x4F#8, false) ∧
    got (fun t => (t.bsc.rxq == List.replicate 16 0#8, t.bsc.oe))
      (step (turn (.master (.write 0x50#8)) (phase .masterWriting (queues (List.replicate 16 0#8) [] none)))) =
      some (true, true) := by decide

/-- Vectors M30, M31, and 45:R229. -/
theorem test_master_read :
    got (fun t => (t.bsc.txl, t.bsc.txq, t.obs.masterGot))
      (step (turn (.master .read) (phase .slaveWriting (queues [] [1#8, 2#8] (some 0#8))))) =
      some (some 1#8, [2#8], [0#8]) ∧
    got (fun t => (t.bsc.ue, t.obs.masterGot.length)) (step (turn (.master .read) (phase .slaveWriting clean))) =
      some (true, 1) ∧
    got (fun t => (t.bsc.txq, t.obs.masterGot.length))
      (step (turn (.master .read) (phase .slaveWriting (control 0x205#32 [4#8] none)))) = some ([4#8], 1) := by decide

/-- Vector M32, and 45:R222. -/
theorem test_master_phase :
    got (fun t => (t.bsc.bus, t.bsc.txl, t.bsc.txq))
      (step (turn (.master .stop) (phase .slaveWriting (queues [] [4#8] (some 3#8))))) = some (.idle, some 3#8, [4#8]) ∧
    got (fun t => t.bsc.bus) (step (turn (.master .startWrite) clean)) = some .masterWriting := by decide

/-- 45:R230: outside the setup contract the master's bytes are refused. -/
theorem test_master_outside_setup :
    refusalOf (step (turn (.master (.write 1#8)) (phase .masterWriting (control 0x105#32 [] none)))) =
      some .masterOutsideSetup ∧
    refusalOf (step (turn (.master .read) (phase .slaveWriting (control 0x301#32 [] none)))) =
      some .masterOutsideSetup := by decide

/-- 45:R236, R238, R239, at their labels. -/
theorem test_host_steps :
    got (fun t => t.host.cancel) (step (turn (.host .cancel) (atLabel .rxK1))) = some true ∧
    got (fun t => t.host.cancel) (step (turn (.host .uncancel) { atLabel .rxK1 with host := { clean.host with cancel := true } })) =
      some true ∧
    got (fun t => (t.host.ready, launchSetUp Params.default t.bsc.cr)) (step (turn (.host (.setup false)) State.reset)) =
      some (false, false) ∧
    got (fun t => t.host.ready) (step (turn (.host (.setup true)) State.reset)) = some true ∧
    got (fun t => t.host.ready) (step (turn (.host .teardown) clean)) = some false ∧
    got (fun t => t.host.ready) (step (turn (.host .teardown) (atLabel .rxK1))) = some true := by decide

/-! ### The first step after reset, for each row -/

/-- A command word placed at the port is taken by the next step: with `ready = 0` it is answered NotReady (60:R266). -/
theorem test_first_step_command :
    got (fun t => t.log) (step (State.reset.withFetchWord 32 0x1)) = some [(4#3, .notReady)] ∧
    got (fun t => t.log) (step (State.reset.withFetchWord 32 0x40006)) = some [(4#3, .notReady)] ∧
    got (fun t => t.log) (step (State.reset.withFetchWord 32 0x100003)) = some [(4#3, .notReady)] := by decide

/-- A request word placed is the request the next step makes. DR is empty after reset (20:R65). -/
theorem test_first_step_request :
    got (fun t => t.obs.requests) (step (State.reset.withFetchWord 40 0x100000000)) = some [0x100000000#36] ∧
    got (fun t => t.obs.requests) (step (State.reset.withFetchWord 40 0x300000000)) = some [0x300000000#36] ∧
    got (fun t => t.obs.requests) (step (State.reset.withFetchWord 40 0x400000000)) = some [0x400000000#36] ∧
    got (fun t => t.obs.requests) (step (State.reset.withFetchWord 40 0x800000007)) = some [0x800000007#36] ∧
    got (fun t => t.obs.requests) (step (State.reset.withFetchWord 40 0x9FFFFFFFE)) = some [0x9FFFFFFFE#36] ∧
    got (fun t => t.obs.requests) (step (State.reset.withFetchWord 40 0x9FFFFFFFD)) = some [0x9FFFFFFFD#36] ∧
    got (fun t => t.obs.requests) (step (State.reset.withFetchWord 40 0xB00000205)) = some [0xB00000205#36] ∧
    got (fun t => t.obs.requests) (step (State.reset.withFetchWord 40 0xB00000305)) = some [0xB00000305#36] ∧
    faultOf (step (State.reset.withFetchWord 40 0)) = some .bscRxEmptyRead := by decide

/-! ### Witnesses: for each obligation with hypotheses, a state and operands that meet them, clause by clause -/

/-- `CLEAN` with no room, with one place, in the transmit FIFO. -/
def txFull : State := queues [] (List.replicate 16 0#8) (some 0#8)
def txOneLeft : State := queues [] (List.replicate 15 0#8) (some 0#8)

/-- `CLEAN` in `IDLE` with a command word at the port. -/
def presented (cw : Word) : State := { clean with host := { clean.host with cmd := some cw } }

theorem witness_DecodeEncodeRoundTrip : Params.default.Valid ∧ otherParams.Valid ∧
    (Instr.txeOff 0xFFFFFEFF#32).wellFormed Params.default = true ∧ (Instr.txeOn 0x100#32).wellFormed Params.default = true ∧
    (Instr.rxpoll true 0xFFFF#16).wellFormed Params.default = true ∧ (Instr.wrDr 0xFF#8).wellFormed Params.default = true :=
  ⟨Params.default_valid, test_parameters.1, by decide, by decide, by decide, by decide⟩

theorem witness_RequestWordSelectsItsRow : Params.default.Valid ∧ otherParams.Valid :=
  ⟨Params.default_valid, test_parameters.1⟩

theorem witness_OperandsAreTheFields : Params.default.Valid ∧
    decodeCommand 0xFFFF0006#32 = .ok (.rxpoll true 0xFFFF#16) ∧
    decodeCommand 0x00000002#32 = .ok (.rxpoll false 0#16) ∧
    decodeCommand 0xFFFF0003#32 = .ok (.txstream 0xFFFF#16) ∧
    decodeRequest Params.default 0x8000000FF#36 = .ok (.wrDr 0xFF#8) ∧
    decodeRequest Params.default 0xBFFFFFEFF#36 = .ok (.txeOff 0xFFFFFEFF#32) ∧
    decodeRequest Params.default 0xBFFFFFFFF#36 = .ok (.txeOn 0xFFFFFFFF#32) := ⟨Params.default_valid, by decide⟩

theorem witness_StepRunsPresentedCommand :
    engineTurn (presented 1#32) = some (presented 1#32) ∧ (presented 1#32).pc = .idle ∧
    (presented 1#32).host.cmd = some 1#32 ∧ decodeCommand 1#32 = .ok .sense ∧
    engineTurn (turn .engine (presented 1#32)) = some (presented 1#32) := by decide

theorem witness_StepRunsLabelRequest :
    engineTurn (atLabel .rxRsr) = some (atLabel .rxRsr) ∧
    fetch (atLabel .rxRsr) = .request 0x100000000#36 ∧ decodeRequest Params.default 0x100000000#36 = .ok .rdRsr := by decide

theorem witness_ReservedCommandAnswered :
    engineTurn (presented 0#32) = some (presented 0#32) ∧ (presented 0#32).pc = .idle ∧
    (presented 0#32).host.cmd = some 0#32 ∧ ∀ i, decodeCommand 0#32 ≠ .ok i := by
  refine ⟨by decide, by decide, by decide, ?_⟩
  intro i h
  rw [show decodeCommand 0#32 = .error .reservedOp by decide] at h
  cases h

theorem witness_CommandsAccepted : PReady clean := by decide

theorem witness_CommandsNotReady :
    isBusOp .sense = false ∧ isBusOp (.rxpoll true 4#16) = false ∧ isBusOp (.txstream 0#16) = false ∧
    State.reset.host.ready = false := by decide

theorem witness_LaunchOutsideSetupRefused :
    isBusOp .sense = false ∧ (control 0x205#32 [] none).host.ready = true ∧
    launchSetUp Params.default (control 0x205#32 [] none).bsc.cr = false := by decide

theorem witness_ReadFlagRegister :
    clean.par.Valid ∧
    txFull.host.ready = true ∧ txFull.bsc.txq.length = Params.default.txDepth ∧ txFull.bsc.txq.length ≤ Params.default.txDepth ∧
    (queues (List.replicate 16 0#8) [] none).host.ready = true ∧
    (queues (List.replicate 16 0#8) [] none).bsc.rxq.length ≤ Params.default.rxDepth :=
  ⟨Params.default_valid, by decide⟩

theorem witness_ReadRawStatus : (sticky true false).host.ready = true := by decide

theorem witness_ReadDataRegister :
    (queues [1#8] [] none).host.ready = true ∧ (queues [1#8] [] none).bsc.rxq = 1#8 :: [] ∧
    clean.host.ready = true ∧ clean.bsc.rxq = [] := by decide

theorem witness_ReadControlRegister : clean.host.ready = true := by decide

theorem witness_WriteDataRegister :
    txOneLeft.host.ready = true ∧ txOneLeft.bsc.txq.length < Params.default.txDepth ∧
    txFull.host.ready = true ∧ Params.default.txDepth ≤ txFull.bsc.txq.length ∧
    clean.bsc.cr.getLsbD Params.default.crTxe = true ∧ clean.bsc.txl = none := by decide

theorem witness_ClearStickyFlags : (sticky true true).host.ready = true := by decide

theorem witness_RawStatusWriteClearsOnly : (sticky true true).host.ready = true := by decide

theorem witness_TransmitEnableOff :
    clean.host.ready = true ∧ (0x205#32 : Word).getLsbD Params.default.crTxe = false ∧
    (0x205#32 : Word).getLsbD Params.default.crBrk = false ∧ (clean.bsc.cr ^^^ 0x205#32) &&& setupFixedWord Params.default = 0#32 := by decide

theorem witness_TransmitEnableOn :
    (control 0x205#32 [4#8] none).host.ready = true ∧ (0x305#32 : Word).getLsbD Params.default.crTxe = true ∧
    (0x305#32 : Word).getLsbD Params.default.crBrk = false ∧
    ((control 0x205#32 [4#8] none).bsc.cr ^^^ 0x305#32) &&& setupFixedWord Params.default = 0#32 := by decide

theorem witness_BreakBitWriteCompletes :
    (control 0x385#32 [] (some 1#8)).host.ready = true ∧ (0x285#32 : Word).getLsbD Params.default.crBrk = true ∧
    ((control 0x385#32 [] (some 1#8)).bsc.cr ^^^ 0x285#32) &&& setupFixedWord Params.default = 0#32 ∧
    (control 0x385#32 [] (some 1#8)).bsc.cr.getLsbD Params.default.crTxe = true ∧
    (0x285#32 : Word).getLsbD Params.default.crTxe = false := by decide

theorem witness_SetupBitWriteRefused :
    clean.host.ready = true ∧ (clean.bsc.cr ^^^ 0x304#32) &&& setupFixedWord Params.default ≠ 0#32 := by decide

theorem witness_UnmappedAccessFaults : isBusOp .rdFr = true ∧ State.reset.host.ready = false := by decide

/-- Every bus micro-operation has a state in which it completes (30:R96). -/
theorem witness_BusOpFrame :
    ∀ c ∈ [(Instr.rdFr, clean), (.rdRsr, clean), (.rdCr, clean), (.rdDr, queues [1#8] [] none), (.wrDr 1#8, txOneLeft),
        (.clrOe, clean), (.clrUe, clean), (.txeOff 0x205#32, clean), (.txeOn 0x305#32, clean)],
      isBusOp c.1 = true ∧ ∃ t, exec c.1 c.2 = .next t := by
  simp only [List.forall_mem_cons, List.not_mem_nil, false_implies, implies_true, and_true]
  repeat' constructor

/-- Every command word's row has a state in which it launches, `SENSE` also one in which the window is not mapped. -/
theorem witness_CommandFrame :
    (∀ c ∈ [(Instr.sense, clean), (.rxpoll true 4#16, clean), (.txstream 0#16, clean), (.sense, State.reset)],
      isBusOp c.1 = false ∧ ∃ t, exec c.1 c.2 = .next t) ∧
    clean.host.ready = true ∧ State.reset.host.ready = false := by
  simp only [List.forall_mem_cons, List.not_mem_nil, false_implies, implies_true, and_true]
  repeat' constructor

/-- A state at a label with `cancel` set. -/
def cancelled (l : Label) : State := { atLabel l with host := { clean.host with cancel := true } }

theorem witness_CheckpointAbortsOrContinues :
    engineTurn (cancelled .rxK0) = some (cancelled .rxK0) ∧ (Label.rxK0, Label.rxCond) ∈ checkpoints ∧
    (cancelled .rxK0).pc = .rxK0 ∧ (cancelled .rxK0).host.cancel = true ∧
    (atLabel .txK2).host.cancel = false ∧ (Label.txK2, Label.txRsr) ∈ checkpoints := by decide

theorem witness_ReceiveEntry :
    engineTurn (atLabel .rxEntry) = some (atLabel .rxEntry) ∧ (atLabel .rxEntry).pc = .rxEntry ∧
    (atLabel .rxEntry).eng.bp = false ∧
    { atLabel .rxEntry with eng := { clean.eng with bp := true } }.eng.bp = true := by decide

/-- A state of `RXPOLL` with a buffer of `cap` bytes, `n` of them stored. -/
def polling (l : Label) (cap n : Nat) : State :=
  { atLabel l with eng := { clean.eng with bp := true, cap := cap, n := n }, host := { clean.host with bufPresent := true } }

theorem witness_ReceiveCondition :
    (polling .rxCond 4 3).par.Valid ∧
    engineTurn (polling .rxCond 4 4) = some (polling .rxCond 4 4) ∧ (polling .rxCond 4 4).pc = .rxCond ∧
    (polling .rxCond 4 4).eng.cap ≤ (polling .rxCond 4 4).eng.n ∧
    (polling .rxCond 4 3).eng.n < (polling .rxCond 4 3).eng.cap ∧ (polling .rxCond 4 3).host.ready = true :=
  ⟨Params.default_valid, by decide⟩

/-- A state at a label with the given RSR snapshot. -/
def snapshot (l : Label) (r : Word) : State := { atLabel l with eng := { clean.eng with r := r } }

/-- Label, second event due and window mapped, after the step from a state. -/
def secondEvent (s : State) : Option (Label × Bool × Bool) := got (fun t => (t.pc, t.half, t.host.ready)) (step s)

theorem witness_StickyFlagReportedAndCleared : (snapshot .rxClr 1#32).par.Valid ∧
    engineTurn (snapshot .rxClr 1#32) = some (snapshot .rxClr 1#32) ∧ (snapshot .rxClr 1#32).pc = .rxClr ∧
    (snapshot .rxClr 1#32).half = false ∧ (snapshot .rxClr 1#32).eng.r.getLsbD 0 = true ∧
    (snapshot .rxClr 2#32).half = false ∧ (snapshot .rxClr 2#32).eng.r.getLsbD 0 = false ∧
    (snapshot .txClr 1#32).half = false ∧ (snapshot .txClr 1#32).eng.r.getLsbD 1 = false ∧
    (snapshot .txClr 2#32).pc = .txClr ∧ (snapshot .txClr 2#32).eng.r.getLsbD 1 = true ∧
    secondEvent (snapshot .rxClr 1#32) = some (.rxClr, true, true) ∧
    secondEvent (snapshot .txClr 2#32) = some (.txClr, true, true) := ⟨Params.default_valid, by decide⟩

theorem witness_SnapshotSteps : (atLabel .rxRsr).par.Valid ∧
    engineTurn (atLabel .rxRsr) = some (atLabel .rxRsr) ∧ (atLabel .rxRsr).host.ready = true ∧
    (Label.rxRsr, Label.rxClr) ∈ [(Label.rxRsr, Label.rxClr), (.txRsr, .txClr)] ∧ (atLabel .rxRsr).pc = .rxRsr ∧
    (Label.txRsr, Label.txClr) ∈ [(Label.rxRsr, Label.rxClr), (.txRsr, .txClr)] ∧ (atLabel .txRsr).pc = .txRsr ∧
    { queues [1#8] [] none with pc := .rxDr }.pc = .rxDr ∧
    { queues [1#8] [] none with pc := .rxDr }.bsc.rxq = 1#8 :: [] := ⟨Params.default_valid, by decide⟩

theorem witness_ReceiveStore :
    engineTurn (polling .rxStore 4 3) = some (polling .rxStore 4 3) ∧ (polling .rxStore 4 3).pc = .rxStore ∧
    (polling .rxStore 4 3).host.bufPresent = true ∧ (polling .rxStore 4 3).eng.n < (polling .rxStore 4 3).eng.cap ∧
    (polling .rxStore 4 4).eng.cap ≤ (polling .rxStore 4 4).eng.n ∧ (atLabel .rxStore).host.bufPresent = false := by
  decide

theorem witness_CommandsReturn :
    engineTurn (polling .rxDone 4 2) = some (polling .rxDone 4 2) ∧ (polling .rxDone 4 2).pc = .rxDone ∧
    (2 : Nat) < 2 ^ 31 ∧
    { atLabel .txDone with eng := { clean.eng with count := 2 ^ 31 } }.pc = .txDone ∧ 2 ^ 31 ≤ (2 ^ 31 : Nat) ∧
    { atLabel .txDone with eng := { clean.eng with count := 2 ^ 31 - 1 } }.eng.count < 2 ^ 31 ∧
    (atLabel .snDone).pc = .snDone := by decide

theorem witness_StreamConditions :
    (atLabel .txOcond).par.Valid ∧
    engineTurn (atLabel .txOcond) = some (atLabel .txOcond) ∧ (atLabel .txOcond).host.ready = true ∧
    (atLabel .txOcond).pc = .txOcond ∧ (atLabel .txIcond).pc = .txIcond ∧ (atLabel .txFcond).pc = .txFcond ∧
    { txFull with pc := .txIcond }.bsc.txq.length = Params.default.txDepth :=
  ⟨Params.default_valid, by decide⟩

theorem witness_ProducerCalledOnce :
    engineTurn (atLabel .txProd) = some (atLabel .txProd) ∧ (atLabel .txProd).pc = .txProd ∧
    { atLabel .txProd with env := { clean.env with producer := [(7#8, true)] } }.env.producer = (7#8, true) :: [] := by
  decide

theorem witness_StreamPush :
    txOneLeft.par.Valid ∧
    engineTurn { txOneLeft with pc := .txPush } = some { txOneLeft with pc := .txPush } ∧
    txOneLeft.host.ready = true ∧ txOneLeft.bsc.txq.length < Params.default.txDepth :=
  ⟨Params.default_valid, by decide⟩

theorem witness_StreamAccounting :
    txFull.par.Valid ∧
    engineTurn { txFull with pc := .txAcct } = some { txFull with pc := .txAcct } ∧ txFull.host.ready = true ∧
    txFull.bsc.txq.length ≤ Params.default.txDepth ∧ engineTurn (atLabel .txCalc) = some (atLabel .txCalc) ∧
    (atLabel .txCalc).pc = .txCalc :=
  ⟨Params.default_valid, by decide⟩

theorem witness_StreamInitAndSleep :
    engineTurn (atLabel .txInit) = some (atLabel .txInit) ∧ (atLabel .txInit).pc = .txInit ∧
    engineTurn (cancelled .txSleep) = some (cancelled .txSleep) ∧ (cancelled .txSleep).pc = .txSleep := by decide

theorem witness_ToggleDropsAndLoads :
    (atLabel .txLoff).par.Valid ∧
    EngineOnly (atLabel .txLoff) ∧ (atLabel .txLoff).half = false ∧ (atLabel .txLoff).host.ready = true ∧
    (atLabel .txLoff).bsc.cr.getLsbD Params.default.crTxe = true ∧ (atLabel .txLoff).bsc.cr.getLsbD Params.default.crBrk = false ∧
    (atLabel .txLoff).pc = .txLoff ∧ (atLabel .txFoff).pc = .txFoff ∧ EngineOnly (atLabel .txFoff) :=
  ⟨Params.default_valid, by decide⟩

theorem witness_FlushIgnoresCancel :
    engineTurn (atLabel .txFoff) = some (atLabel .txFoff) ∧ (atLabel .txFoff).par.Valid ∧
    (atLabel .txFoff).pc.inFlush = true ∧ ∃ t, step (atLabel .txFoff) = .next t :=
  ⟨by decide, Params.default_valid, by decide, _, rfl⟩

/-- A master's or host's turn in a state of `CLEAN` with a bus phase. -/
def masterTurn (m : MasterStep) (p : BusPhase) (s : State) : State := turn (.master m) (phase p s)

theorem witness_MasterWrite :
    (masterTurn (.write 1#8) .masterWriting clean).env.script = .master (.write 1#8) :: [] ∧
    (masterTurn (.write 1#8) .masterWriting clean).bsc.bus = .masterWriting ∧
    receiveSetUp Params.default (masterTurn (.write 1#8) .masterWriting clean).bsc.cr = true := by decide

theorem witness_MasterRead :
    (masterTurn .read .slaveWriting (queues [] [2#8] (some 1#8))).env.script = .master .read :: [] ∧
    (masterTurn .read .slaveWriting (queues [] [2#8] (some 1#8))).bsc.bus = .slaveWriting ∧
    (masterTurn .read .slaveWriting (queues [] [2#8] (some 1#8))).bsc.cr.getLsbD Params.default.crTxe = true ∧
    protocolSetUp Params.default (masterTurn .read .slaveWriting (queues [] [2#8] (some 1#8))).bsc.cr = true ∧
    (masterTurn .read .slaveWriting (queues [] [2#8] (some 1#8))).bsc.txl = some 1#8 ∧
    (masterTurn .read .slaveWriting clean).bsc.txl = none := by decide

theorem witness_MasterReadWhileDisabled :
    (masterTurn .read .slaveWriting (control 0x205#32 [] none)).env.script = .master .read :: [] ∧
    (masterTurn .read .slaveWriting (control 0x205#32 [] none)).bsc.bus = .slaveWriting ∧
    (masterTurn .read .slaveWriting (control 0x205#32 [] none)).bsc.cr.getLsbD Params.default.crTxe = false ∧
    protocolSetUp Params.default (masterTurn .read .slaveWriting (control 0x205#32 [] none)).bsc.cr = true := by decide

theorem witness_MasterChangesPhase :
    (MasterStep.stop, BusPhase.idle) ∈
      [(MasterStep.startWrite, BusPhase.masterWriting), (.startRead, .slaveWriting), (.stop, .idle)] ∧
    (masterTurn .stop .slaveWriting clean).env.script = .master .stop :: [] ∧
    (masterTurn .stop .slaveWriting clean).bsc.bus ≠ .idle ∧
    (masterTurn .startWrite .idle clean).bsc.bus ≠ .masterWriting ∧
    (masterTurn .startRead .masterWriting clean).bsc.bus ≠ .slaveWriting := by decide

theorem witness_MasterOutsideSetupRefused :
    (masterTurn (.write 1#8) .masterWriting (control 0x105#32 [] none)).env.script = .master (.write 1#8) :: [] ∧
    (masterTurn (.write 1#8) .masterWriting (control 0x105#32 [] none)).bsc.bus = .masterWriting ∧
    receiveSetUp Params.default (masterTurn (.write 1#8) .masterWriting (control 0x105#32 [] none)).bsc.cr = false ∧
    (masterTurn .read .slaveWriting (control 0x301#32 [] none)).env.script = .master .read :: [] ∧
    (masterTurn .read .slaveWriting (control 0x301#32 [] none)).bsc.bus = .slaveWriting ∧
    protocolSetUp Params.default (masterTurn .read .slaveWriting (control 0x301#32 [] none)).bsc.cr = false := by decide

theorem witness_MasterStepNotEnabled :
    (masterTurn (.write 1#8) .slaveWriting clean).bsc.bus ≠ .masterWriting ∧
    (masterTurn .read .idle clean).bsc.bus ≠ .slaveWriting ∧
    (masterTurn .startWrite .masterWriting clean).bsc.bus = .masterWriting ∧
    (masterTurn .startRead .slaveWriting clean).bsc.bus = .slaveWriting ∧
    (masterTurn .stop .idle clean).bsc.bus = .idle ∧
    (masterTurn .stop .idle clean).env.script = .master .stop :: [] := by decide

theorem witness_MasterCannot :
    (masterTurn .read .slaveWriting clean).env.script = .master .read :: [] ∧
    ∃ t, step (masterTurn .read .slaveWriting clean) = .next t := ⟨by decide, _, rfl⟩

theorem witness_HostSteps :
    (turn (.host (.setup true)) State.reset).env.script = .host (.setup true) :: [] ∧
    (turn (.host (.setup true)) State.reset).pc = .idle ∧ (turn (.host (.setup true)) State.reset).host.ready = false ∧
    (turn (.host (.setup true)) State.reset).par.Valid ∧
    (turn (.host (.setup true)) (atLabel .rxK1)).pc ≠ .idle ∧ (turn (.host (.setup true)) clean).host.ready = true ∧
    (turn (.host .unmap) (atLabel .rxK1)).env.script = .host .unmap :: [] ∧
    (turn (.host (.issue 1#32 [])) clean).env.script = .host (.issue 1#32 []) :: [] ∧
    (turn (.host (.issue 1#32 [])) clean).host.cmd = none ∧
    (turn (.host (.issue 1#32 [])) (presented 2#32)).host.cmd ≠ none :=
  ⟨by decide, by decide, by decide, Params.default_valid, by decide⟩

/-- `CLEAN` meets the invariant. -/
theorem clean_inv : clean.Inv where
  par := Params.default_valid
  bsc := ⟨by decide, by decide, by decide⟩
  buf := by decide
  half := by decide
  toggle := by decide
  entry := by decide
  present := by decide
  pop := by decide
  store := by decide
  push := by decide
  count := by decide

theorem witness_ParametersNeverChange : ∃ t, step (atLabel .rxRsr) = .next t := ⟨_, rfl⟩

theorem witness_StepKeepsInvariant : clean.Inv ∧ ∃ t, step clean = .next t := ⟨clean_inv, _, rfl⟩

theorem witness_NoModelFault : clean.Inv ∧ clean.host.ready = true := ⟨clean_inv, rfl⟩

theorem witness_OnlyClearRequestsLowerFlags :
    (∃ t, step { sticky true true with pc := .rxClr, half := true } = .next t ∧
      { sticky true true with pc := .rxClr, half := true }.bsc.oe = true ∧ t.bsc.oe = false) ∧
    (∃ t, step { sticky true true with pc := .txClr, half := true } = .next t ∧
      { sticky true true with pc := .txClr, half := true }.bsc.ue = true ∧ t.bsc.ue = false) :=
  ⟨⟨_, rfl, rfl, by decide⟩, ⟨_, rfl, rfl, by decide⟩⟩

theorem witness_EngineChangesOnlyTxe :
    clean.Inv ∧ engineTurn clean = some clean ∧ (∃ t, step clean = .next t) ∧ (7 : Nat) ≠ clean.par.crTxe :=
  ⟨clean_inv, by decide, ⟨_, rfl⟩, by decide⟩

theorem witness_StreamsOnlyGrow : ∃ t, step (cancelled .rxK0) = .next t := ⟨_, rfl⟩

theorem witness_RequestsAreMicroOperations : (atLabel .rxRsr).par.Valid ∧ ∃ t, step (atLabel .rxRsr) = .next t :=
  ⟨Params.default_valid, _, rfl⟩

theorem witness_SenseReportsBusy :
    (presented 0x00000001#32).par.Valid ∧
    EngineOnly (presented 0x00000001#32) ∧ (presented 0x00000001#32).pc = .idle ∧ PReady (presented 0x00000001#32) ∧
    (presented 0x00000001#32).host.cmd = some 0x00000001#32 :=
  ⟨Params.default_valid, by decide⟩

/-- A received byte waits and a command word stands at the port. -/
def waiting (cw : Word) : State :=
  { presented cw with bsc := { clean.bsc with rxq := [1#8, 2#8], oe := true } }

theorem witness_ReceivePollerReturnsMin : (waiting 0x00040006#32).par.Valid ∧
    EngineOnly (waiting 0x00040006#32) ∧ (waiting 0x00040006#32).pc = .idle ∧ (waiting 0x00040006#32).half = false ∧
    PReady (waiting 0x00040006#32) ∧ (waiting 0x00040006#32).host.cancel = false ∧
    (waiting 0x00040006#32).host.cmd = some ((4#16).setWidth 32 <<< 16 ||| 0x6#32) ∧
    min (4#16).toNat (waiting 0x00040006#32).bsc.rxq.length = 2 ∧
    (waiting 0x00010006#32).host.cmd = some ((1#16).setWidth 32 <<< 16 ||| 0x6#32) ∧
    min (1#16).toNat (waiting 0x00010006#32).bsc.rxq.length = 1 ∧
    (waiting 0x00020006#32).host.cmd = some ((2#16).setWidth 32 <<< 16 ||| 0x6#32) ∧
    min (2#16).toNat (waiting 0x00020006#32).bsc.rxq.length = 2 ∧
    (waiting 0x00000006#32).host.cmd = some ((0#16).setWidth 32 <<< 16 ||| 0x6#32) := ⟨Params.default_valid, by decide⟩

theorem witness_FlushEmptiesTransmitPath :
    (atLabel .txFcond).par.Valid ∧
    EngineOnly (atLabel .txFcond) ∧ (atLabel .txFcond).pc = .txFcond ∧ (atLabel .txFcond).half = false ∧
    (atLabel .txFcond).host.ready = true ∧ (atLabel .txFcond).bsc.cr.getLsbD Params.default.crTxe = true ∧
    (atLabel .txFcond).bsc.cr.getLsbD Params.default.crBrk = false ∧ (atLabel .txFcond).eng.count < 2 ^ 31 :=
  ⟨Params.default_valid, by decide⟩

theorem witness_StreamWithRequestPendingOffersNothing :
    (waiting 0x00100003#32).par.Valid ∧
    EngineOnly (waiting 0x00100003#32) ∧ (waiting 0x00100003#32).pc = .idle ∧ (waiting 0x00100003#32).half = false ∧
    PReady (waiting 0x00100003#32) ∧ (waiting 0x00100003#32).host.cancel = false ∧
    (waiting 0x00100003#32).bsc.cr.getLsbD Params.default.crBrk = false ∧ (waiting 0x00100003#32).bsc.rxq ≠ [] ∧
    (waiting 0x00100003#32).host.cmd = some ((0x0010#16).setWidth 32 <<< 16 ||| 0x3#32) :=
  ⟨Params.default_valid, by decide⟩

end Sys2Proof.Tests
end

