-- ==== Sys2Proof/Proofs/RegisterAccess.lean ====
section
/-! PROOFS. The register accesses of 20_memory.md section 2: the reads `RD_RSR`, `RD_DR`, `RD_CR` and the write of RSR. -/

namespace Sys2Proof.Machine

/-! ### A register read into a working register -/

/-- A read that answers puts its value into the working register, in the state the read leaves. -/
theorem readInto_of_ok {r : Reg} {s t : State} {v : Word} (put : Word → Engine → Engine)
    (h : regRead r s = .ok (v, t)) : readInto r put s = .next { t with eng := put v t.eng } := by
  simp only [readInto, h]

theorem readInto_of_error {r : Reg} {s : State} {e : Fault} (put : Word → Engine → Engine)
    (h : regRead r s = .error e) : readInto r put s = .fault e := by
  simp only [readInto, h]

theorem exec_rdRsr (s : State) : exec .rdRsr s = readInto .rsr (fun v e => { e with r := v }) s := rfl

theorem exec_rdDr (s : State) : exec .rdDr s = readInto .dr (fun v e => { e with d := v }) s := rfl

theorem exec_rdCr (s : State) : exec .rdCr s = readInto .cr (fun v e => { e with c := v }) s := rfl

/-- 30:R103: bits 7:0 of a DR snapshot are its byte. -/
theorem extractLsb'_eq_dataOf (d : Word) : d.extractLsb' 0 8 = dataOf d :=
  (BitVec.setWidth_eq_extractLsb' (by decide)).symm

/-! ### The obligations -/

/-- Settles O14: the value read is `rsrValue` of the BSC, whose bits 0 and 1 are the flags whatever the free bits are. -/
theorem readRawStatus : Obligations.ReadRawStatus := by
  intro s hready
  have hstep := (exec_rdRsr s).trans (readInto_of_ok _ (regRead_rsr s hready))
  exact ⟨_, hstep, oeOf_rsrValue s.bsc (drawWord s), ueOf_rsrValue s.bsc (drawWord s), rfl⟩

/-- Settles O15: the two answers of a read of DR, by the state of the receive FIFO. -/
theorem readDataRegister : Obligations.ReadDataRegister := by
  intro s hready
  refine ⟨fun b rest hq => ?_, fun hq => ?_⟩
  · have hstep := (exec_rdDr s).trans (readInto_of_ok _ (regRead_dr s hready hq))
    have hbyte : (drValue b (drawWord s)).extractLsb' 0 8 = b :=
      (extractLsb'_eq_dataOf _).trans (dataOf_drValue b _)
    exact ⟨_, hstep, hbyte, rfl⟩
  · exact (exec_rdDr s).trans (readInto_of_error _ (regRead_dr_empty s hready hq))

/-- Settles O16: a read of CR uses no free value, so the next state is fully determined. -/
theorem readControlRegister : Obligations.ReadControlRegister := fun s hready =>
  (exec_rdCr s).trans (readInto_of_ok _ (regRead_cr s hready))

/-- Settles O19: a mapped write of RSR always completes, and its effect on the BSC is `rsrWritten`. -/
theorem rawStatusWriteClearsOnly : Obligations.RawStatusWriteClearsOnly := fun s v hready =>
  ⟨_, regWrite_rsr v s hready, rfl, rfl⟩

end Sys2Proof.Machine
end

