-- ==== Sys2Proof/Proofs/CommandDecoding.lean ====
section
/-! PROOFS. The command map of 30_encoding.md R93: what the decoder answers for a command word, by the row that selects it. -/

namespace Sys2Proof

/-- 30:R93: when a row selects a word. -/
theorem Row.selects_iff {n : Nat} (r : Row n) (w : BitVec n) : r.selects w = true ↔ w &&& r.mask = r.value :=
  beq_iff_eq

/-! ### No word is selected by two rows, since each row fixes `OP` -/

theorem not_rowSense_selects_of_rowRxpoll {w : Word} (h : rowRxpoll.selects w = true) : ¬ rowSense.selects w = true := by
  obtain ⟨hop, -⟩ := (rowRxpoll_selects w).mp h
  simp [rowSense_selects, hop]

theorem not_selects_of_rowTxstream {w : Word} (h : rowTxstream.selects w = true) :
    ¬ rowSense.selects w = true ∧ ¬ rowRxpoll.selects w = true := by
  obtain ⟨hop, -⟩ := (rowTxstream_selects w).mp h
  simp [rowSense_selects, rowRxpoll_selects, hop]

/-! ### What a command word decodes to -/

theorem decodeCommand_of_rowSense {w : Word} (h : rowSense.selects w = true) : decodeCommand w = .ok .sense :=
  if_pos h

theorem decodeCommand_of_rowRxpoll {w : Word} (h : rowRxpoll.selects w = true) :
    decodeCommand w = .ok (.rxpoll (cmdBp w) (cmdArg w)) := by
  rw [decodeCommand, if_neg (not_rowSense_selects_of_rowRxpoll h), if_pos h]

theorem decodeCommand_of_rowTxstream {w : Word} (h : rowTxstream.selects w = true) :
    decodeCommand w = .ok (.txstream (cmdArg w)) := by
  obtain ⟨hs, hr⟩ := not_selects_of_rowTxstream h
  rw [decodeCommand, if_neg hs, if_neg hr, if_pos h]

/-- A word that decodes is selected by a row, and decodes to that row's command with the word's own fields. -/
theorem decodeCommand_ok_cases {w : Word} {i : Instr} (h : decodeCommand w = .ok i) :
    (rowSense.selects w = true ∧ i = .sense) ∨
    (rowRxpoll.selects w = true ∧ i = .rxpoll (cmdBp w) (cmdArg w)) ∨
    (rowTxstream.selects w = true ∧ i = .txstream (cmdArg w)) := by
  unfold decodeCommand at h
  split at h
  next hs => exact .inl ⟨hs, (Except.ok.inj h).symm⟩
  next =>
    split at h
    next hr => exact .inr (.inl ⟨hr, (Except.ok.inj h).symm⟩)
    next =>
      split at h
      next ht => exact .inr (.inr ⟨ht, (Except.ok.inj h).symm⟩)
      next => cases h

theorem decodeCommand_eq_sense_iff (w : Word) : decodeCommand w = .ok .sense ↔ rowSense.selects w = true := by
  refine ⟨fun h => ?_, decodeCommand_of_rowSense⟩
  obtain ⟨hs, -⟩ | ⟨-, hi⟩ | ⟨-, hi⟩ := decodeCommand_ok_cases h
  · exact hs
  · cases hi
  · cases hi

theorem exists_decodeCommand_eq_rxpoll_iff (w : Word) :
    (∃ bp arg, decodeCommand w = .ok (.rxpoll bp arg)) ↔ rowRxpoll.selects w = true := by
  refine ⟨fun ⟨bp, arg, h⟩ => ?_, fun h => ⟨_, _, decodeCommand_of_rowRxpoll h⟩⟩
  obtain ⟨-, hi⟩ | ⟨hr, -⟩ | ⟨-, hi⟩ := decodeCommand_ok_cases h
  · cases hi
  · exact hr
  · cases hi

theorem exists_decodeCommand_eq_txstream_iff (w : Word) :
    (∃ a, decodeCommand w = .ok (.txstream a)) ↔ rowTxstream.selects w = true := by
  refine ⟨fun ⟨a, h⟩ => ?_, fun h => ⟨_, decodeCommand_of_rowTxstream h⟩⟩
  obtain ⟨-, hi⟩ | ⟨-, hi⟩ | ⟨ht, -⟩ := decodeCommand_ok_cases h
  · cases hi
  · cases hi
  · exact ht

/-- Settles O2: each command is decoded exactly when its row selects the word, and a row selects by its mask and match. -/
theorem commandWordSelectsItsRow : Obligations.CommandWordSelectsItsRow := fun w =>
  ⟨(decodeCommand_eq_sense_iff w).trans (rowSense.selects_iff w),
    (exists_decodeCommand_eq_rxpoll_iff w).trans (rowRxpoll.selects_iff w),
    (exists_decodeCommand_eq_txstream_iff w).trans (rowTxstream.selects_iff w)⟩

end Sys2Proof
end

