-- ==== Sys2Proof/Proofs/MasterTransfers.lean ====
section
/-! PROOFS. The bytes the I2C master moves: `M.WRITE` (45:R223) and `M.READ` while TXE = 0 (45:R229). -/

namespace Sys2Proof.Machine

/-- The master's turn at the head of the list is taken with that turn used up. -/
theorem step_of_master {s : State} {m : MasterStep} {rest : List Turn} (h : s.env.script = .master m :: rest) :
    step s = masterStep m (withScript rest s) := by
  simp only [step, h]

/-! ### A byte from the master -/

theorem masterWrite_of_setUp (b : Byte) {s : State} (hbus : s.bsc.bus = .masterWriting)
    (hset : receiveSetUp s.par s.bsc.cr = true) :
    masterWrite b s = .next { s with bsc := byteArrives s.par b s.bsc } := by
  rw [masterWrite, if_pos hbus, if_pos hset]

/-! ### A byte clocked out to the master -/

theorem masterRead_of_setUp {s : State} (hbus : s.bsc.bus = .slaveWriting)
    (hset : protocolSetUp s.par s.bsc.cr = true) : masterRead s = .next (byteClockedOut s) := by
  rw [masterRead, if_pos hbus, if_pos hset]

/-- 45:R229: the bit that may set `UE` is the draw after the one that supplies the byte. -/
theorem byteClockedOut_of_not_txe {s : State} (htxe : txeOf s.par s.bsc.cr = false) :
    byteClockedOut s = usedDraws 2 (masterReceives (dataOf (drawWord s))
      { s with bsc := { s.bsc with ue := (Config.freeWord (s.env.draws + 1)).getLsbD 0 || s.bsc.ue } }) := by
  rw [byteClockedOut, if_neg (ne_true_of_eq_false htxe)]

/-! ### The obligations -/

/-- Settles O41: the turn's outcome is `byteArrives`, which appends below the depth and sets `OE` at it. -/
theorem masterWrite_appends_or_sets_oe : Obligations.MasterWrite := by
  intro s b rest hturn hbus hset
  exact (step_of_master hturn).trans (masterWrite_of_setUp b (s := withScript rest s) hbus hset)

/-- Settles O43: the byte and the bit are two draws, and the bit is joined to `UE` by an OR, so `UE` cannot fall. -/
theorem masterReadWhileDisabled : Obligations.MasterReadWhileDisabled := by
  intro s rest hturn hbus htxe hset
  have hstep : step s = .next (byteClockedOut (withScript rest s)) :=
    (step_of_master hturn).trans (masterRead_of_setUp (s := withScript rest s) hbus hset)
  rw [byteClockedOut_of_not_txe (s := withScript rest s) htxe] at hstep
  refine ⟨_, _, hstep, fun hue => ?_, rfl⟩
  simp [hue]

end Sys2Proof.Machine
end

