-- ==== Sys2Proof/Proofs/RequestDecoding.lean ====
section
/-! PROOFS. The bus map of 30_encoding.md R97: which row selects a request word and what the word then decodes to; the
reserved command words of R94; the round trip through the encoder. -/

namespace Sys2Proof

/-! ### The rows of 30:R97, by the fields of the word -/

section Rows
variable {p : Params} (h : p.Valid) (w : Request)
include h

theorem rowRdRsr_selects : (rowRdRsr p).selects w = true ↔ reqWe w = false ∧ reqIdx w = p.idxRsr := by
  obtain ⟨⟨-, hrsr, -⟩, -⟩ := indices_apart h
  simp [rowRdRsr, busRow_selects_iff, Nat.mod_eq_of_lt hrsr]

theorem rowRdCr_selects : (rowRdCr p).selects w = true ↔ reqWe w = false ∧ reqIdx w = p.idxCr := by
  obtain ⟨⟨-, -, hcr, -⟩, -⟩ := indices_apart h
  simp [rowRdCr, busRow_selects_iff, Nat.mod_eq_of_lt hcr]

theorem rowRdFr_selects : (rowRdFr p).selects w = true ↔ reqWe w = false ∧ reqIdx w = p.idxFr := by
  obtain ⟨⟨-, -, -, hfr⟩, -⟩ := indices_apart h
  simp [rowRdFr, busRow_selects_iff, Nat.mod_eq_of_lt hfr]

theorem rowWrDr_selects : (rowWrDr p).selects w = true ↔
    reqWe w = true ∧ reqIdx w = p.idxDr ∧ reqData w &&& 0xFFFFFF00#32 = 0#32 := by
  obtain ⟨⟨hdr, -⟩, -⟩ := indices_apart h
  rw [rowWrDr, busRow_selects_iff, Nat.mod_eq_of_lt hdr]

theorem clearRow_selects (mn : String) (v : Word) : (busRow mn true p.idxRsr 0xFFFFFFFF#32 v).selects w = true ↔
    reqWe w = true ∧ reqIdx w = p.idxRsr ∧ reqData w = v := by
  obtain ⟨⟨-, hrsr, -⟩, -⟩ := indices_apart h
  rw [busRow_selects_iff, Nat.mod_eq_of_lt hrsr, show 0xFFFFFFFF#32 = BitVec.allOnes 32 from rfl, BitVec.and_allOnes]

theorem rowTxeOff_selects : (rowTxeOff p).selects w = true ↔
    reqWe w = true ∧ reqIdx w = p.idxCr ∧ (reqData w).getLsbD p.crTxe = false := by
  obtain ⟨⟨-, -, hcr, -⟩, -⟩ := indices_apart h
  rw [rowTxeOff, busRow_selects_iff, Nat.mod_eq_of_lt hcr, and_bit]
  cases (reqData w).getLsbD p.crTxe <;> simp [bitTxe_ne_zero h]

theorem rowTxeOn_selects : (rowTxeOn p).selects w = true ↔
    reqWe w = true ∧ reqIdx w = p.idxCr ∧ (reqData w).getLsbD p.crTxe = true := by
  obtain ⟨⟨-, -, hcr, -⟩, -⟩ := indices_apart h
  rw [rowTxeOn, busRow_selects_iff, Nat.mod_eq_of_lt hcr, and_bit]
  cases (reqData w).getLsbD p.crTxe <;> simp [(bitTxe_ne_zero h).symm]

end Rows

/-! ### What a request word decodes to -/

/-- A word that decodes is selected by a row, and decodes to that row's micro-operation with the word's own data. -/
theorem decodeRequest_ok_cases {p : Params} {w : Request} {i : Instr} (h : decodeRequest p w = .ok i) :
    ((rowRdDr p).selects w = true ∧ i = .rdDr) ∨ ((rowRdRsr p).selects w = true ∧ i = .rdRsr) ∨
    ((rowRdCr p).selects w = true ∧ i = .rdCr) ∨ ((rowRdFr p).selects w = true ∧ i = .rdFr) ∨
    ((rowWrDr p).selects w = true ∧ i = .wrDr ((reqData w).setWidth 8)) ∨
    ((rowClrOe p).selects w = true ∧ i = .clrOe) ∨ ((rowClrUe p).selects w = true ∧ i = .clrUe) ∨
    ((rowTxeOff p).selects w = true ∧ i = .txeOff (reqData w)) ∨
    ((rowTxeOn p).selects w = true ∧ i = .txeOn (reqData w)) := by
  unfold decodeRequest at h
  split_ifs at h with h1 h2 h3 h4 h5 h6 h7 h8 h9 <;> cases h <;> simp [*]

/-- A request word decodes to no command. -/
theorem decodeRequest_isBusOp {p : Params} {w : Request} {i : Instr} (h : decodeRequest p w = .ok i) :
    Machine.isBusOp i = true := by
  obtain ⟨-, rfl⟩ | ⟨-, rfl⟩ | ⟨-, rfl⟩ | ⟨-, rfl⟩ | ⟨-, rfl⟩ | ⟨-, rfl⟩ | ⟨-, rfl⟩ | ⟨-, rfl⟩ | ⟨-, rfl⟩ :=
    decodeRequest_ok_cases h <;> rfl

theorem decodeRequest_of_rowRdDr {p : Params} {w : Request} (hs : (rowRdDr p).selects w = true) :
    decodeRequest p w = .ok .rdDr :=
  if_pos hs

section Decoding
variable {p : Params} (h : p.Valid) {w : Request}
include h

theorem decodeRequest_of_rowRdRsr (hs : (rowRdRsr p).selects w = true) : decodeRequest p w = .ok .rdRsr := by
  obtain ⟨hwe, hidx⟩ := (rowRdRsr_selects h w).mp hs
  obtain ⟨-, hdr, -⟩ := indices_apart h
  simp [decodeRequest_fields h, hwe, hidx, hdr.symm]

theorem decodeRequest_of_rowRdCr (hs : (rowRdCr p).selects w = true) : decodeRequest p w = .ok .rdCr := by
  obtain ⟨hwe, hidx⟩ := (rowRdCr_selects h w).mp hs
  obtain ⟨-, -, hdr, -, hrsr, -⟩ := indices_apart h
  simp [decodeRequest_fields h, hwe, hidx, hdr.symm, hrsr.symm]

theorem decodeRequest_of_rowRdFr (hs : (rowRdFr p).selects w = true) : decodeRequest p w = .ok .rdFr := by
  obtain ⟨hwe, hidx⟩ := (rowRdFr_selects h w).mp hs
  obtain ⟨-, -, -, hdr, -, hrsr, hcr⟩ := indices_apart h
  simp [decodeRequest_fields h, hwe, hidx, hdr.symm, hrsr.symm, hcr.symm]

theorem decodeRequest_of_rowWrDr (hs : (rowWrDr p).selects w = true) :
    decodeRequest p w = .ok (.wrDr ((reqData w).setWidth 8)) := by
  obtain ⟨hwe, hidx, hdata⟩ := (rowWrDr_selects h w).mp hs
  simp [decodeRequest_fields h, hwe, hidx, hdata]

theorem decodeRequest_of_rowClrOe (hs : (rowClrOe p).selects w = true) : decodeRequest p w = .ok .clrOe := by
  obtain ⟨hwe, hidx, hdata⟩ := (clearRow_selects h w _ _).mp hs
  obtain ⟨-, hdr, -⟩ := indices_apart h
  simp [decodeRequest_fields h, hwe, hidx, hdata, hdr.symm]

theorem decodeRequest_of_rowClrUe (hs : (rowClrUe p).selects w = true) : decodeRequest p w = .ok .clrUe := by
  obtain ⟨hwe, hidx, hdata⟩ := (clearRow_selects h w _ _).mp hs
  obtain ⟨-, hdr, -⟩ := indices_apart h
  have hne : clearUeWord ≠ clearOeWord := by decide
  simp [decodeRequest_fields h, hwe, hidx, hdata, hdr.symm, hne]

theorem decodeRequest_of_rowTxeOff (hs : (rowTxeOff p).selects w = true) :
    decodeRequest p w = .ok (.txeOff (reqData w)) := by
  obtain ⟨hwe, hidx, htxe⟩ := (rowTxeOff_selects h w).mp hs
  obtain ⟨-, -, hdr, -, hrsr, -⟩ := indices_apart h
  simp [decodeRequest_fields h, hwe, hidx, and_bit, htxe, hdr.symm, hrsr.symm]

theorem decodeRequest_of_rowTxeOn (hs : (rowTxeOn p).selects w = true) :
    decodeRequest p w = .ok (.txeOn (reqData w)) := by
  obtain ⟨hwe, hidx, htxe⟩ := (rowTxeOn_selects h w).mp hs
  obtain ⟨-, -, hdr, -, hrsr, -⟩ := indices_apart h
  simp [decodeRequest_fields h, hwe, hidx, and_bit, htxe, bitTxe_ne_zero h, hdr.symm, hrsr.symm]

/-! ### Each row decodes exactly the words it selects -/

omit h in
theorem decodeRequest_eq_rdDr_iff : decodeRequest p w = .ok .rdDr ↔ (rowRdDr p).selects w = true :=
  ⟨fun hd => by simpa using decodeRequest_ok_cases hd, decodeRequest_of_rowRdDr⟩

theorem decodeRequest_eq_rdRsr_iff : decodeRequest p w = .ok .rdRsr ↔ (rowRdRsr p).selects w = true :=
  ⟨fun hd => by simpa using decodeRequest_ok_cases hd, decodeRequest_of_rowRdRsr h⟩

theorem decodeRequest_eq_rdCr_iff : decodeRequest p w = .ok .rdCr ↔ (rowRdCr p).selects w = true :=
  ⟨fun hd => by simpa using decodeRequest_ok_cases hd, decodeRequest_of_rowRdCr h⟩

theorem decodeRequest_eq_rdFr_iff : decodeRequest p w = .ok .rdFr ↔ (rowRdFr p).selects w = true :=
  ⟨fun hd => by simpa using decodeRequest_ok_cases hd, decodeRequest_of_rowRdFr h⟩

theorem exists_decodeRequest_eq_wrDr_iff :
    (∃ b, decodeRequest p w = .ok (.wrDr b)) ↔ (rowWrDr p).selects w = true :=
  ⟨fun ⟨_, hd⟩ => And.left (by simpa using decodeRequest_ok_cases hd), fun hs => ⟨_, decodeRequest_of_rowWrDr h hs⟩⟩

theorem decodeRequest_eq_clrOe_iff : decodeRequest p w = .ok .clrOe ↔ (rowClrOe p).selects w = true :=
  ⟨fun hd => by simpa using decodeRequest_ok_cases hd, decodeRequest_of_rowClrOe h⟩

theorem decodeRequest_eq_clrUe_iff : decodeRequest p w = .ok .clrUe ↔ (rowClrUe p).selects w = true :=
  ⟨fun hd => by simpa using decodeRequest_ok_cases hd, decodeRequest_of_rowClrUe h⟩

theorem exists_decodeRequest_eq_txeOff_iff :
    (∃ v, decodeRequest p w = .ok (.txeOff v)) ↔ (rowTxeOff p).selects w = true :=
  ⟨fun ⟨_, hd⟩ => And.left (by simpa using decodeRequest_ok_cases hd), fun hs => ⟨_, decodeRequest_of_rowTxeOff h hs⟩⟩

theorem exists_decodeRequest_eq_txeOn_iff :
    (∃ v, decodeRequest p w = .ok (.txeOn v)) ↔ (rowTxeOn p).selects w = true :=
  ⟨fun ⟨_, hd⟩ => And.left (by simpa using decodeRequest_ok_cases hd), fun hs => ⟨_, decodeRequest_of_rowTxeOn h hs⟩⟩

/-- A word decodes to no instruction exactly when no row selects it. -/
theorem decodeRequest_rejects_iff : (∀ i, decodeRequest p w ≠ .ok i) ↔
    ¬ ((rowRdDr p).selects w = true ∨ (rowRdRsr p).selects w = true ∨ (rowRdCr p).selects w = true ∨
      (rowRdFr p).selects w = true ∨ (rowWrDr p).selects w = true ∨ (rowClrOe p).selects w = true ∨
      (rowClrUe p).selects w = true ∨ (rowTxeOff p).selects w = true ∨ (rowTxeOn p).selects w = true) := by
  constructor
  · rintro hnone (hs | hs | hs | hs | hs | hs | hs | hs | hs)
    · exact hnone _ (decodeRequest_of_rowRdDr hs)
    · exact hnone _ (decodeRequest_of_rowRdRsr h hs)
    · exact hnone _ (decodeRequest_of_rowRdCr h hs)
    · exact hnone _ (decodeRequest_of_rowRdFr h hs)
    · exact hnone _ (decodeRequest_of_rowWrDr h hs)
    · exact hnone _ (decodeRequest_of_rowClrOe h hs)
    · exact hnone _ (decodeRequest_of_rowClrUe h hs)
    · exact hnone _ (decodeRequest_of_rowTxeOff h hs)
    · exact hnone _ (decodeRequest_of_rowTxeOn h hs)
  · intro hrows i hd
    refine hrows ?_
    obtain ⟨hs, -⟩ | ⟨hs, -⟩ | ⟨hs, -⟩ | ⟨hs, -⟩ | ⟨hs, -⟩ | ⟨hs, -⟩ | ⟨hs, -⟩ | ⟨hs, -⟩ | ⟨hs, -⟩ :=
      decodeRequest_ok_cases hd <;> simp only [hs, true_or, or_true]

end Decoding

/-! ### The rows as masks and matches -/

/-- The opcode map of 30:R97 through the masks and matches of its rows. -/
theorem decodeRequest_selectsItsRow {p : Params} (h : p.Valid) (w : Request) :
    (decodeRequest p w = .ok .rdDr ↔ w &&& (rowRdDr p).mask = (rowRdDr p).value) ∧
    (decodeRequest p w = .ok .rdRsr ↔ w &&& (rowRdRsr p).mask = (rowRdRsr p).value) ∧
    (decodeRequest p w = .ok .rdCr ↔ w &&& (rowRdCr p).mask = (rowRdCr p).value) ∧
    (decodeRequest p w = .ok .rdFr ↔ w &&& (rowRdFr p).mask = (rowRdFr p).value) ∧
    ((∃ b, decodeRequest p w = .ok (.wrDr b)) ↔ w &&& (rowWrDr p).mask = (rowWrDr p).value) ∧
    (decodeRequest p w = .ok .clrOe ↔ w &&& (rowClrOe p).mask = (rowClrOe p).value) ∧
    (decodeRequest p w = .ok .clrUe ↔ w &&& (rowClrUe p).mask = (rowClrUe p).value) ∧
    ((∃ v, decodeRequest p w = .ok (.txeOff v)) ↔ w &&& (rowTxeOff p).mask = (rowTxeOff p).value) ∧
    ((∃ v, decodeRequest p w = .ok (.txeOn v)) ↔ w &&& (rowTxeOn p).mask = (rowTxeOn p).value) ∧
    ((∀ i, decodeRequest p w ≠ .ok i) ↔
      ¬ (w &&& (rowRdDr p).mask = (rowRdDr p).value ∨ w &&& (rowRdRsr p).mask = (rowRdRsr p).value ∨
         w &&& (rowRdCr p).mask = (rowRdCr p).value ∨ w &&& (rowRdFr p).mask = (rowRdFr p).value ∨
         w &&& (rowWrDr p).mask = (rowWrDr p).value ∨ w &&& (rowClrOe p).mask = (rowClrOe p).value ∨
         w &&& (rowClrUe p).mask = (rowClrUe p).value ∨ w &&& (rowTxeOff p).mask = (rowTxeOff p).value ∨
         w &&& (rowTxeOn p).mask = (rowTxeOn p).value)) := by
  simp only [← Row.selects_iff]
  exact ⟨decodeRequest_eq_rdDr_iff, decodeRequest_eq_rdRsr_iff h, decodeRequest_eq_rdCr_iff h,
    decodeRequest_eq_rdFr_iff h, exists_decodeRequest_eq_wrDr_iff h, decodeRequest_eq_clrOe_iff h,
    decodeRequest_eq_clrUe_iff h, exists_decodeRequest_eq_txeOff_iff h, exists_decodeRequest_eq_txeOn_iff h,
    decodeRequest_rejects_iff h⟩

/-- The rows of `CLR_OE` and `CLR_UE` fix the whole word. -/
theorem and_clearMask (p : Params) (w : Request) : w &&& (rowClrOe p).mask = w ∧ w &&& (rowClrUe p).mask = w :=
  ⟨BitVec.and_allOnes, BitVec.and_allOnes⟩

/-- Settles O3: the rows' masks and matches are the words written out, for the defaults by computation. -/
theorem requestWordSelectsItsRow : Obligations.RequestWordSelectsItsRow := by
  refine ⟨fun w => decodeRequest_selectsItsRow Params.default_valid w, fun p w h => ?_⟩
  have hmap := decodeRequest_selectsItsRow h w
  rw [(and_clearMask p w).1, (and_clearMask p w).2] at hmap
  exact hmap

/-! ### The round trip -/

/-- A word with TXE clear is what `AND NOT bit(CR_TXE)` leaves of it. -/
theorem toggleOff_of_not_txe (p : Params) (c : Word) (h : Machine.txeOf p c = false) : Machine.toggleOffWord p c = c := by
  apply BitVec.eq_of_getLsbD_eq
  intro i hi
  rw [Machine.toggleOffWord_getLsbD p c hi]
  by_cases hk : i = p.crTxe
  · subst hk
    simpa [Machine.txeOf] using h.symm
  · simp [hk]

theorem decodeRequest_txeOff {p : Params} (h : p.Valid) {v : Word} (hv : v.getLsbD p.crTxe = false) :
    decodeRequest p (Machine.writeRequest p .cr v) = .ok (.txeOff v) := by
  have hd := Machine.decodeRequest_toggleOff h v
  rwa [toggleOff_of_not_txe p v hv] at hd

theorem decodeRequest_txeOn {p : Params} (h : p.Valid) {v : Word} (hv : v.getLsbD p.crTxe = true) :
    decodeRequest p (Machine.writeRequest p .cr v) = .ok (.txeOn v) := by
  have hd := Machine.decodeRequest_toggleOn h v
  rwa [Machine.toggleOn_of_txe p v hv] at hd

theorem decodeCommand_commandWord_sense : decodeCommand (commandWord 0#16 false 1#2) = .ok .sense :=
  decodeCommand_of_rowSense (by simp [rowSense_selects, cmdZ_commandWord])

theorem decodeCommand_commandWord_rxpoll (bp : Bool) (arg : BitVec 16) :
    decodeCommand (commandWord arg bp 2#2) = .ok (.rxpoll bp arg) := by
  rw [decodeCommand_of_rowRxpoll (by simp [rowRxpoll_selects, cmdZ_commandWord]), cmdBp_commandWord, cmdArg_commandWord]

theorem decodeCommand_commandWord_txstream (addr : Addr) :
    decodeCommand (commandWord addr false 3#2) = .ok (.txstream addr) := by
  rw [decodeCommand_of_rowTxstream (by simp [rowTxstream_selects, cmdZ_commandWord]), cmdArg_commandWord]

/-- Settles O1: constructor by constructor, the encoder's word is the word of that constructor's row. -/
theorem decodeEncodeRoundTrip : Obligations.DecodeEncodeRoundTrip := by
  intro p i h hwf
  cases i with
  | sense => exact decodeCommand_commandWord_sense
  | rxpoll bp arg => exact decodeCommand_commandWord_rxpoll bp arg
  | txstream addr => exact decodeCommand_commandWord_txstream addr
  | rdDr => exact Machine.decodeRequest_read_dr h
  | rdRsr => exact Machine.decodeRequest_read_rsr h
  | rdCr => exact Machine.decodeRequest_read_cr h
  | rdFr => exact Machine.decodeRequest_read_fr h
  | wrDr b => exact Machine.decodeRequest_push h b
  | clrOe => exact Machine.decodeRequest_clearOe h
  | clrUe => exact Machine.decodeRequest_clearUe h
  | txeOff w => exact decodeRequest_txeOff h (by simpa [Instr.wellFormed] using hwf)
  | txeOn w => exact decodeRequest_txeOn h hwf

/-! ### Operands, reserved words, and the words of the tables -/

/-- What a request word decodes to is well-formed: the row of a toggle fixes the bit of TXE. -/
theorem decodeRequest_wellFormed {p : Params} (h : p.Valid) {w : Request} {i : Instr}
    (hd : decodeRequest p w = .ok i) : i.wellFormed p = true := by
  cases i with
  | txeOff v =>
    obtain ⟨hs, rfl⟩ : (rowTxeOff p).selects w = true ∧ v = reqData w := by simpa using decodeRequest_ok_cases hd
    simpa [Instr.wellFormed] using ((rowTxeOff_selects h w).mp hs).2.2
  | txeOn v =>
    obtain ⟨hs, rfl⟩ : (rowTxeOn p).selects w = true ∧ v = reqData w := by simpa using decodeRequest_ok_cases hd
    exact ((rowTxeOn_selects h w).mp hs).2.2
  | sense | rxpoll | txstream | rdDr | rdRsr | rdCr | rdFr | wrDr | clrOe | clrUe => rfl

/-- 30:R96: bits 7:0 of a request word are those of its WDATA. -/
theorem setWidth_reqData (w : Request) : (reqData w).setWidth 8 = w.extractLsb' 0 8 := by
  ext i hi
  have hi32 : i < 32 := by omega
  simp [reqData, hi32]

/-- Settles O4: a decoded word has its own fields as operands, and the row of a toggle fixes the bit of TXE. -/
theorem operandsAreTheFields : Obligations.OperandsAreTheFields := by
  refine ⟨fun w bp arg hd => ?_, fun w a hd => ?_, fun p w b hd => ?_, fun p w v h hd => ?_, fun p w v h hd => ?_⟩
  · have hcase : rowRxpoll.selects w = true ∧ bp = cmdBp w ∧ arg = cmdArg w := by simpa using decodeCommand_ok_cases hd
    exact hcase.2
  · have hcase : rowTxstream.selects w = true ∧ a = cmdArg w := by simpa using decodeCommand_ok_cases hd
    exact hcase.2
  · have hcase : (rowWrDr p).selects w = true ∧ b = (reqData w).setWidth 8 := by simpa using decodeRequest_ok_cases hd
    exact hcase.2.trans (setWidth_reqData w)
  · have hcase : (rowTxeOff p).selects w = true ∧ v = reqData w := by simpa using decodeRequest_ok_cases hd
    exact ⟨hcase.2, by simpa [Instr.wellFormed] using decodeRequest_wellFormed h hd⟩
  · have hcase : (rowTxeOn p).selects w = true ∧ v = reqData w := by simpa using decodeRequest_ok_cases hd
    exact ⟨hcase.2, decodeRequest_wellFormed h hd⟩

/-- A command word is reserved exactly when no row of 30:R93 selects it. -/
theorem decodeCommand_rejects_iff (w : Word) : (∀ i, decodeCommand w ≠ .ok i) ↔
    ¬ (rowSense.selects w = true ∨ rowRxpoll.selects w = true ∨ rowTxstream.selects w = true) := by
  constructor
  · rintro hnone (hs | hs | hs)
    · exact hnone _ (decodeCommand_of_rowSense hs)
    · exact hnone _ (decodeCommand_of_rowRxpoll hs)
    · exact hnone _ (decodeCommand_of_rowTxstream hs)
  · intro hrows i hd
    obtain ⟨hs, -⟩ | ⟨hs, -⟩ | ⟨hs, -⟩ := decodeCommand_ok_cases hd
    · exact hrows (.inl hs)
    · exact hrows (.inr (.inl hs))
    · exact hrows (.inr (.inr hs))

/-- The four values of `OP`. -/
theorem op_cases (op : BitVec 2) : op = 0#2 ∨ op = 1#2 ∨ op = 2#2 ∨ op = 3#2 := by
  decide +revert

/-- Settles O5: by the value of `OP`, the fields a row asks for are the negation of the class of R94. -/
theorem reservedCommandWords : Obligations.ReservedCommandWords := by
  intro w
  change _ ↔ cmdOp w = 0#2 ∨ cmdZ w ≠ 0#13 ∨ (cmdOp w = 1#2 ∧ (cmdBp w = true ∨ cmdArg w ≠ 0#16)) ∨
    (cmdOp w = 3#2 ∧ cmdBp w = true)
  rw [decodeCommand_rejects_iff, rowSense_selects, rowRxpoll_selects, rowTxstream_selects]
  obtain hop | hop | hop | hop := op_cases (cmdOp w)
  · simp [hop]
  · cases cmdBp w <;> simp [hop, imp_iff_not_or]
  · simp [hop]
  · cases cmdBp w <;> simp [hop]

/-- Settles O6: the decoder computes each of the words. -/
theorem tableWordsDecode : Obligations.TableWordsDecode := by
  unfold Obligations.TableWordsDecode
  decide

end Sys2Proof
end

