-- ==== Sys2Proof/Proofs/BusOperations.lean ====
section
/-! PROOFS. The nine bus micro-operations of 40_microops.md section 1: what each one leaves when it completes, when it
stops, and what none of them touches. -/

namespace Sys2Proof.Machine

/-! ### Each micro-operation is one register access -/

theorem exec_rdFr (s : State) : exec .rdFr s = readInto .fr (fun v e => { e with f := v }) s := rfl

theorem exec_wrDr (b : Byte) (s : State) : exec (.wrDr b) s = regWrite .dr (zext32 b) s := rfl

theorem exec_clrOe (s : State) : exec .clrOe s = regWrite .rsr clearOeWord s := rfl

theorem exec_clrUe (s : State) : exec .clrUe s = regWrite .rsr clearUeWord s := rfl

theorem exec_txeOff (w : Word) (s : State) : exec (.txeOff w) s = regWrite .cr w s := rfl

theorem exec_txeOn (w : Word) (s : State) : exec (.txeOn w) s = regWrite .cr w s := rfl

/-! ### The reads of FR, RSR and CR -/

/-- The state a read of FR leaves (40:R121). -/
def frRead (s : State) : State :=
  { usedDraws 1 (issueRequest (readRequest s.par .fr) s) with
    eng := { s.eng with f := frValue s.par s.bsc (drawWord s) } }

/-- The state a read of RSR leaves (40:R122). -/
def rsrRead (s : State) : State :=
  { usedDraws 1 (issueRequest (readRequest s.par .rsr) s) with eng := { s.eng with r := rsrValue s.bsc (drawWord s) } }

/-- The state a read of CR leaves (40:R124). -/
def crRead (s : State) : State :=
  { issueRequest (readRequest s.par .cr) s with eng := { s.eng with c := s.bsc.cr } }

theorem exec_rdFr_mapped {s : State} (h : s.host.ready = true) : exec .rdFr s = .next (frRead s) :=
  (exec_rdFr s).trans (readInto_of_ok _ (regRead_fr s h))

theorem exec_rdRsr_mapped {s : State} (h : s.host.ready = true) : exec .rdRsr s = .next (rsrRead s) :=
  (exec_rdRsr s).trans (readInto_of_ok _ (regRead_rsr s h))

theorem exec_rdCr_mapped {s : State} (h : s.host.ready = true) : exec .rdCr s = .next (crRead s) :=
  (exec_rdCr s).trans (readInto_of_ok _ (regRead_cr s h))

@[simp] theorem frRead_par (s : State) : (frRead s).par = s.par := rfl
@[simp] theorem frRead_pc (s : State) : (frRead s).pc = s.pc := rfl
@[simp] theorem frRead_half (s : State) : (frRead s).half = s.half := rfl
@[simp] theorem frRead_eng (s : State) :
    (frRead s).eng = { s.eng with f := frValue s.par s.bsc (drawWord s) } := rfl
@[simp] theorem frRead_bsc (s : State) : (frRead s).bsc = s.bsc := rfl
@[simp] theorem frRead_host (s : State) : (frRead s).host = s.host := rfl

@[simp] theorem rsrRead_par (s : State) : (rsrRead s).par = s.par := rfl
@[simp] theorem rsrRead_pc (s : State) : (rsrRead s).pc = s.pc := rfl
@[simp] theorem rsrRead_half (s : State) : (rsrRead s).half = s.half := rfl
@[simp] theorem rsrRead_eng (s : State) : (rsrRead s).eng = { s.eng with r := rsrValue s.bsc (drawWord s) } := rfl
@[simp] theorem rsrRead_bsc (s : State) : (rsrRead s).bsc = s.bsc := rfl
@[simp] theorem rsrRead_host (s : State) : (rsrRead s).host = s.host := rfl

@[simp] theorem crRead_par (s : State) : (crRead s).par = s.par := rfl
@[simp] theorem crRead_pc (s : State) : (crRead s).pc = s.pc := rfl
@[simp] theorem crRead_half (s : State) : (crRead s).half = s.half := rfl
@[simp] theorem crRead_eng (s : State) : (crRead s).eng = { s.eng with c := s.bsc.cr } := rfl
@[simp] theorem crRead_bsc (s : State) : (crRead s).bsc = s.bsc := rfl
@[simp] theorem crRead_host (s : State) : (crRead s).host = s.host := rfl

/-- Settles O13: the word read is `frValue` of the BSC, whose described fields do not depend on the free bits. -/
theorem readFlagRegister : Obligations.ReadFlagRegister := by
  intro s hv hready
  exact ⟨frRead s, exec_rdFr_mapped hready, rxfeOf_frValue hv _ _, txffOf_frValue hv _ _, rxff_frValue hv _ _,
    txfeOf_frValue hv _ _, rxbusyOf_frValue hv _ _, txflrOf_frValue hv _ _, rxflrOf_frValue hv _ _, rfl⟩

/-! ### The latch and the edges of TXE -/

/-- 45:R221, in one equation: the load acts exactly with TXE = 1 and the latch empty. -/
theorem loadLatch_eq_ite (p : Params) (b : Bsc) : loadLatch p b =
    if txeOf p b.cr = true ∧ b.txl = none then { b with txl := b.txq.head?, txq := b.txq.tail } else b := by
  split
  next hload => exact loadLatch_empty p b hload.1 hload.2
  next hkeep =>
    cases htxl : b.txl with
    | some x => exact loadLatch_full p b x htxl
    | none => exact if_neg fun htxe => hkeep ⟨htxe, htxl⟩

/-- The load touches the latch and the queue only. -/
theorem loadLatch_frame (p : Params) (b : Bsc) :
    loadLatch p b = { b with txq := (loadLatch p b).txq, txl := (loadLatch p b).txl } := by
  rw [loadLatch_eq_ite]
  split <;> rfl

/-- 20:R68(a), (c): a CR word with TXE = 0 drops the latch if TXE was 1. -/
theorem txeEdge_of_not_txe (p : Params) (old : Word) {b : Bsc} (h : txeOf p b.cr = false) :
    txeEdge p old b = { b with txl := if txeOf p old then none else b.txl } := by
  cases hold : txeOf p old <;> simp [txeEdge, h, hold]

/-- 20:R68(b), (c): a CR word with TXE = 1 loads an empty latch if TXE was 0. -/
theorem txeEdge_of_txe (p : Params) (old : Word) {b : Bsc} (h : txeOf p b.cr = true) :
    txeEdge p old b = if txeOf p old then b else loadLatch p b := by
  cases hold : txeOf p old <;> simp [txeEdge, h, hold]

/-! ### The writes of CR -/

/-- The word as stored in CR. -/
def withCr (v : Word) (s : State) : State := { s with bsc := { s.bsc with cr := v } }

/-- 20:R68: what a write of CR does when it changes none of EN, RXE, I2C. -/
theorem writeCr_of_fixed {v : Word} {s : State} (h : (s.bsc.cr ^^^ v) &&& setupFixedWord s.par = 0#32) :
    writeCr v s = .next { breakEffect (withCr v s) with
      bsc := txeEdge s.par s.bsc.cr (breakEffect (withCr v s)).bsc } :=
  if_pos h

/-- 20:R68(a) to (c): without BRK only the word and the edge of TXE count. -/
theorem writeCr_of_not_brk {v : Word} {s : State} (h : (s.bsc.cr ^^^ v) &&& setupFixedWord s.par = 0#32)
    (hbrk : brkOf s.par v = false) :
    writeCr v s = .next { s with bsc := txeEdge s.par s.bsc.cr { s.bsc with cr := v } } := by
  have hkeep : breakEffect (withCr v s) = withCr v s := if_neg (ne_true_of_eq_false hbrk)
  rw [writeCr_of_fixed h, hkeep]
  rfl

/-- A mapped write of CR without BRK that changes none of EN, RXE, I2C. -/
theorem regWrite_cr_of_not_brk {v : Word} {s : State} (hready : s.host.ready = true)
    (h : (s.bsc.cr ^^^ v) &&& setupFixedWord s.par = 0#32) (hbrk : brkOf s.par v = false) :
    regWrite .cr v s = .next (issueRequest (writeRequest s.par .cr v)
      { s with bsc := txeEdge s.par s.bsc.cr { s.bsc with cr := v } }) :=
  (regWrite_cr v s hready).trans (writeCr_of_not_brk h hbrk)

/-- Settles O20: the word has TXE = 0, so of the edges only the falling one can act. -/
theorem transmitEnableOff : Obligations.TransmitEnableOff := by
  intro s w hready htxe hbrk hfix
  have hedge := txeEdge_of_not_txe s.par s.bsc.cr (b := { s.bsc with cr := w }) htxe
  rw [exec_txeOff, regWrite_cr_of_not_brk hready hfix hbrk, hedge]
  rfl

/-- Settles O21: the word has TXE = 1, so of the edges only the rising one can act, and it loads an empty latch. -/
theorem transmitEnableOn : Obligations.TransmitEnableOn := by
  intro s w hready htxe hbrk hfix
  have hedge : txeEdge s.par s.bsc.cr { s.bsc with cr := w } =
      if s.bsc.cr.getLsbD s.par.crTxe = false ∧ s.bsc.txl = none then
        { s.bsc with cr := w, txl := s.bsc.txq.head?, txq := s.bsc.txq.tail }
      else { s.bsc with cr := w } := by
    rw [txeEdge_of_txe _ _ (b := { s.bsc with cr := w }) htxe, loadLatch_eq_ite, txeOf, txeOf]
    cases s.bsc.cr.getLsbD s.par.crTxe <;> simp [htxe]
  rw [exec_txeOn, regWrite_cr_of_not_brk hready hfix hbrk, hedge]
  rfl

/-- 20:R68(a): a falling edge of TXE leaves the latch empty, whatever BRK does to the queues. -/
theorem writeCr_drops_latch {v : Word} {s t : State} (h : writeCr v s = .next t)
    (hold : txeOf s.par s.bsc.cr = true) (hnew : txeOf s.par v = false) : t.bsc.txl = none := by
  obtain ⟨hfix, -⟩ := writeCr_next h
  obtain ⟨-, -, -, -, -, -, -, -, hcr, -⟩ := breakEffect_frame (withCr v s)
  rw [writeCr_of_fixed hfix, txeEdge_of_not_txe _ _ (by rw [hcr]; exact hnew)] at h
  cases h
  exact if_pos hold

/-- Settles O22: the free queues are cut to the depths and the latch is loaded, so the bounds hold for every free value. -/
theorem breakBitWriteCompletes : Obligations.BreakBitWriteCompletes := by
  intro s w hready hbrk hfix
  obtain ⟨t, hwrite⟩ := writeCr_completes w (issueRequest (writeRequest s.par .cr w) s) hfix
  have hstep := (regWrite_cr w s hready).trans hwrite
  obtain ⟨-, hpar, hpc, hhalf, heng, hhost, hlog, -, -, hcr, hoe, hue, hbus, hinv, -⟩ := writeCr_next hwrite
  exact ⟨t, hstep, hstep, hpar ▸ hinv hbrk, hcr, hoe, hue, hbus, fun hold hnew => writeCr_drops_latch hwrite hold hnew, heng, hhost, hlog, hpc,
    hhalf⟩

/-- Settles O23: the refusal is the other branch of the same test. -/
theorem setupBitWriteRefused : Obligations.SetupBitWriteRefused := by
  intro s w hready hchange
  have hstep : regWrite .cr w s = .refused .setupBitsChanged := (regWrite_cr w s hready).trans (if_neg hchange)
  exact ⟨hstep, hstep⟩

/-! ### The writes of DR and of RSR -/

/-- Settles O17: the byte joins the queue, and the load that belongs to the write may take the queue's head. -/
theorem writeDataRegister : Obligations.WriteDataRegister := by
  intro s b hready
  refine ⟨fun hroom => ?_, fun hfull => regWrite_dr_full (zext32 b) s hready (Nat.not_lt.mpr hfull)⟩
  rw [exec_wrDr, regWrite_dr (zext32 b) s hready hroom, loadLatch_eq_ite, dataOf_zext32]
  rfl

/-- Settles O18: the clear word of each flag has a 0 at its own place only. -/
theorem clearStickyFlags : Obligations.ClearStickyFlags := by
  intro s hready
  refine ⟨?_, ?_⟩
  · rw [exec_clrOe, regWrite_rsr clearOeWord s hready, rsrWritten_clearOe]
    rfl
  · rw [exec_clrUe, regWrite_rsr clearUeWord s hready, rsrWritten_clearUe]
    rfl

/-! ### Every micro-operation is a read into a working register or a write -/

theorem exec_busOp_cases {i : Instr} (hi : isBusOp i = true) (s : State) :
    (∃ r put, exec i s = readInto r put s ∧ encode s.par i = .request (readRequest s.par r)) ∨
    (∃ r v, exec i s = regWrite r v s ∧ encode s.par i = .request (writeRequest s.par r v)) := by
  cases i with
  | sense | rxpoll | txstream => cases hi
  | rdDr => exact .inl ⟨.dr, _, exec_rdDr s, rfl⟩
  | rdRsr => exact .inl ⟨.rsr, _, exec_rdRsr s, rfl⟩
  | rdCr => exact .inl ⟨.cr, _, exec_rdCr s, rfl⟩
  | rdFr => exact .inl ⟨.fr, _, exec_rdFr s, rfl⟩
  | wrDr b => exact .inr ⟨.dr, _, exec_wrDr b s, rfl⟩
  | clrOe => exact .inr ⟨.rsr, _, exec_clrOe s, rfl⟩
  | clrUe => exact .inr ⟨.rsr, _, exec_clrUe s, rfl⟩
  | txeOff w => exact .inr ⟨.cr, _, exec_txeOff w s, rfl⟩
  | txeOn w => exact .inr ⟨.cr, _, exec_txeOn w s, rfl⟩

/-- Settles O24: every micro-operation is one access, and an access tests `ready` first. -/
theorem unmappedAccessFaults : Obligations.UnmappedAccessFaults := by
  intro i s hi hready
  obtain ⟨r, put, hexec, -⟩ | ⟨r, v, hexec, -⟩ := exec_busOp_cases hi s
  · exact hexec.trans (readInto_of_error put (regRead_unmapped r s hready))
  · exact hexec.trans (regWrite_unmapped r v s hready)

/-- A micro-operation that completes had its window mapped. -/
theorem ready_of_exec_busOp {i : Instr} {s t : State} (hi : isBusOp i = true) (h : exec i s = .next t) :
    s.host.ready = true := by
  by_contra hready
  rw [unmappedAccessFaults i s hi (eq_false_of_ne_true hready)] at h
  cases h

/-! ### The frame of the nine micro-operations -/

/-- What a register access that makes the request `w` leaves alone, and the record of `w`. -/
structure BusFrame (w : Request) (s t : State) : Prop where
  par : t.par = s.par
  pc : t.pc = s.pc
  half : t.half = s.half
  host : t.host = s.host
  log : t.log = s.log
  script : t.env.script = s.env.script
  producer : t.env.producer = s.env.producer
  obs : t.obs = { s.obs with requests := s.obs.requests ++ [w] }
  bus : t.bsc.bus = s.bsc.bus

/-- Everything a read into a working register can do when it answers: of the BSC only a read of DR changes anything. -/
theorem readInto_next {r : Reg} {put : Word → Engine → Engine} {s t : State} (h : readInto r put s = .next t) :
    BusFrame (readRequest s.par r) s t ∧ ∃ v, t.eng = put v s.eng ∧
      ((r ≠ .dr ∧ t.bsc = s.bsc) ∨
        (r = .dr ∧ s.bsc.rxq = dataOf v :: t.bsc.rxq ∧ t.bsc = { s.bsc with rxq := t.bsc.rxq })) := by
  unfold readInto at h
  split at h
  next v m hread =>
    obtain ⟨-, hpar, hpc, hhalf, heng, hhost, hlog, henv, hobs, hbsc⟩ := regRead_ok hread
    cases h
    have hbus : m.bsc.bus = s.bsc.bus := by
      obtain ⟨-, hsame⟩ | ⟨-, -, hpop⟩ := hbsc
      · rw [hsame]
      · rw [hpop]
    exact ⟨⟨hpar, hpc, hhalf, hhost, hlog, (congrArg Env.script henv :),
      (congrArg Env.producer henv :), hobs, hbus⟩,
      v, congrArg (put v) heng, hbsc⟩
  next => cases h

/-- Everything a register write can do when it answers, by the register written. -/
theorem regWrite_next {r : Reg} {v : Word} {s t : State} (h : regWrite r v s = .next t) :
    BusFrame (writeRequest s.par r v) s t ∧ t.eng = s.eng ∧
    (match r with
     | .dr => s.bsc.txq.length < s.par.txDepth ∧
         t.bsc = loadLatch s.par { s.bsc with txq := s.bsc.txq ++ [dataOf v] }
     | .rsr => t.bsc = rsrWritten s.bsc v
     | .cr => writeCr v (issueRequest (writeRequest s.par .cr v) s) = .next t
     | .fr => False) := by
  have hready : s.host.ready = true := by
    by_contra hready
    rw [regWrite_unmapped r v s (eq_false_of_ne_true hready)] at h
    cases h
  cases r with
  | dr =>
    by_cases hroom : s.bsc.txq.length < s.par.txDepth
    · rw [regWrite_dr v s hready hroom] at h
      cases h
      exact ⟨⟨rfl, rfl, rfl, rfl, rfl, rfl, rfl, rfl, loadLatch_bus _ _⟩, rfl, hroom, rfl⟩
    · rw [regWrite_dr_full v s hready hroom] at h
      cases h
  | rsr =>
    rw [regWrite_rsr v s hready] at h
    cases h
    exact ⟨⟨rfl, rfl, rfl, rfl, rfl, rfl, rfl, rfl, rfl⟩, rfl, rfl⟩
  | cr =>
    rw [regWrite_cr v s hready] at h
    obtain ⟨-, hpar, hpc, hhalf, heng, hhost, hlog, hobs, henv, -, -, -, hbus, -⟩ := writeCr_next h
    exact ⟨⟨hpar, hpc, hhalf, hhost, hlog, (congrArg Env.script henv :),
      (congrArg Env.producer henv :), hobs, hbus⟩, heng, h⟩
  | fr =>
    simp only [regWrite, hready, if_true] at h
    cases h

/-- A micro-operation that completes records its own word as the request, and leaves the frame alone. -/
theorem exec_busOp_frame {i : Instr} {s t : State} (hi : isBusOp i = true) (h : exec i s = .next t) :
    ∃ w, encode s.par i = .request w ∧ BusFrame w s t := by
  obtain ⟨r, put, hexec, hword⟩ | ⟨r, v, hexec, hword⟩ := exec_busOp_cases hi s
  · exact ⟨_, hword, (readInto_next (hexec ▸ h)).1⟩
  · exact ⟨_, hword, (regWrite_next (hexec ▸ h)).1⟩

/-- A read of another register than DR keeps the BSC. -/
theorem readInto_keeps_bsc {r : Reg} {put : Word → Engine → Engine} {s t : State} (h : readInto r put s = .next t)
    (hr : r ≠ .dr) : ∃ v, t.eng = put v s.eng ∧ t.bsc = s.bsc := by
  obtain ⟨-, v, heng, ⟨-, hbsc⟩ | ⟨hdr, -⟩⟩ := readInto_next h
  · exact ⟨v, heng, hbsc⟩
  · exact absurd hdr hr

/-- What a write of CR leaves of the BSC, beyond its frame. -/
theorem regWrite_cr_next {v : Word} {s t : State} (h : regWrite .cr v s = .next t) :
    t.eng = s.eng ∧ t.bsc.cr = v ∧ t.bsc.oe = s.bsc.oe ∧ t.bsc.ue = s.bsc.ue ∧
    (brkOf s.par v = true → t.bsc.Inv s.par) ∧
    (brkOf s.par v = false → t.bsc = txeEdge s.par s.bsc.cr { s.bsc with cr := v }) := by
  obtain ⟨-, heng, hwrite⟩ := regWrite_next h
  obtain ⟨-, -, -, -, -, -, -, -, -, hcr, hoe, hue, -, hinv, hedge⟩ := writeCr_next hwrite
  exact ⟨heng, hcr, hoe, hue, hinv, hedge⟩

/-- Settles O25: the common part is `BusFrame`, the rest is what the register of each micro-operation does. -/
theorem busOpFrame : Obligations.BusOpFrame := by
  intro i s t hi h
  obtain ⟨w, -, hframe⟩ := exec_busOp_frame hi h
  refine ⟨hframe.par, hframe.pc, hframe.half, hframe.host, hframe.log, hframe.script, hframe.producer, ?_,
    ⟨w, by rw [hframe.obs]⟩, fun a => by rw [hframe.host], hframe.bus, ?_⟩
  · rw [hframe.obs]
  cases i with
  | sense | rxpoll | txstream => trivial
  | rdFr =>
    rw [exec_rdFr] at h
    obtain ⟨v, heng, hbsc⟩ := readInto_keeps_bsc h (by decide)
    exact ⟨by rw [heng], hbsc⟩
  | rdRsr =>
    rw [exec_rdRsr] at h
    obtain ⟨v, heng, hbsc⟩ := readInto_keeps_bsc h (by decide)
    exact ⟨by rw [heng], hbsc⟩
  | rdCr =>
    rw [exec_rdCr] at h
    obtain ⟨v, heng, hbsc⟩ := readInto_keeps_bsc h (by decide)
    exact ⟨by rw [heng], hbsc⟩
  | rdDr =>
    rw [exec_rdDr] at h
    obtain ⟨-, v, heng, ⟨hne, -⟩ | ⟨-, -, hbsc⟩⟩ := readInto_next h
    · cases hne rfl
    · exact ⟨by rw [heng], hbsc⟩
  | wrDr b =>
    rw [exec_wrDr] at h
    obtain ⟨-, heng, -, hbsc⟩ := regWrite_next h
    exact ⟨heng, by rw [hbsc, loadLatch_frame]⟩
  | clrOe =>
    rw [exec_clrOe] at h
    obtain ⟨-, heng, hbsc⟩ := regWrite_next h
    exact ⟨heng, by rw [hbsc, rsrWritten_clearOe]⟩
  | clrUe =>
    rw [exec_clrUe] at h
    obtain ⟨-, heng, hbsc⟩ := regWrite_next h
    exact ⟨heng, by rw [hbsc, rsrWritten_clearUe]⟩
  | txeOff w =>
    rw [exec_txeOff] at h
    obtain ⟨heng, -, hoe, hue, -, hedge⟩ := regWrite_cr_next h
    refine ⟨heng, hoe, hue, fun hbrk => ⟨by rw [hedge hbrk, txeEdge_rxq], fun htxe => ?_⟩⟩
    rw [hedge hbrk, txeEdge_of_not_txe _ _ (b := { s.bsc with cr := w }) htxe]
  | txeOn w =>
    rw [exec_txeOn] at h
    obtain ⟨heng, -, hoe, hue, -, hedge⟩ := regWrite_cr_next h
    exact ⟨heng, hoe, hue, fun hbrk => by rw [hedge hbrk, txeEdge_rxq]⟩
end Sys2Proof.Machine
end

