-- ==== Sys2Proof/Proofs/CommandAcceptance.lean ====
section
/-! PROOFS. The step `ACCEPT` (40_microops.md R137): which word the engine takes up, the answers that turn a command away,
and what an accepted command sets. -/

namespace Sys2Proof.Machine

/-! ### What the engine takes up -/

theorem fetch_of_idle {s : State} {cw : Word} (hpc : s.pc = .idle) (hcmd : s.host.cmd = some cw) :
    fetch s = .command cw := by
  simp [fetch, hpc, hcmd]

theorem engineStep_of_command {s : State} {cw : Word} {i : Instr} (hf : fetch s = .command cw)
    (hd : decodeCommand cw = .ok i) : engineStep s = exec i (takeCommand s) := by
  simp [engineStep, hf, hd]

theorem engineStep_of_reserved {s : State} {cw : Word} {e : Reject} (hf : fetch s = .command cw)
    (hd : decodeCommand cw = .error e) : engineStep s = rejectReserved (takeCommand s) := by
  simp [engineStep, hf, hd]

/-- Settles O7: in `IDLE` the engine takes up the presented word, and `exec` runs after the word has left the port. -/
theorem stepRunsPresentedCommand : Obligations.StepRunsPresentedCommand := by
  intro s u cw i hturn hpc hcmd hd
  exact (step_of_engineTurn hturn).trans (engineStep_of_command (fetch_of_idle hpc hcmd) hd)

/-- Settles O8: the engine's turn is the engine's step at its label. -/
theorem stepRunsLabelRequest : Obligations.StepRunsLabelRequest := by
  intro s u bw i hturn hf hd
  exact (step_of_engineTurn hturn).trans (engineStep_request hf hd)

/-! ### The answers at `ACCEPT` -/

/-- 60:R265: the answer to a reserved word is one record and DONE 0. -/
theorem rejectReserved_eq (s : State) : rejectReserved s = .next { s with
    pc := .idle
    log := s.log ++ [(3#3, .invalidArgument)]
    obs := { s.obs with responses := s.obs.responses ++ [0x00000000#32] } } :=
  returnWith_fits .done 0 (raiseEvent .invalidArgument s) (by decide)

/-- Settles O9: a word that decodes to nothing is reserved, whatever its class is. -/
theorem reservedCommandAnswered : Obligations.ReservedCommandAnswered := by
  intro s u cw hturn hpc hcmd hnone
  cases hd : decodeCommand cw with
  | ok i => exact absurd hd (hnone i)
  | error e =>
    rw [step_of_engineTurn hturn, engineStep_of_reserved (fetch_of_idle hpc hcmd) hd, rejectReserved_eq]
    simp [takeCommand, hpc]

theorem acceptWith_of_ready (launch : State → State) {s : State} (h : PReady s) :
    acceptWith launch s = .next (launch s) := by
  rw [acceptWith, if_pos h.1, if_pos h.2]

/-- 60:R266: the answer with the window not ready is one record and DONE 0. -/
theorem acceptWith_of_not_ready (launch : State → State) {s : State} (h : s.host.ready = false) :
    acceptWith launch s = .next { s with
      pc := .idle
      log := s.log ++ [(4#3, .notReady)]
      obs := { s.obs with responses := s.obs.responses ++ [0x00000000#32] } } := by
  rw [acceptWith, if_neg (ne_true_of_eq_false h)]
  exact returnWith_fits .done 0 (raiseEvent .notReady s) (by decide)

theorem acceptWith_of_not_setUp (launch : State → State) {s : State} (h : s.host.ready = true)
    (hset : launchSetUp s.par s.bsc.cr = false) : acceptWith launch s = .refused .launchWithoutReady := by
  rw [acceptWith, if_pos h, if_neg (ne_true_of_eq_false hset)]

/-- A command that is answered was launched, or turned away with its record. -/
theorem acceptWith_next {launch : State → State} {s t : State} (h : acceptWith launch s = .next t) :
    (PReady s ∧ t = launch s) ∨
    (s.host.ready = false ∧ t = { s with
      pc := .idle
      log := s.log ++ [(4#3, .notReady)]
      obs := { s.obs with responses := s.obs.responses ++ [0x00000000#32] } }) := by
  cases hready : s.host.ready with
  | false =>
    rw [acceptWith_of_not_ready launch hready] at h
    exact .inr ⟨rfl, (Host.Outcome.next.inj h).symm⟩
  | true =>
    cases hset : launchSetUp s.par s.bsc.cr with
    | false =>
      rw [acceptWith_of_not_setUp launch hready hset] at h
      cases h
    | true =>
      rw [acceptWith_of_ready launch ⟨hready, hset⟩] at h
      exact .inl ⟨⟨hready, hset⟩, (Host.Outcome.next.inj h).symm⟩

/-! ### The three commands -/

/-- What an accepted `SENSE` sets (43:R210). -/
def launchSense (s : State) : State := { s with pc := .snRd, eng := { s.eng with op := .sense } }

/-- What an accepted `RXPOLL` sets (41:R150). -/
def launchRxpoll (bp : Bool) (arg : BitVec 16) (s : State) : State :=
  { s with
    pc := .rxEntry
    eng := { s.eng with op := .rxpoll, bp := bp, cap := capacityOf arg }
    host := { s.host with
      bufPresent := bp
      buf := if bp then Memory.ofCells (capacityOf arg) s.host.cmdBuf else [] } }

/-- What an accepted `TXSTREAM` sets (42:R170). -/
def launchTxstream (addr : Addr) (s : State) : State :=
  { s with pc := .txInit, eng := { s.eng with op := .txstream, addr := addr } }

theorem exec_sense (s : State) : exec .sense s = acceptWith launchSense s := rfl

theorem exec_rxpoll (bp : Bool) (arg : BitVec 16) (s : State) :
    exec (.rxpoll bp arg) s = acceptWith (launchRxpoll bp arg) s := rfl

theorem exec_txstream (addr : Addr) (s : State) : exec (.txstream addr) s = acceptWith (launchTxstream addr) s := rfl

/-- Every command meets the same tests before its own effect. -/
theorem exec_command {i : Instr} (hi : isBusOp i = false) (s : State) : ∃ launch, exec i s = acceptWith launch s := by
  cases i with
  | sense => exact ⟨_, exec_sense s⟩
  | rxpoll bp arg => exact ⟨_, exec_rxpoll bp arg s⟩
  | txstream addr => exact ⟨_, exec_txstream addr s⟩
  | rdDr | rdRsr | rdCr | rdFr | wrDr | clrOe | clrUe | txeOff | txeOn => cases hi

/-- Settles O10: with `P_READY` the answer is the launch of each command. -/
theorem commandsAccepted : Obligations.CommandsAccepted := fun _ hready =>
  ⟨acceptWith_of_ready launchSense hready, fun arg => acceptWith_of_ready (launchRxpoll true arg) hready,
    fun arg => acceptWith_of_ready (launchRxpoll false arg) hready,
    fun a => acceptWith_of_ready (launchTxstream a) hready⟩

/-- Settles O11: the answer does not depend on the command. -/
theorem commandsNotReady : Obligations.CommandsNotReady := by
  intro i s hi hready
  obtain ⟨launch, hexec⟩ := exec_command hi s
  exact hexec.trans (acceptWith_of_not_ready launch hready)

/-- Settles O12: the launch premise is tested after `ready`, before the command's own effect. -/
theorem launchOutsideSetupRefused : Obligations.LaunchOutsideSetupRefused := by
  intro i s hi hready hset
  obtain ⟨launch, hexec⟩ := exec_command hi s
  exact hexec.trans (acceptWith_of_not_setUp launch hready hset)

/-- Settles O26: a launch and a turned away command, each compared field by field. -/
theorem commandFrame : Obligations.CommandFrame := by
  intro i s t hi h
  cases i with
  | sense =>
    rw [exec_sense] at h
    obtain ⟨hready, rfl⟩ | ⟨hready, rfl⟩ := acceptWith_next h
    · simp [launchSense, hready.1]
    · simp [hready]
  | rxpoll bp arg =>
    rw [exec_rxpoll] at h
    obtain ⟨hready, rfl⟩ | ⟨hready, rfl⟩ := acceptWith_next h
    · simp [launchRxpoll, hready.1]
    · simp [hready]
  | txstream addr =>
    rw [exec_txstream] at h
    obtain ⟨hready, rfl⟩ | ⟨hready, rfl⟩ := acceptWith_next h
    · simp [launchTxstream, hready.1]
    · simp [hready]
  | rdDr | rdRsr | rdCr | rdFr | wrDr | clrOe | clrUe | txeOff | txeOn => cases hi

end Sys2Proof.Machine
end

