-- ==== Sys2Proof/Proofs/MicroPrograms.lean ====
section
/-! PROOFS. The engine's step at each label of the micro-programs (41:R151, 42:R171, 43:R211), one equation per label, and
the obligations about single labels. -/

namespace Sys2Proof.Machine

/-! ### A label that makes one register access -/

theorem engineStep_of_request {s m : State} {bw : Request} {i : Instr} (hf : fetch s = .request bw)
    (hd : decodeRequest s.par bw = .ok i) (hx : exec i s = .next m) : engineStep s = .next (afterRequest m) := by
  rw [engineStep_request hf hd, hx, andThen_next]

section Mapped
variable {s : State} (hv : s.par.Valid) (hready : s.host.ready = true)
include hv hready

theorem engineStep_frRead (hf : fetch s = .request (readRequest s.par .fr)) :
    engineStep s = .next (afterRequest (frRead s)) :=
  engineStep_of_request hf (decodeRequest_read_fr hv) (exec_rdFr_mapped hready)

theorem engineStep_rsrRead (hf : fetch s = .request (readRequest s.par .rsr)) :
    engineStep s = .next (afterRequest (rsrRead s)) :=
  engineStep_of_request hf (decodeRequest_read_rsr hv) (exec_rdRsr_mapped hready)

theorem engineStep_crRead (hf : fetch s = .request (readRequest s.par .cr)) :
    engineStep s = .next (afterRequest (crRead s)) :=
  engineStep_of_request hf (decodeRequest_read_cr hv) (exec_rdCr_mapped hready)

end Mapped

/-! ### What the labels test in a fresh snapshot of FR -/

theorem rxfeOf_frRead {s : State} (hv : s.par.Valid) : rxfeOf s.par (frRead s).eng.f = decide (s.bsc.rxq = []) := by
  rw [frRead_eng, rxfeOf_frValue hv, Bsc.rxfe, Bool.eq_iff_iff]
  simp

theorem txffOf_frRead {s : State} (hv : s.par.Valid) :
    txffOf s.par (frRead s).eng.f = decide (s.bsc.txq.length = s.par.txDepth) := by
  rw [frRead_eng, txffOf_frValue hv, Bsc.txff]
  rfl

theorem txfeOf_frRead {s : State} (hv : s.par.Valid) : txfeOf s.par (frRead s).eng.f = decide (s.bsc.txq = []) := by
  rw [frRead_eng, txfeOf_frValue hv, Bsc.txfe, Bool.eq_iff_iff]
  simp

theorem rxbusyOf_frRead {s : State} (hv : s.par.Valid) :
    rxbusyOf s.par (frRead s).eng.f = decide (s.bsc.bus = .masterWriting) := by
  rw [frRead_eng, rxbusyOf_frValue hv, Bsc.rxbusy]
  rfl

theorem oeOf_rsrRead (s : State) : oeOf (rsrRead s).eng.r = s.bsc.oe := oeOf_rsrValue s.bsc (drawWord s)

/-! ### SENSE (43:R211) -/

theorem engineStep_snRd {s : State} (hv : s.par.Valid) (hready : s.host.ready = true) (hpc : s.pc = .snRd) :
    engineStep s = .next (goto .snDone (frRead s)) := by
  rw [engineStep_frRead hv hready (by simp [fetch, hpc])]
  simp [afterRequest, hpc]

theorem engineStep_snDone {s : State} (hpc : s.pc = .snDone) : engineStep s = stepSnDone s := by
  simp [engineStep, fetch, internalStep, hpc]

/-! ### The checkpoints (40:R130) -/

theorem engineStep_checkpoint {s : State} {l next : Label} (hl : (l, next) ∈ checkpoints) (hpc : s.pc = l) :
    engineStep s = portChk next s := by
  simp only [checkpoints, List.mem_cons, Prod.mk.injEq, List.not_mem_nil, or_false] at hl
  obtain ⟨rfl, rfl⟩ | ⟨rfl, rfl⟩ | ⟨rfl, rfl⟩ | ⟨rfl, rfl⟩ | ⟨rfl, rfl⟩ := hl <;>
    simp [engineStep, fetch, internalStep, hpc]

theorem portChk_of_cancel (next : Label) {s : State} (h : s.host.cancel = true) : portChk next s = .next { s with
    pc := .idle, obs := { s.obs with responses := s.obs.responses ++ [0x80000000#32] } } := by
  rw [portChk, if_pos h, returnWith_fits _ _ _ (by decide), responseWord_aborted]

theorem portChk_of_not_cancel (next : Label) {s : State} (h : s.host.cancel = false) :
    portChk next s = .next (goto next s) :=
  if_neg (ne_true_of_eq_false h)

/-! ### RXPOLL (41:R151 to R158) -/

theorem engineStep_rxEntry {s : State} (hpc : s.pc = .rxEntry) : engineStep s = stepRxEntry s := by
  simp [engineStep, fetch, internalStep, hpc]

theorem engineStep_rxCond_full {s : State} (hpc : s.pc = .rxCond) (hfull : s.eng.cap ≤ s.eng.n) :
    engineStep s = .next (goto .rxDone s) := by
  simp [engineStep, fetch, internalStep, hpc, Nat.not_lt.mpr hfull]

theorem engineStep_rxCond_room {s : State} (hv : s.par.Valid) (hready : s.host.ready = true) (hpc : s.pc = .rxCond)
    (hroom : s.eng.n < s.eng.cap) :
    engineStep s = .next (goto (if s.bsc.rxq = [] then .rxDone else .rxK1) (frRead s)) := by
  rw [engineStep_frRead hv hready (by simp [fetch, hpc, hroom])]
  simp only [afterRequest, frRead_pc, hpc, frRead_par, rxfeOf_frRead hv, decide_eq_true_eq]

theorem engineStep_rxRsr {s : State} (hv : s.par.Valid) (hready : s.host.ready = true) (hpc : s.pc = .rxRsr) :
    engineStep s = .next (goto .rxClr (rsrRead s)) := by
  rw [engineStep_rsrRead hv hready (by simp [fetch, hpc])]
  simp [afterRequest, hpc]

theorem engineStep_rxClr_report {s : State} (hpc : s.pc = .rxClr) (hhalf : s.half = false) :
    engineStep s = .next (stepReport (oeOf s.eng.r) .overrun .rxDr s) := by
  simp [engineStep, fetch, internalStep, hpc, hhalf]

theorem engineStep_rxClr_clear {s : State} (hv : s.par.Valid) (hready : s.host.ready = true) (hpc : s.pc = .rxClr)
    (hhalf : s.half = true) : engineStep s = .next { s with
      pc := .rxDr, half := false, bsc := { s.bsc with oe := false }
      obs := { s.obs with requests := s.obs.requests ++ [requestWord true s.par.idxRsr 0xFFFFFFFE#32] } } := by
  rw [engineStep_of_request (by simp [fetch, hpc, hhalf]) (decodeRequest_clearOe hv) (clearStickyFlags s hready).1]
  simp [afterRequest, afterEvent, goto, hpc, hhalf]

/-- The state `RX_DR` leaves after it popped `b`. -/
def drPopped (b : Byte) (rest : List Byte) (s : State) : State :=
  { usedDraws 1 (issueRequest (readRequest s.par .dr) s) with
    pc := .rxStore, eng := { s.eng with d := drValue b (drawWord s) }, bsc := { s.bsc with rxq := rest } }

theorem engineStep_rxDr {s : State} (hv : s.par.Valid) (hready : s.host.ready = true) (hpc : s.pc = .rxDr) {b : Byte}
    {rest : List Byte} (hq : s.bsc.rxq = b :: rest) : engineStep s = .next (drPopped b rest s) := by
  rw [engineStep_of_request (by simp [fetch, hpc]) (decodeRequest_read_dr hv)
    ((exec_rdDr s).trans (readInto_of_ok _ (regRead_dr s hready hq)))]
  simp [afterRequest, hpc, goto, drPopped, usedDraws, issueRequest]

theorem engineStep_rxStore {s : State} (hpc : s.pc = .rxStore) : engineStep s = stepRxStore s := by
  simp [engineStep, fetch, internalStep, hpc]

theorem portBufwr_of_room {s : State} (hbuf : s.host.bufPresent = true) (hroom : s.eng.n < s.eng.cap) :
    portBufwr s = .next { s with host := { s.host with buf := Memory.write s.host.buf s.eng.n (dataOf s.eng.d) } } := by
  simp [portBufwr, hbuf, hroom]

theorem portBufwr_outside {s : State} (h : s.host.bufPresent = false ∨ s.eng.cap ≤ s.eng.n) :
    portBufwr s = .fault .bufferOutOfRange := by
  obtain hbuf | hfull := h
  · simp [portBufwr, hbuf]
  · simp [portBufwr, Nat.not_lt.mpr hfull]

/-- The state `RX_STORE` leaves after a store inside `Buf`. -/
def rxStored (s : State) : State :=
  { s with
    pc := .rxCond
    eng := { s.eng with n := s.eng.n + 1 }
    host := { s.host with buf := Memory.write s.host.buf s.eng.n (dataOf s.eng.d) } }

theorem stepRxStore_of_room {s : State} (hbuf : s.host.bufPresent = true) (hroom : s.eng.n < s.eng.cap) :
    stepRxStore s = .next (rxStored s) := by
  rw [stepRxStore, portBufwr_of_room hbuf hroom]
  rfl

theorem engineStep_rxDone {s : State} (hpc : s.pc = .rxDone) : engineStep s = returnWith .done s.eng.n s := by
  simp [engineStep, fetch, internalStep, hpc]

/-! ### TXSTREAM (42:R171 to R183) -/

theorem engineStep_txInit {s : State} (hpc : s.pc = .txInit) : engineStep s = .next (stepTxInit s) := by
  simp [engineStep, fetch, internalStep, hpc]

theorem engineStep_txOcond {s : State} (hv : s.par.Valid) (hready : s.host.ready = true) (hpc : s.pc = .txOcond) :
    engineStep s = .next (goto (if s.bsc.rxq = [] then .txK1 else .txAcct) (frRead s)) := by
  rw [engineStep_frRead hv hready (by simp [fetch, hpc])]
  simp only [afterRequest, frRead_pc, hpc, frRead_par, rxfeOf_frRead hv, decide_eq_true_eq]

theorem engineStep_txIcond {s : State} (hv : s.par.Valid) (hready : s.host.ready = true) (hpc : s.pc = .txIcond) :
    engineStep s = .next (goto (if s.bsc.txq.length = s.par.txDepth then .txSleep else .txK2) (frRead s)) := by
  rw [engineStep_frRead hv hready (by simp [fetch, hpc])]
  simp only [afterRequest, frRead_pc, hpc, frRead_par, txffOf_frRead hv, decide_eq_true_eq]

theorem engineStep_txRsr {s : State} (hv : s.par.Valid) (hready : s.host.ready = true) (hpc : s.pc = .txRsr) :
    engineStep s = .next (goto .txClr (rsrRead s)) := by
  rw [engineStep_rsrRead hv hready (by simp [fetch, hpc])]
  simp [afterRequest, hpc]

theorem engineStep_txClr_report {s : State} (hpc : s.pc = .txClr) (hhalf : s.half = false) :
    engineStep s = .next (stepReport (ueOf s.eng.r) .underrun .txProd s) := by
  simp [engineStep, fetch, internalStep, hpc, hhalf]

theorem engineStep_txClr_clear {s : State} (hv : s.par.Valid) (hready : s.host.ready = true) (hpc : s.pc = .txClr)
    (hhalf : s.half = true) : engineStep s = .next { s with
      pc := .txProd, half := false, bsc := { s.bsc with ue := false }
      obs := { s.obs with requests := s.obs.requests ++ [requestWord true s.par.idxRsr 0xFFFFFFFD#32] } } := by
  rw [engineStep_of_request (by simp [fetch, hpc, hhalf]) (decodeRequest_clearUe hv) (clearStickyFlags s hready).2]
  simp [afterRequest, afterEvent, goto, hpc, hhalf]

theorem engineStep_txProd {s : State} (hpc : s.pc = .txProd) : engineStep s = .next (stepTxProd s) := by
  simp [engineStep, fetch, internalStep, hpc]

/-- The state `TX_PUSH` leaves after a write with room (42:R180). -/
def txPushed (s : State) : State :=
  { issueRequest (writeRequest s.par .dr (zext32 s.eng.pb)) s with
    pc := .txIcond
    eng := { s.eng with addr := nextAddr s.eng.addr, offered := s.eng.offered + 1 }
    bsc := loadLatch s.par { s.bsc with txq := s.bsc.txq ++ [s.eng.pb] } }

theorem engineStep_txPush {s : State} (hv : s.par.Valid) (hready : s.host.ready = true) (hpc : s.pc = .txPush)
    (hroom : s.bsc.txq.length < s.par.txDepth) : engineStep s = .next (txPushed s) := by
  rw [engineStep_of_request (by simp [fetch, hpc]) (decodeRequest_push hv s.eng.pb)
    ((exec_wrDr _ s).trans (regWrite_dr _ s hready hroom))]
  simp [afterRequest, afterPush, hpc, goto, txPushed, issueRequest, dataOf_zext32]

theorem engineStep_txSleep {s : State} (hpc : s.pc = .txSleep) : engineStep s = .next (goto .txOcond s) := by
  simp [engineStep, fetch, internalStep, portSleep, hpc]

theorem engineStep_txAcct {s : State} (hv : s.par.Valid) (hready : s.host.ready = true) (hpc : s.pc = .txAcct) :
    engineStep s = .next (afterAcct (frRead s)) := by
  rw [engineStep_frRead hv hready (by simp [fetch, hpc])]
  simp [afterRequest, hpc]

theorem engineStep_txCalc {s : State} (hpc : s.pc = .txCalc) : engineStep s = .next (stepTxCalc s) := by
  simp [engineStep, fetch, internalStep, hpc]

/-! ### The flush (42:R187 to R190) -/

theorem engineStep_txFcond {s : State} (hv : s.par.Valid) (hready : s.host.ready = true) (hpc : s.pc = .txFcond) :
    engineStep s = .next (goto (if s.bsc.txq = [] then .txLoff else .txFoff) (frRead s)) := by
  rw [engineStep_frRead hv hready (by simp [fetch, hpc])]
  simp only [afterRequest, frRead_pc, hpc, frRead_par, txfeOf_frRead hv, decide_eq_true_eq]

/-- The labels whose micro-operation is a toggle. -/
theorem Label.inToggle_cases {l : Label} (h : l.inToggle = true) : l = .txFoff ∨ l = .txFon ∨ l = .txLoff ∨ l = .txLon := by
  cases l <;> simp [Label.inToggle] at h ⊢

theorem Label.hasTwoEvents_of_inToggle {l : Label} (h : l.inToggle = true) : l.hasTwoEvents = true := by
  obtain rfl | rfl | rfl | rfl := Label.inToggle_cases h <;> rfl

theorem Label.afterCalc_of_inToggle {l : Label} (h : l.inToggle = true) : l.afterCalc = true := by
  obtain rfl | rfl | rfl | rfl := Label.inToggle_cases h <;> rfl

/-- The read half of a toggle label. -/
theorem engineStep_toggle_read {s : State} (hv : s.par.Valid) (hready : s.host.ready = true)
    (hpc : s.pc.inToggle = true) (hhalf : s.half = false) : engineStep s = .next { crRead s with half := true } := by
  obtain hl | hl | hl | hl := Label.inToggle_cases hpc <;>
  · rw [engineStep_crRead hv hready (by simp [fetch, toggleRequest, hl, hhalf])]
    simp [afterRequest, afterEvent, hl, hhalf]

/-- The label after a toggle label (42:R188, R189). -/
def toggleNext : Label → Label
  | .txFoff => .txFon
  | .txFon => .txFcond
  | .txLoff => .txLon
  | _ => .txDone

/-- The word the write half of a toggle label writes (30:R105). -/
def toggleData (s : State) : Word :=
  match s.pc with
  | .txFoff | .txLoff => toggleOffWord s.par s.eng.c
  | _ => toggleOnWord s.par s.eng.c

/-- The end of the write half of a toggle label. -/
def toggleDone (s m : State) : State := { m with pc := toggleNext s.pc, half := false }

theorem fetch_toggle_write {s : State} (hpc : s.pc.inToggle = true) (hhalf : s.half = true) :
    fetch s = .request (writeRequest s.par .cr (toggleData s)) := by
  obtain hl | hl | hl | hl := Label.inToggle_cases hpc <;> simp [fetch, toggleRequest, toggleData, hl, hhalf]

theorem decodeRequest_toggleData {s : State} (hv : s.par.Valid) (hpc : s.pc.inToggle = true) :
    ∃ i, decodeRequest s.par (writeRequest s.par .cr (toggleData s)) = .ok i ∧
      ∀ u, exec i u = regWrite .cr (toggleData s) u := by
  obtain hl | hl | hl | hl := Label.inToggle_cases hpc <;> simp only [toggleData, hl]
  · exact ⟨_, decodeRequest_toggleOff hv _, exec_txeOff _⟩
  · exact ⟨_, decodeRequest_toggleOn hv _, exec_txeOn _⟩
  · exact ⟨_, decodeRequest_toggleOff hv _, exec_txeOff _⟩
  · exact ⟨_, decodeRequest_toggleOn hv _, exec_txeOn _⟩

/-- The write half of a toggle label. -/
theorem engineStep_toggle_write {s : State} (hv : s.par.Valid) (hpc : s.pc.inToggle = true) (hhalf : s.half = true) :
    engineStep s = andThen (regWrite .cr (toggleData s) s) fun m => .next (toggleDone s m) := by
  obtain ⟨i, hd, hexec⟩ := decodeRequest_toggleData hv hpc
  rw [engineStep_request (fetch_toggle_write hpc hhalf) hd, hexec]
  cases hwrite : regWrite .cr (toggleData s) s with
  | next m =>
    obtain ⟨hframe, -⟩ := regWrite_next hwrite
    have hmpc := hframe.pc
    have hmhalf := hframe.half.trans hhalf
    obtain hl | hl | hl | hl := Label.inToggle_cases hpc <;> rw [hl] at hmpc <;>
      simp [afterRequest, afterEvent, toggleDone, toggleNext, goto, hl, hmpc, hmhalf]
  | fault e => rfl
  | refused e => rfl

theorem engineStep_txDone {s : State} (hpc : s.pc = .txDone) : engineStep s = returnWith .done s.eng.count s := by
  simp [engineStep, fetch, internalStep, hpc]

/-! ### The obligations -/

/-- Settles O27: a checkpoint is `portChk` of its successor. -/
theorem checkpointAbortsOrContinues : Obligations.CheckpointAbortsOrContinues := by
  intro s u l next hturn hl hpc
  rw [step_of_engineTurn hturn, engineStep_checkpoint hl hpc]
  exact ⟨portChk_of_cancel next, portChk_of_not_cancel next⟩

/-- Settles O28: the two branches of `RX_ENTRY`. -/
theorem receiveEntry : Obligations.ReceiveEntry := by
  intro s u hturn hpc
  rw [step_of_engineTurn hturn, engineStep_rxEntry hpc, stepRxEntry]
  refine ⟨fun hbp => ?_, fun hbp => if_pos hbp⟩
  rw [if_neg (ne_true_of_eq_false hbp)]
  exact returnWith_fits .done 0 u (by decide)

/-- Settles O29: without room no word is issued, with room the snapshot decides. -/
theorem receiveCondition : Obligations.ReceiveCondition := by
  intro s u hturn hv hpc
  rw [step_of_engineTurn hturn]
  exact ⟨engineStep_rxCond_full hpc,
    fun hroom hready => ⟨_, engineStep_rxCond_room hv hready hpc hroom, rfl, rfl, rfl, rfl, rfl, rfl⟩⟩

/-- Settles O30: the snapshot labels leave `rsrRead`, and `RX_DR` leaves `drPopped`. -/
theorem snapshotSteps : Obligations.SnapshotSteps := by
  intro s u hturn hv hready
  rw [step_of_engineTurn hturn]
  refine ⟨fun l next hl hpc => ?_, fun hpc b rest hq => ?_⟩
  · have hstep : engineStep u = .next (goto next (rsrRead u)) := by
      simp only [List.mem_cons, Prod.mk.injEq, List.not_mem_nil, or_false] at hl
      obtain ⟨rfl, rfl⟩ | ⟨rfl, rfl⟩ := hl
      · exact engineStep_rxRsr hv hready hpc
      · exact engineStep_txRsr hv hready hpc
    exact ⟨_, hstep, oeOf_rsrValue u.bsc (drawWord u), ueOf_rsrValue u.bsc (drawWord u), rfl⟩
  · have hbyte : (drValue b (drawWord u)).extractLsb' 0 8 = b :=
      (extractLsb'_eq_dataOf _).trans (dataOf_drValue b _)
    exact ⟨_, engineStep_rxDr hv hready hpc hq, hbyte, rfl⟩

/-- Settles O31: by the label and by which of its two events is due. -/
theorem stickyFlagReportedAndCleared : Obligations.StickyFlagReportedAndCleared := by
  intro s u hturn hv
  rw [step_of_engineTurn hturn]
  refine ⟨fun hpc hhalf => ?_, fun hpc hhalf hready => engineStep_rxClr_clear hv hready hpc hhalf,
    fun hpc hhalf => ?_, fun hpc hhalf hready => engineStep_txClr_clear hv hready hpc hhalf⟩
  · rw [engineStep_rxClr_report hpc hhalf, stepReport_due _ _ _ _ hhalf]
    exact ⟨fun hflag => congrArg _ (if_neg (ne_true_of_eq_false hflag)), fun hflag => congrArg _ (if_pos hflag)⟩
  · rw [engineStep_txClr_report hpc hhalf, stepReport_due _ _ _ _ hhalf]
    exact ⟨fun hflag => congrArg _ (if_neg (ne_true_of_eq_false hflag)), fun hflag => congrArg _ (if_pos hflag)⟩

/-- Settles O32: the store is `Memory.write` at `E.n`, and its two laws of a read give the bytes. -/
theorem receiveStore : Obligations.ReceiveStore := by
  intro s u hturn hpc
  rw [step_of_engineTurn hturn, engineStep_rxStore hpc]
  refine ⟨fun hbuf hroom => ⟨_, stepRxStore_of_room hbuf hroom, ?_, fun a ha => ?_, rfl⟩, fun hout => ?_⟩
  · rw [extractLsb'_eq_dataOf]
    exact Memory.read_write_same _ _ _
  · exact Memory.read_write_other _ _ ha
  · rw [stepRxStore, portBufwr_outside hout]
    rfl

/-- The last step of a command is the return of its value. -/
theorem engineStep_return {s : State} {v : Nat} (h : (s.pc = .rxDone ∧ v = s.eng.n) ∨ (s.pc = .txDone ∧ v = s.eng.count) ∨
    (s.pc = .snDone ∧ v = if s.eng.f.getLsbD s.par.frRxbusy then 1 else 0)) :
    engineStep s = returnWith .done v s := by
  obtain ⟨hpc, rfl⟩ | ⟨hpc, rfl⟩ | ⟨hpc, rfl⟩ := h
  · exact engineStep_rxDone hpc
  · exact engineStep_txDone hpc
  · exact engineStep_snDone hpc

/-- A DONE return of a value that fits, with the response word as the value itself. -/
theorem returnWith_done {v : Nat} (s : State) (h : v < 2 ^ 31) : returnWith .done v s = .next { s with
    pc := .idle, obs := { s.obs with responses := s.obs.responses ++ [BitVec.ofNat 32 v] } } := by
  rw [returnWith_fits _ _ _ h, responseWord_done v h]

/-- Settles O33: each last label returns its value, and `Return` splits at 2^31. -/
theorem commandsReturn : Obligations.CommandsReturn := by
  intro s u v hturn hlabel
  rw [step_of_engineTurn hturn, engineStep_return hlabel]
  exact ⟨returnWith_done u, returnWith_wide .done v u⟩

/-- Settles O34: each condition is a fresh `frRead` and the branch on one of its flags. -/
theorem streamConditions : Obligations.StreamConditions := by
  intro s u hturn hv hready hlabel
  rw [step_of_engineTurn hturn]
  obtain hpc | hpc | hpc := hlabel
  · exact ⟨_, engineStep_txOcond hv hready hpc, by simp [hpc], by simp [hpc], by simp [hpc], rfl, rfl, rfl, rfl, rfl⟩
  · exact ⟨_, engineStep_txIcond hv hready hpc, by simp [hpc], by simp [hpc], by simp [hpc], rfl, rfl, rfl, rfl, rfl⟩
  · exact ⟨_, engineStep_txFcond hv hready hpc, by simp [hpc], by simp [hpc], by simp [hpc], rfl, rfl, rfl, rfl, rfl⟩

/-- The producer's answer is the next one listed. -/
theorem portProduce_listed {s : State} {b : Byte} {m : Bool} {rest : List (Byte × Bool)}
    (h : s.env.producer = (b, m) :: rest) :
    (portProduce s).eng.pb = b ∧ (portProduce s).eng.pm = m ∧ (portProduce s).env.producer = rest := by
  simp [portProduce, h]

/-- Settles O35: `TX_PROD` is one call, whose frame is `portProduce_frame`. -/
theorem producerCalledOnce : Obligations.ProducerCalledOnce := by
  intro s u hturn hpc
  obtain ⟨-, -, -, hbsc, hhost, hlog, heng, hobs⟩ := portProduce_frame u
  exact ⟨_, (step_of_engineTurn hturn).trans (engineStep_txProd hpc), hobs, rfl, heng, hbsc, hhost, hlog,
    fun b m rest hlist => portProduce_listed hlist⟩

/-- 40:R136(b): the address counts modulo its 16 bits. -/
theorem nextAddr_toNat (a : Addr) : (nextAddr a).toNat = (a.toNat + 1) % 65536 := by
  simp [nextAddr]

/-- Settles O36: the write of `TX_PUSH` keeps the order of the bytes in latch and queue together. -/
theorem streamPush : Obligations.StreamPush := by
  intro s u hturn hv hpc hready hroom
  refine ⟨_, (step_of_engineTurn hturn).trans (engineStep_txPush hv hready hpc hroom), rfl, rfl, nextAddr_toNat _, ?_,
    loadLatch_frame _ _, rfl, rfl, rfl⟩
  simp [txPushed, loadLatch_bytes]

/-- 40:R136(d): the clamp over the integers. -/
theorem clampedCount_eq (offered resident : Nat) :
    (clampedCount offered resident : Int) = max 0 ((offered : Int) - resident - 1) := by
  rw [clampedCount, Int.toNat_eq_max, max_comm]

/-- Settles O37: the level comes from a fresh snapshot, and the field is wide enough for it. -/
theorem streamAccounting : Obligations.StreamAccounting := by
  intro s u hturn
  rw [step_of_engineTurn hturn]
  refine ⟨fun hpc hv hready hlevel => ⟨_, engineStep_txAcct hv hready hpc, ?_⟩, fun hpc => ?_⟩
  · have hresident : txflrOf u.par (frRead u).eng.f = u.bsc.txq.length := txflrOf_frValue hv _ _ hlevel
    rw [afterAcct, frRead_par, hresident]
    rfl
  · exact ⟨_, clampedCount_eq _ _, engineStep_txCalc hpc⟩

/-- Settles O38: neither label looks at `cancel`. -/
theorem streamInitAndSleep : Obligations.StreamInitAndSleep := by
  intro s u hturn
  rw [step_of_engineTurn hturn]
  exact ⟨engineStep_txInit, engineStep_txSleep⟩

end Sys2Proof.Machine
end

