-- ==== Sys2Proof/Proofs/Agents.lean ====
section
/-! PROOFS. The steps of the I2C master and of the host (45_environment_agents.md sections 3 and 5): what each one does,
and what none of them can do. -/

namespace Sys2Proof.Machine

/-! ### Single steps of the master -/

/-- 45:R225: with TXE = 1 and a byte in the latch the master gets it, and the latch is loaded again. -/
theorem byteClockedOut_of_latched {s : State} {b : Byte} (htxe : txeOf s.par s.bsc.cr = true) (hb : s.bsc.txl = some b) :
    byteClockedOut s =
      masterReceives b { s with bsc := { s.bsc with txl := s.bsc.txq.head?, txq := s.bsc.txq.tail } } := by
  have hload := loadLatch_empty s.par { s.bsc with txl := none } htxe rfl
  rw [byteClockedOut, if_pos htxe]
  simp only [hb, hload]

/-- 45:R225, R228: with TXE = 1 and no byte available the read is an underrun. -/
theorem byteClockedOut_of_underrun {s : State} (htxe : txeOf s.par s.bsc.cr = true) (hb : s.bsc.txl = none) :
    byteClockedOut s =
      usedDraws 1 (masterReceives (dataOf (drawWord s)) { s with bsc := { s.bsc with ue := true } }) := by
  rw [byteClockedOut, if_pos htxe]
  simp only [hb]

/-- Settles O42: the two cases of a read while TXE = 1, by the latch. -/
theorem masterRead_gives_latched_byte : Obligations.MasterRead := by
  intro s rest hturn hbus htxe hset
  have hstep : step s = .next (byteClockedOut (withScript rest s)) :=
    (step_of_master hturn).trans (masterRead_of_setUp (s := withScript rest s) hbus hset)
  refine ⟨fun b hb => ?_, fun hb => ?_⟩
  · rw [hstep, byteClockedOut_of_latched (s := withScript rest s) htxe hb]
    rfl
  · rw [byteClockedOut_of_underrun (s := withScript rest s) htxe hb] at hstep
    exact ⟨_, _, hstep, rfl⟩

/-- Settles O44: the model sets the phase whatever it was, so also outside the phase it leads to. -/
theorem masterChangesPhase : Obligations.MasterChangesPhase := by
  intro s m p rest hm hturn _
  rw [step_of_master hturn]
  simp only [List.mem_cons, Prod.mk.injEq, List.not_mem_nil, or_false] at hm
  obtain ⟨rfl, rfl⟩ | ⟨rfl, rfl⟩ | ⟨rfl, rfl⟩ := hm <;> rfl

/-- Settles O45: the setup is tested after the phase. -/
theorem masterOutsideSetupRefused : Obligations.MasterOutsideSetupRefused := by
  intro s rest
  refine ⟨fun b hturn hbus hset => ?_, fun hturn hbus hset => ?_⟩
  · exact (step_of_master hturn).trans ((if_pos hbus).trans (if_neg (ne_true_of_eq_false hset)))
  · exact (step_of_master hturn).trans ((if_pos hbus).trans (if_neg (ne_true_of_eq_false hset)))

/-- A phase step in the phase it leads to changes nothing. -/
theorem busTo_same {p : BusPhase} {s : State} (h : s.bsc.bus = p) : busTo p s = s := by
  rw [← h]
  rfl

/-- Settles O46: a transfer outside its phase is the other branch of its first test, and a phase step is idempotent. -/
theorem masterStepNotEnabled : Obligations.MasterStepNotEnabled := by
  intro s m rest hturn hcase
  rw [step_of_master hturn]
  obtain ⟨⟨b, rfl⟩, hbus⟩ | ⟨rfl, hbus⟩ | ⟨rfl, hbus⟩ | ⟨rfl, hbus⟩ | ⟨rfl, hbus⟩ := hcase
  · exact if_neg hbus
  · exact if_neg hbus
  · exact congrArg _ (busTo_same (s := withScript rest s) hbus)
  · exact congrArg _ (busTo_same (s := withScript rest s) hbus)
  · exact congrArg _ (busTo_same (s := withScript rest s) hbus)

/-! ### What no step of the master does -/

/-- What every step of the master keeps, and how far it can move the queues and the flags (45:R232). -/
structure MasterFrame (s t : State) : Prop where
  par : t.par = s.par
  pc : t.pc = s.pc
  half : t.half = s.half
  eng : t.eng = s.eng
  host : t.host = s.host
  log : t.log = s.log
  obs : t.obs = { s.obs with masterGot := t.obs.masterGot }
  got : s.obs.masterGot <+: t.obs.masterGot
  cr : t.bsc.cr = s.bsc.cr
  oe : s.bsc.oe = true → t.bsc.oe = true
  ue : s.bsc.ue = true → t.bsc.ue = true
  rxq : s.bsc.rxq <+: t.bsc.rxq
  txq : t.bsc.txq.length ≤ s.bsc.txq.length
  path : (t.bsc.txl.toList ++ t.bsc.txq) <:+ (s.bsc.txl.toList ++ s.bsc.txq)
  inv : s.bsc.Inv s.par → t.bsc.Inv s.par

/-- A step that is not enabled. -/
theorem MasterFrame.refl (s : State) : MasterFrame s s where
  par := rfl
  pc := rfl
  half := rfl
  eng := rfl
  host := rfl
  log := rfl
  obs := rfl
  got := List.prefix_rfl
  cr := rfl
  oe := id
  ue := id
  rxq := List.prefix_rfl
  txq := Nat.le_refl _
  path := List.suffix_rfl
  inv := id

theorem busTo_frame (p : BusPhase) (s : State) : MasterFrame s (busTo p s) :=
  { MasterFrame.refl s with inv := fun h => ⟨h.rx, h.tx, h.latch⟩ }

theorem byteArrives_frame (b : Byte) (s : State) : MasterFrame s { s with bsc := byteArrives s.par b s.bsc } := by
  unfold byteArrives
  split
  next hroom =>
    exact { MasterFrame.refl s with
      rxq := List.prefix_append _ _
      inv := fun h => ⟨by simpa using hroom, h.tx, h.latch⟩ }
  next => exact { MasterFrame.refl s with oe := fun _ => rfl, inv := fun h => ⟨h.rx, h.tx, h.latch⟩ }

/-- The head and the tail of a list are the list. -/
theorem head?_toList_append_tail {α : Type} (l : List α) : l.head?.toList ++ l.tail = l := by
  cases l <;> rfl

theorem byteClockedOut_frame (s : State) : MasterFrame s (byteClockedOut s) := by
  cases htxe : txeOf s.par s.bsc.cr with
  | false =>
    rw [byteClockedOut_of_not_txe htxe]
    exact { MasterFrame.refl s with
      obs := rfl
      got := List.prefix_append _ _
      ue := fun h => by simp [h]
      inv := fun h => ⟨h.rx, h.tx, h.latch⟩ }
  | true =>
    cases hb : s.bsc.txl with
    | none =>
      rw [byteClockedOut_of_underrun htxe hb]
      exact { MasterFrame.refl s with
        obs := rfl
        got := List.prefix_append _ _
        ue := fun _ => rfl
        inv := fun h => ⟨h.rx, h.tx, h.latch⟩ }
    | some b =>
      rw [byteClockedOut_of_latched htxe hb]
      exact { MasterFrame.refl s with
        obs := rfl
        got := List.prefix_append _ _
        txq := by simp
        path := by
          rw [hb]
          exact ⟨[b], by simp [head?_toList_append_tail]⟩
        inv := fun h => ⟨h.rx, by simpa using Nat.le_add_right_of_le h.tx,
          fun _ hnone => congrArg List.tail (List.head?_eq_none_iff.mp hnone)⟩ }

theorem masterStep_frame {m : MasterStep} {s t : State} (h : masterStep m s = .next t) : MasterFrame s t := by
  cases m with
  | startWrite | startRead | stop =>
    cases h
    exact busTo_frame _ s
  | write b =>
    simp only [masterStep, masterWrite] at h
    split_ifs at h <;> cases h
    · exact byteArrives_frame b s
    · exact MasterFrame.refl s
  | read =>
    simp only [masterStep, masterRead] at h
    split_ifs at h <;> cases h
    · exact byteClockedOut_frame s
    · exact MasterFrame.refl s

/-- Settles O47: it is the frame of every step of the master. -/
theorem masterCannot : Obligations.MasterCannot := by
  intro s t m rest hturn hstep
  have hframe := masterStep_frame ((step_of_master hturn).symm.trans hstep)
  exact ⟨hframe.cr, hframe.host, hframe.eng, hframe.pc, hframe.log, by rw [hframe.obs]; rfl, hframe.oe, hframe.ue,
    hframe.rxq, hframe.path⟩

/-! ### The host -/

theorem step_of_host {s : State} {x : HostStep} {rest : List Turn} (h : s.env.script = .host x :: rest) :
    step s = .next (hostStep x (withScript rest s)) := by
  simp only [step, h]

/-- What no step of the host touches. -/
theorem hostStep_frame (x : HostStep) (s : State) :
    (hostStep x s).par = s.par ∧ (hostStep x s).half = s.half ∧ (hostStep x s).eng = s.eng ∧ (hostStep x s).pc = s.pc ∧
    (hostStep x s).log = s.log ∧ (hostStep x s).obs = s.obs ∧ (hostStep x s).env.script = s.env.script ∧
    (hostStep x s).env.producer = s.env.producer := by
  cases x with
  | cancel => exact ⟨rfl, rfl, rfl, rfl, rfl, rfl, rfl, rfl⟩
  | issue | uncancel | setup | teardown | unmap =>
    simp only [hostStep]
    split <;> exact ⟨rfl, rfl, rfl, rfl, rfl, rfl, rfl, rfl⟩

/-- `H.SETUP` acts in `IDLE` with the window not mapped (45:R238). -/
theorem hostStep_setup {s : State} (hpc : s.pc = .idle) (hready : s.host.ready = false) :
    hostStep (.setup true) s =
      usedDraws 6 { s with bsc := setUpBsc s.par s.env.draws s.bsc, host := { s.host with ready := true } } := by
  simp [hostStep, hpc, hready]

theorem hostStep_setup_not_enabled {mapped : Bool} {s : State}
    (h : mapped = false ∨ s.pc ≠ .idle ∨ s.host.ready = true) : hostStep (.setup mapped) s = s := by
  obtain rfl | hpc | hready := h
  · simp [hostStep]
  · simp [hostStep, hpc]
  · simp [hostStep, hready]

/-- The setup leaves the queues within their depths, whatever the free bytes are. -/
theorem setUpBsc_inv (p : Params) (k : Nat) (b : Bsc) : (setUpBsc p k b).Inv p :=
  loadLatch_inv _ _ (by simp) (by simp)

/-- The setup leaves the four bits of 45:R238 set. -/
theorem launchSetUp_setUpBsc {p : Params} (h : p.Valid) (k : Nat) (b : Bsc) :
    launchSetUp p (setUpBsc p k b).cr = true := by
  obtain ⟨hen, htxe, hrxe, hi2c, -⟩ : Config.crEn < 32 ∧ p.crTxe < 32 ∧ p.crRxe < 32 ∧ p.crI2c < 32 ∧ p.crBrk < 32 := by
    simpa [Params.crBits] using h.crBitFits
  simp [setUpBsc, launchSetUp, receiveSetUp, txeOf, setupWord, getLsbD_bit, hen, htxe, hrxe, hi2c]

/-- Settles O48: the frame of every host step, then each step with and without its enabling condition. -/
theorem hostSteps : Obligations.HostSteps := by
  intro s x rest hturn
  obtain ⟨hpar, hhalf, heng, hpc, hlog, hobs, hscript, hproducer⟩ := hostStep_frame x (withScript rest s)
  refine ⟨_, step_of_host hturn, hpar, hhalf, heng, hpc, hlog, hobs, hscript, hproducer, ?issue, ?cancel, ?uncancel,
    ?setup, ?setupNotEnabled, ?setupFails, ?teardown, ?unmap⟩
  case issue =>
    rintro cw cells rfl
    by_cases hcmd : s.host.cmd = none <;> simp [hostStep, hcmd]
  case cancel =>
    rintro rfl
    exact ⟨rfl, rfl⟩
  case uncancel =>
    rintro rfl
    by_cases hidle : s.pc = .idle <;> simp [hostStep, hidle]
  case setup =>
    rintro rfl hidle hready
    rw [hostStep_setup (s := withScript rest s) hidle hready]
    exact ⟨rfl, fun hv => launchSetUp_setUpBsc hv _ _, setUpBsc_inv _ _ _⟩
  case setupNotEnabled =>
    rintro rfl hnot
    rw [hostStep_setup_not_enabled (s := withScript rest s) (.inr hnot)]
    exact ⟨rfl, rfl⟩
  case setupFails =>
    rintro rfl
    rw [hostStep_setup_not_enabled (s := withScript rest s) (.inl rfl)]
    exact ⟨rfl, rfl⟩
  case teardown =>
    rintro rfl
    by_cases hidle : s.pc = .idle <;> simp [hostStep, hidle]
  case unmap =>
    rintro rfl
    by_cases hidle : s.pc = .idle <;> simp [hostStep, hidle]

end Sys2Proof.Machine
end

