-- ==== Sys2Proof/Proofs/WholeMachine.lean ====
section
/-! PROOFS. The rules that hold of every step, whatever agent takes it: the parameters, the streams, the sticky flags, the
requests, and what the engine leaves of CR and of the host. -/

namespace Sys2Proof.Machine

/-! ### Frames of the parts of a step -/

/-- The engine steps from the machine as it is, its turn used up. -/
theorem engineTurn_same {s u : State} (h : engineTurn s = some u) :
    u.par = s.par ∧ u.pc = s.pc ∧ u.half = s.half ∧ u.eng = s.eng ∧ u.bsc = s.bsc ∧ u.host = s.host ∧ u.log = s.log ∧
    u.obs = s.obs := by
  rw [engineTurn_eq h]
  exact ⟨rfl, rfl, rfl, rfl, rfl, rfl, rfl, rfl⟩

/-- What the engine keeps, and which streams it can extend, at a label without a register access. -/
structure InternalFrame (s t : State) : Prop where
  par : t.par = s.par
  bsc : t.bsc = s.bsc
  ready : t.host.ready = s.host.ready
  cancel : t.host.cancel = s.host.cancel
  log : s.log <+: t.log
  responses : s.obs.responses <+: t.obs.responses
  calls : s.obs.calls <+: t.obs.calls
  masterGot : t.obs.masterGot = s.obs.masterGot
  requests : t.obs.requests = s.obs.requests

theorem InternalFrame.refl (s : State) : InternalFrame s s where
  par := rfl
  bsc := rfl
  ready := rfl
  cancel := rfl
  log := List.prefix_rfl
  responses := List.prefix_rfl
  calls := List.prefix_rfl
  masterGot := rfl
  requests := rfl

theorem goto_internal (l : Label) (s : State) : InternalFrame s (goto l s) := { InternalFrame.refl s with }

theorem returnWith_internal {k : ReturnKind} {v : Nat} {s t : State} (h : returnWith k v s = .next t) :
    InternalFrame s t := by
  obtain ⟨-, rfl⟩ := returnWith_next h
  exact { InternalFrame.refl s with responses := List.prefix_append _ _ }

theorem portChk_internal {next : Label} {s t : State} (h : portChk next s = .next t) : InternalFrame s t := by
  unfold portChk at h
  split at h
  · exact returnWith_internal h
  · cases h
    exact goto_internal next s

theorem stepRxEntry_internal {s t : State} (h : stepRxEntry s = .next t) : InternalFrame s t := by
  unfold stepRxEntry at h
  split at h
  · cases h
    exact { InternalFrame.refl s with }
  · exact returnWith_internal h

theorem stepRxStore_next {s t : State} (h : stepRxStore s = .next t) :
    s.host.bufPresent = true ∧ s.eng.n < s.eng.cap ∧ t = rxStored s := by
  obtain ⟨m, hstore, ht⟩ := andThen_eq_next h
  obtain ⟨hbuf, hroom, rfl⟩ := portBufwr_next hstore
  cases ht
  exact ⟨hbuf, hroom, rfl⟩

theorem stepReport_internal (flag : Bool) (x : Event) (next : Label) (s : State) :
    InternalFrame s (stepReport flag x next s) := by
  unfold stepReport
  split
  · rw [afterEvent_frame]
    exact { InternalFrame.refl s with log := List.prefix_append _ _ }
  · exact goto_internal next s

theorem stepTxProd_internal (s : State) : InternalFrame s (stepTxProd s) := by
  obtain ⟨hpar, -, -, hbsc, hhost, hlog, -, hobs⟩ := portProduce_frame s
  exact
    { par := hpar
      bsc := hbsc
      ready := congrArg HostSide.ready hhost
      cancel := congrArg HostSide.cancel hhost
      log := by rw [stepTxProd, goto_log, hlog]
      responses := by rw [stepTxProd, goto_obs, hobs]
      calls := by rw [stepTxProd, goto_obs, hobs]; exact List.prefix_append _ _
      masterGot := by rw [stepTxProd, goto_obs, hobs]
      requests := by rw [stepTxProd, goto_obs, hobs] }

/-- The frame of a label without a register access, by the label. -/
theorem internalStep_frame {s t : State} (h : internalStep s = .next t) : InternalFrame s t := by
  cases hpc : s.pc <;> simp only [internalStep, hpc] at h
  case rxEntry => exact stepRxEntry_internal h
  case rxK0 | rxK1 | txK0 | txK1 | txK2 => exact portChk_internal h
  case rxDone | txDone => exact returnWith_internal h
  case snDone => exact returnWith_internal (k := .done) h
  case rxStore =>
    obtain ⟨-, -, rfl⟩ := stepRxStore_next h
    exact { InternalFrame.refl s with }
  case rxClr | txClr =>
    cases h
    exact stepReport_internal _ _ _ s
  case txProd =>
    cases h
    exact stepTxProd_internal s
  case rxCond | txSleep =>
    cases h
    exact goto_internal _ s
  case txInit | txCalc =>
    cases h
    exact { InternalFrame.refl s with }
  all_goals
    cases h
    exact InternalFrame.refl s

/-! ### The parameters and the streams -/

/-- The parameters stay, and `LOG` and the streams of 00:R12 only grow. -/
structure Extends (s t : State) : Prop where
  par : t.par = s.par
  log : s.log <+: t.log
  responses : s.obs.responses <+: t.obs.responses
  masterGot : s.obs.masterGot <+: t.obs.masterGot
  calls : s.obs.calls <+: t.obs.calls
  requests : s.obs.requests <+: t.obs.requests

/-- Equal parameters, `LOG` and streams. -/
theorem Extends.of_eq {s t : State} (hpar : t.par = s.par) (hlog : t.log = s.log) (hobs : t.obs = s.obs) :
    Extends s t where
  par := hpar
  log := by rw [hlog]
  responses := by rw [hobs]
  masterGot := by rw [hobs]
  calls := by rw [hobs]
  requests := by rw [hobs]

theorem Extends.trans {r s t : State} (h : Extends r s) (h' : Extends s t) : Extends r t :=
  ⟨h'.par.trans h.par, h.log.trans h'.log, h.responses.trans h'.responses, h.masterGot.trans h'.masterGot,
    h.calls.trans h'.calls, h.requests.trans h'.requests⟩

theorem withScript_extends (rest : List Turn) (s : State) : Extends s (withScript rest s) := .of_eq rfl rfl rfl

theorem takeCommand_extends (s : State) : Extends s (takeCommand s) := .of_eq rfl rfl rfl

theorem InternalFrame.extends {s t : State} (h : InternalFrame s t) : Extends s t :=
  ⟨h.par, h.log, h.responses, h.masterGot ▸ List.prefix_rfl, h.calls, h.requests ▸ List.prefix_rfl⟩

/-- A record and a response, as an answer that turns a command away gives them. -/
theorem Extends.of_answer {s : State} (l : Label) (x : BitVec 3 × Event) (w : Word) :
    Extends s { s with pc := l, log := s.log ++ [x], obs := { s.obs with responses := s.obs.responses ++ [w] } } :=
  ⟨rfl, List.prefix_append _ _, List.prefix_append _ _, List.prefix_rfl, List.prefix_rfl, List.prefix_rfl⟩

theorem exec_command_extends {i : Instr} {s t : State} (hi : isBusOp i = false) (h : exec i s = .next t) :
    Extends s t := by
  cases hready : s.host.ready with
  | true =>
    obtain ⟨-, hpar, -, -, -, -, -, -, -, hkeeps, -⟩ := commandFrame i s t hi h
    exact .of_eq hpar (hkeeps hready).1 (hkeeps hready).2
  | false =>
    rw [commandsNotReady i s hi hready] at h
    cases h
    exact .of_answer _ _ _

theorem busFrame_extends {w : Request} {s m : State} (h : BusFrame w s m) : Extends s (afterRequest m) := by
  obtain ⟨hpar, -, -, hlog, -, hobs⟩ := afterRequest_frame m
  exact
    { par := hpar.trans h.par
      log := by rw [hlog, h.log]
      responses := by rw [hobs, h.obs]
      masterGot := by rw [hobs, h.obs]
      calls := by rw [hobs, h.obs]
      requests := by rw [hobs, h.obs]; exact List.prefix_append _ _ }

theorem engineStep_extends {s t : State} (h : engineStep s = .next t) : Extends s t := by
  obtain ⟨-, rfl⟩ | ⟨cw, i, -, hd, hexec⟩ | ⟨cw, e, -, -, hreject⟩ | ⟨bw, i, m, -, hd, hexec, rfl⟩ | ⟨-, hinternal⟩ :=
    engineStep_cases h
  · exact .of_eq rfl rfl rfl
  · exact (takeCommand_extends s).trans (exec_command_extends (decodeCommand_isCommand hd) hexec)
  · rw [rejectReserved_eq] at hreject
    cases hreject
    exact (takeCommand_extends s).trans (.of_answer _ _ _)
  · obtain ⟨w, -, hframe⟩ := exec_busOp_frame (decodeRequest_isBusOp hd) hexec
    exact busFrame_extends hframe
  · exact (internalStep_frame hinternal).extends

theorem step_extends {s t : State} (h : step s = .next t) : Extends s t := by
  obtain ⟨u, hturn, hengine⟩ | ⟨m, rest, hturn, hmaster⟩ | ⟨x, rest, hturn, rfl⟩ := step_cases h
  · obtain ⟨hpar, -, -, -, -, -, hlog, hobs⟩ := engineTurn_same hturn
    exact (Extends.of_eq hpar hlog hobs).trans (engineStep_extends hengine)
  · have hframe := masterStep_frame hmaster
    exact (withScript_extends rest s).trans
      { par := hframe.par
        log := by rw [hframe.log]
        responses := by rw [hframe.obs]
        masterGot := hframe.got
        calls := by rw [hframe.obs]
        requests := by rw [hframe.obs] }
  · obtain ⟨hpar, -, -, -, hlog, hobs, -, -⟩ := hostStep_frame x (withScript rest s)
    exact (withScript_extends rest s).trans (.of_eq hpar hlog hobs)

/-- Settles O50: it is part of what every step keeps. -/
theorem parametersNeverChange : Obligations.ParametersNeverChange := fun _ _ h => (step_extends h).par

/-- Settles O55: every stream of a step is an extension of the one before. -/
theorem streamsOnlyGrow : Obligations.StreamsOnlyGrow := by
  intro s t h
  have hext := step_extends h
  exact ⟨hext.log, hext.responses, hext.masterGot, hext.calls, hext.requests⟩

/-! ### Requests and the sticky flags -/

theorem hostStep_keeps_flags (x : HostStep) (s : State) :
    (s.bsc.oe = true → (hostStep x s).bsc.oe = true) ∧ (s.bsc.ue = true → (hostStep x s).bsc.ue = true) := by
  cases x with
  | setup mapped =>
    simp only [hostStep]
    split
    · exact ⟨fun h => by simp [setUpBsc, h], fun h => by simp [setUpBsc, h]⟩
    · exact ⟨id, id⟩
  | cancel => exact ⟨id, id⟩
  | issue | uncancel | teardown | unmap =>
    simp only [hostStep]
    split <;> exact ⟨id, id⟩

/-- A step that makes no request and lowers no flag. -/
structure Quiet (s t : State) : Prop where
  requests : t.obs.requests = s.obs.requests
  oe : s.bsc.oe = true → t.bsc.oe = true
  ue : s.bsc.ue = true → t.bsc.ue = true

theorem Quiet.of_eq {s t : State} (hbsc : t.bsc = s.bsc) (hrequests : t.obs.requests = s.obs.requests) : Quiet s t where
  requests := hrequests
  oe := by rw [hbsc]; exact id
  ue := by rw [hbsc]; exact id

/-- The engine's step runs a micro-operation, or is quiet. -/
theorem engineStep_busOp_or_quiet {s t : State} (h : engineStep s = .next t) :
    (∃ bw i m, decodeRequest s.par bw = .ok i ∧ exec i s = .next m ∧ t = afterRequest m) ∨ Quiet s t := by
  obtain ⟨-, rfl⟩ | ⟨cw, i, -, hd, hexec⟩ | ⟨cw, e, -, -, hreject⟩ | ⟨bw, i, m, -, hd, hexec, rfl⟩ | ⟨-, hinternal⟩ :=
    engineStep_cases h
  · exact .inr (.of_eq rfl rfl)
  · obtain ⟨hbsc, -, -, -, -, -, -, -, hobs, -⟩ := commandFrame i _ t (decodeCommand_isCommand hd) hexec
    exact .inr (.of_eq hbsc (by rw [hobs]; rfl))
  · rw [rejectReserved_eq] at hreject
    cases hreject
    exact .inr (.of_eq rfl rfl)
  · exact .inl ⟨bw, i, m, hd, hexec, rfl⟩
  · have hframe := internalStep_frame hinternal
    exact .inr (.of_eq hframe.bsc hframe.requests)

/-- A step runs a micro-operation of the engine, or is quiet. -/
theorem step_busOp_or_quiet {s t : State} (h : step s = .next t) :
    (∃ u bw i m, engineTurn s = some u ∧ decodeRequest u.par bw = .ok i ∧ exec i u = .next m ∧ t = afterRequest m) ∨
    Quiet s t := by
  obtain ⟨u, hturn, hengine⟩ | ⟨m, rest, hturn, hmaster⟩ | ⟨x, rest, hturn, rfl⟩ := step_cases h
  · obtain ⟨bw, i, m, hop⟩ | hquiet := engineStep_busOp_or_quiet hengine
    · exact .inl ⟨u, bw, i, m, hturn, hop⟩
    · rw [engineTurn_eq hturn] at hquiet
      exact .inr ⟨hquiet.requests, hquiet.oe, hquiet.ue⟩
  · have hframe := masterStep_frame hmaster
    exact .inr ⟨by rw [hframe.obs]; rfl, hframe.oe, hframe.ue⟩
  · obtain ⟨-, -, -, -, -, hobs, -, -⟩ := hostStep_frame x (withScript rest s)
    obtain ⟨hoe, hue⟩ := hostStep_keeps_flags x (withScript rest s)
    exact .inr ⟨congrArg Observed.requests hobs, hoe, hue⟩

/-- Among the micro-operations only the clears change a sticky flag. -/
theorem exec_busOp_flags {i : Instr} {s m : State} (hi : isBusOp i = true) (h : exec i s = .next m) :
    (i = .clrOe ∨ m.bsc.oe = s.bsc.oe) ∧ (i = .clrUe ∨ m.bsc.ue = s.bsc.ue) := by
  obtain ⟨-, -, -, -, -, -, -, -, -, -, -, hop⟩ := busOpFrame i s m hi h
  cases i with
  | sense | rxpoll | txstream => cases hi
  | rdFr | rdRsr | rdCr =>
    obtain ⟨-, hbsc⟩ := hop
    exact ⟨.inr (by rw [hbsc]), .inr (by rw [hbsc])⟩
  | rdDr | wrDr =>
    obtain ⟨-, hbsc⟩ := hop
    exact ⟨.inr (by rw [hbsc]), .inr (by rw [hbsc])⟩
  | clrOe =>
    obtain ⟨-, hbsc⟩ := hop
    exact ⟨.inl rfl, .inr (by rw [hbsc])⟩
  | clrUe =>
    obtain ⟨-, hbsc⟩ := hop
    exact ⟨.inr (by rw [hbsc]), .inl rfl⟩
  | txeOff | txeOn =>
    obtain ⟨-, hoe, hue, -⟩ := hop
    exact ⟨.inr hoe, .inr hue⟩

/-- Settles O53: a flag that falls was lowered by its clear, whose request is its clear word. -/
theorem onlyClearRequestsLowerFlags : Obligations.OnlyClearRequestsLowerFlags := by
  intro s t h
  obtain ⟨u, bw, i, m, hturn, hd, hexec, rfl⟩ | hquiet := step_busOp_or_quiet h
  · have hi := decodeRequest_isBusOp hd
    obtain ⟨hoe, hue⟩ := exec_busOp_flags hi hexec
    have hready := ready_of_exec_busOp hi hexec
    obtain ⟨-, hbsc, -, -, -, hobs⟩ := afterRequest_frame m
    obtain ⟨hpar, -, -, -, hubsc, -, -, huobs⟩ := engineTurn_same hturn
    rw [hbsc, hobs, ← hubsc, ← huobs, ← hpar]
    refine ⟨fun hset hfell => ?_, fun hset hfell => ?_⟩
    · obtain rfl | hkept := hoe
      · rw [(clearStickyFlags u hready).1] at hexec
        cases hexec
        rfl
      · exact absurd (hkept.trans hset) (ne_true_of_eq_false hfell)
    · obtain rfl | hkept := hue
      · rw [(clearStickyFlags u hready).2] at hexec
        cases hexec
        rfl
      · exact absurd (hkept.trans hset) (ne_true_of_eq_false hfell)
  · refine ⟨fun hset hfell => ?_, fun hset hfell => ?_⟩
    · exact absurd (hquiet.oe hset) (ne_true_of_eq_false hfell)
    · exact absurd (hquiet.ue hset) (ne_true_of_eq_false hfell)

/-- Settles O56: the request a micro-operation makes is its own word, and that word decodes to it again. -/
theorem requestsAreMicroOperations : Obligations.RequestsAreMicroOperations := by
  intro s t hv h
  obtain ⟨u, bw, i, m, hturn, hd, hexec, rfl⟩ | hquiet := step_busOp_or_quiet h
  · obtain ⟨w, hword, hframe⟩ := exec_busOp_frame (decodeRequest_isBusOp hd) hexec
    obtain ⟨-, -, -, -, -, hobs⟩ := afterRequest_frame m
    obtain ⟨hpar, -, -, -, -, -, -, huobs⟩ := engineTurn_same hturn
    rw [hpar] at hd hword
    have hround := decodeEncodeRoundTrip s.par i hv (decodeRequest_wellFormed hv hd)
    rw [hword] at hround
    exact .inr ⟨w, i, by rw [hobs, hframe.obs, huobs], hround⟩
  · exact .inl hquiet.requests

/-! ### What the engine keeps of CR and of the host -/

/-- The micro-operation of a label that issues a request. -/
def labelOp (s : State) : Instr :=
  match s.pc with
  | .rxRsr | .txRsr => .rdRsr
  | .rxClr => .clrOe
  | .txClr => .clrUe
  | .rxDr => .rdDr
  | .txPush => .wrDr s.eng.pb
  | .txFoff | .txLoff => if s.half then .txeOff (toggleOffWord s.par s.eng.c) else .rdCr
  | .txFon | .txLon => if s.half then .txeOn (toggleOnWord s.par s.eng.c) else .rdCr
  | _ => .rdFr

/-- The word a label issues is the word of its micro-operation. -/
theorem decodeRequest_fetch {s : State} {bw : Request} (hv : s.par.Valid) (hf : fetch s = .request bw) :
    decodeRequest s.par bw = .ok (labelOp s) := by
  cases hpc : s.pc <;> simp only [fetch, labelOp, toggleRequest, hpc] at hf ⊢
  case snRd | txOcond | txIcond | txAcct | txFcond =>
    cases hf
    exact decodeRequest_read_fr hv
  case rxCond =>
    split_ifs at hf
    cases hf
    exact decodeRequest_read_fr hv
  case rxRsr | txRsr =>
    cases hf
    exact decodeRequest_read_rsr hv
  case rxClr =>
    split_ifs at hf
    cases hf
    exact decodeRequest_clearOe hv
  case txClr =>
    split_ifs at hf
    cases hf
    exact decodeRequest_clearUe hv
  case rxDr =>
    cases hf
    exact decodeRequest_read_dr hv
  case txPush =>
    cases hf
    exact decodeRequest_push hv s.eng.pb
  case txFoff | txLoff =>
    cases hhalf : s.half <;> simp only [hhalf] at hf <;> cases hf
    · exact decodeRequest_read_cr hv
    · exact decodeRequest_toggleOff hv s.eng.c
  case txFon | txLon =>
    cases hhalf : s.half <;> simp only [hhalf] at hf <;> cases hf
    · exact decodeRequest_read_cr hv
    · exact decodeRequest_toggleOn hv s.eng.c
  case idle | accept =>
    cases hcmd : s.host.cmd <;> simp only [hcmd] at hf <;> cases hf
  all_goals cases hf

theorem labelOp_eq_txeOff {s : State} {w : Word} (h : labelOp s = .txeOff w) :
    s.half = true ∧ s.pc.inToggle = true ∧ w = toggleOffWord s.par s.eng.c := by
  cases hpc : s.pc <;> simp only [labelOp, hpc] at h
  case txFoff | txLoff =>
    split_ifs at h with hhalf
    cases h
    exact ⟨hhalf, rfl, rfl⟩
  case txFon | txLon => split_ifs at h
  all_goals cases h

theorem labelOp_eq_txeOn {s : State} {w : Word} (h : labelOp s = .txeOn w) :
    s.half = true ∧ s.pc.inToggle = true ∧ w = toggleOnWord s.par s.eng.c := by
  cases hpc : s.pc <;> simp only [labelOp, hpc] at h
  case txFon | txLon =>
    split_ifs at h with hhalf
    cases h
    exact ⟨hhalf, rfl, rfl⟩
  case txFoff | txLoff => split_ifs at h
  all_goals cases h

/-- Among the micro-operations only the toggles change CR, to their operand. -/
theorem exec_busOp_cr {i : Instr} {s m : State} (hi : isBusOp i = true) (h : exec i s = .next m) :
    m.bsc.cr = s.bsc.cr ∨ i = .txeOff m.bsc.cr ∨ i = .txeOn m.bsc.cr := by
  obtain ⟨-, -, -, -, -, -, -, -, -, -, -, hop⟩ := busOpFrame i s m hi h
  cases i with
  | sense | rxpoll | txstream => cases hi
  | rdFr | rdRsr | rdCr | rdDr | wrDr | clrOe | clrUe =>
    obtain ⟨-, hbsc⟩ := hop
    exact .inl (by rw [hbsc])
  | txeOff w =>
    rw [exec_txeOff] at h
    obtain ⟨-, hcr, -⟩ := regWrite_cr_next h
    exact .inr (.inl (by rw [hcr]))
  | txeOn w =>
    rw [exec_txeOn] at h
    obtain ⟨-, hcr, -⟩ := regWrite_cr_next h
    exact .inr (.inr (by rw [hcr]))

/-- 30:R105: the toggle words agree with the word they are made from in every bit but TXE. -/
theorem toggleWord_other_bit (p : Params) (c : Word) {k : Nat} (hk : k ≠ p.crTxe) :
    (toggleOffWord p c).getLsbD k = c.getLsbD k ∧ (toggleOnWord p c).getLsbD k = c.getLsbD k := by
  by_cases hlt : k < 32
  · simp [toggleOffWord_getLsbD p c hlt, toggleOnWord_getLsbD p c hlt, hk]
  · simp [BitVec.getLsbD_of_ge _ k (Nat.not_lt.mp hlt)]

/-- A label's micro-operation changes no bit of CR but TXE, since what a toggle writes back is CR as just read. -/
theorem exec_labelOp_cr {s m : State} (hinv : s.Inv) (hop : isBusOp (labelOp s) = true)
    (h : exec (labelOp s) s = .next m) {k : Nat} (hk : k ≠ s.par.crTxe) :
    m.bsc.cr.getLsbD k = s.bsc.cr.getLsbD k := by
  obtain hkept | hoff | hon := exec_busOp_cr hop h
  · rw [hkept]
  · obtain ⟨hhalf, htoggle, hw⟩ := labelOp_eq_txeOff hoff
    rw [hw, ← hinv.toggle hhalf htoggle]
    exact (toggleWord_other_bit _ _ hk).1
  · obtain ⟨hhalf, htoggle, hw⟩ := labelOp_eq_txeOn hon
    rw [hw, ← hinv.toggle hhalf htoggle]
    exact (toggleWord_other_bit _ _ hk).2

/-- What an engine step that meets the invariant keeps of CR, the bus phase and the host's side. -/
theorem engineStep_keeps_setup {s t : State} (hinv : s.Inv) (h : engineStep s = .next t) :
    (∀ k, k ≠ s.par.crTxe → t.bsc.cr.getLsbD k = s.bsc.cr.getLsbD k) ∧
    t.bsc.bus = s.bsc.bus ∧ t.host.ready = s.host.ready ∧ t.host.cancel = s.host.cancel := by
  obtain ⟨-, rfl⟩ | ⟨cw, i, -, hd, hexec⟩ | ⟨cw, e, -, -, hreject⟩ | ⟨bw, i, m, hf, hd, hexec, rfl⟩ | ⟨-, hinternal⟩ :=
    engineStep_cases h
  · exact ⟨fun _ _ => rfl, rfl, rfl, rfl⟩
  · obtain ⟨hbsc, -, -, -, hready, hcancel, -⟩ := commandFrame i _ t (decodeCommand_isCommand hd) hexec
    rw [hbsc]
    exact ⟨fun _ _ => rfl, rfl, hready, hcancel⟩
  · rw [rejectReserved_eq] at hreject
    cases hreject
    exact ⟨fun _ _ => rfl, rfl, rfl, rfl⟩
  · obtain rfl : labelOp s = i := by
      rw [decodeRequest_fetch hinv.par hf] at hd
      exact Except.ok.inj hd
    have hop := decodeRequest_isBusOp hd
    obtain ⟨w, -, hframe⟩ := exec_busOp_frame hop hexec
    obtain ⟨-, hbsc, hhost, -⟩ := afterRequest_frame m
    rw [hbsc, hhost, hframe.host]
    exact ⟨fun k hk => exec_labelOp_cr hinv hop hexec hk, hframe.bus, rfl, rfl⟩
  · have hframe := internalStep_frame hinternal
    rw [hframe.bsc]
    exact ⟨fun _ _ => rfl, rfl, hframe.ready, hframe.cancel⟩

/-- The invariant does not look at the turns, `LOG` or the streams. -/
theorem State.Inv.congr {s t : State} (h : s.Inv) (hpar : t.par = s.par) (hpc : t.pc = s.pc) (hhalf : t.half = s.half)
    (heng : t.eng = s.eng) (hbsc : t.bsc = s.bsc) (hhost : t.host = s.host) : t.Inv := by
  obtain ⟨par, pc, half, eng, bsc, host, log, env, obs⟩ := t
  subst hpar hpc hhalf heng hbsc hhost
  exact ⟨h.par, h.bsc, h.buf, h.half, h.toggle, h.entry, h.present, h.pop, h.store, h.push, h.count⟩

theorem State.Inv.engineTurn {s u : State} (h : s.Inv) (hturn : engineTurn s = some u) : u.Inv := by
  obtain ⟨hpar, hpc, hhalf, heng, hbsc, hhost, -, -⟩ := engineTurn_same hturn
  exact h.congr hpar hpc hhalf heng hbsc hhost

/-- Settles O54: the engine's turn is a step of the engine from the same machine. -/
theorem engineChangesOnlyTxe : Obligations.EngineChangesOnlyTxe := by
  intro s u t hinv hturn hstep
  obtain ⟨hpar, -, -, -, hbsc, hhost, -, -⟩ := engineTurn_same hturn
  have hkeeps := engineStep_keeps_setup (hinv.engineTurn hturn) ((step_of_engineTurn hturn).symm.trans hstep)
  rwa [hbsc, hhost] at hkeeps

end Sys2Proof.Machine
end

