-- ==== Sys2Proof/Proofs/Invariant.lean ====
section
/-! PROOFS. The invariant of 10_state.md R47: every step of every agent keeps it, and from it no step is a model fault. -/

namespace Sys2Proof.Machine

/-! ### The invariant by labels -/

/-- What the sequencer has established when it stands at a label (41:R154, R157, 42:R176, R180, R191(b)). -/
def Established (l : Label) (s : State) : Prop :=
  match l with
  | .rxEntry => s.eng.bp = true → s.host.bufPresent = true
  | .rxK0 | .rxCond | .rxDone => s.host.bufPresent = true ∧ s.eng.n ≤ s.eng.cap
  | .rxK1 | .rxRsr | .rxClr | .rxDr => s.host.bufPresent = true ∧ s.eng.n < s.eng.cap ∧ s.bsc.rxq ≠ []
  | .rxStore => s.host.bufPresent = true ∧ s.eng.n < s.eng.cap
  | .txK2 | .txRsr | .txClr | .txProd | .txPush => s.bsc.txq.length < s.par.txDepth
  | .txFcond | .txFoff | .txFon | .txLoff | .txLon | .txDone => s.eng.count ≤ s.eng.offered
  | _ => True

/-- Between the two events of a label (20:R72). -/
def HalfOk (s : State) : Prop :=
  s.half = true → s.pc.hasTwoEvents = true ∧ (s.pc.inToggle = true → s.eng.c = s.bsc.cr)

theorem halfOk_of_false {s : State} (h : s.half = false) : HalfOk s := fun hhalf =>
  absurd hhalf (ne_true_of_eq_false h)

/-- The invariant from the facts of its own label alone. -/
theorem State.Inv.of_established {s : State} (par : s.par.Valid) (bsc : s.bsc.Inv s.par) (buf : Memory.wf s.host.buf)
    (hhalf : HalfOk s) (hlabel : Established s.pc s) : s.Inv where
  par := par
  bsc := bsc
  buf := buf
  half h := (hhalf h).1
  toggle h := (hhalf h).2
  entry hpc := by
    rw [hpc] at hlabel
    exact hlabel
  present hpc := by
    cases hl : s.pc <;> rw [hl] at hpc hlabel <;> simp [Label.inRxpoll] at hpc <;>
      simp only [Established] at hlabel
    case rxStore => exact ⟨hlabel.1, Nat.le_of_lt hlabel.2⟩
    case rxK1 | rxRsr | rxClr | rxDr => exact ⟨hlabel.1, Nat.le_of_lt hlabel.2.1⟩
    all_goals exact hlabel
  pop hpc := by
    cases hl : s.pc <;> rw [hl] at hpc hlabel <;> simp [Label.beforePop] at hpc <;> exact hlabel.2
  store hpc := by
    rw [hpc] at hlabel
    exact hlabel.2
  push hpc := by
    cases hl : s.pc <;> rw [hl] at hpc hlabel <;> simp [Label.beforePush] at hpc <;> exact hlabel
  count hpc := by
    cases hl : s.pc <;> rw [hl] at hpc hlabel <;> simp [Label.afterCalc] at hpc <;> exact hlabel

theorem State.Inv.established {s : State} (h : s.Inv) : Established s.pc s := by
  cases hl : s.pc
  case rxEntry => exact h.entry hl
  case rxK0 | rxCond | rxDone => exact h.present (by rw [hl]; rfl)
  case rxK1 | rxRsr | rxClr | rxDr => exact ⟨(h.present (by rw [hl]; rfl)).1, h.pop (by rw [hl]; rfl)⟩
  case rxStore => exact ⟨(h.present (by rw [hl]; rfl)).1, h.store hl⟩
  case txK2 | txRsr | txClr | txProd | txPush => exact h.push (by rw [hl]; rfl)
  case txFcond | txFoff | txFon | txLoff | txLon | txDone => exact h.count (by rw [hl]; rfl)
  all_goals trivial

theorem State.Inv.halfOk {s : State} (h : s.Inv) : HalfOk s := fun hhalf => ⟨h.half hhalf, h.toggle hhalf⟩

/-- The established facts, with the label known. -/
theorem State.Inv.at_label {s : State} {l : Label} (h : s.Inv) (hpc : s.pc = l) : Established l s :=
  hpc ▸ h.established

/-- A label of one event is never found between two. -/
theorem State.Inv.half_eq_false {s : State} {l : Label} (h : s.Inv) (hpc : s.pc = l) (hl : l.hasTwoEvents = false) :
    s.half = false := by
  by_contra hhalf
  have htwo := h.half (eq_true_of_ne_false hhalf)
  rw [hpc, hl] at htwo
  cases htwo

/-- What a label has established survives any step that keeps the engine, the buffer and the room and loses no received
byte. -/
theorem Established.mono {l : Label} {s t : State} (h : Established l s) (hpar : t.par = s.par) (heng : t.eng = s.eng)
    (hbuf : t.host.bufPresent = s.host.bufPresent) (hrxq : s.bsc.rxq ≠ [] → t.bsc.rxq ≠ [])
    (htxq : t.bsc.txq.length ≤ s.bsc.txq.length) : Established l t := by
  cases l <;> simp only [Established, hpar, heng, hbuf] at h ⊢
  case rxK1 | rxRsr | rxClr | rxDr => exact ⟨h.1, h.2.1, hrxq h.2.2⟩
  case txK2 | txRsr | txClr | txProd | txPush => exact Nat.lt_of_le_of_lt htxq h
  all_goals exact h

/-! ### The steps of the master and of the host -/

theorem masterStep_keeps_inv {m : MasterStep} {s t : State} (hinv : s.Inv) (h : masterStep m s = .next t) : t.Inv := by
  have hf := masterStep_frame h
  refine .of_established (hf.par ▸ hinv.par) (hf.par ▸ hf.inv hinv.bsc) (hf.host ▸ hinv.buf) (fun hhalf => ?_) ?_
  · rw [hf.half] at hhalf
    rw [hf.pc, hf.eng, hf.cr]
    exact hinv.halfOk hhalf
  · rw [hf.pc]
    refine hinv.established.mono hf.par hf.eng (congrArg _ hf.host) (fun hne hnil => hne ?_) hf.txq
    exact List.prefix_nil.mp (hnil ▸ hf.rxq)

/-- A host step is the setup from `IDLE`, or leaves the BSC and the caller's buffer alone. -/
theorem hostStep_cases (x : HostStep) (s : State) :
    (s.pc = .idle ∧ (hostStep x s).bsc.Inv s.par ∧ (hostStep x s).host.buf = s.host.buf) ∨
    ((hostStep x s).bsc = s.bsc ∧ (hostStep x s).host.buf = s.host.buf ∧
      (hostStep x s).host.bufPresent = s.host.bufPresent) := by
  cases x with
  | setup mapped =>
    by_cases hon : mapped = true ∧ s.pc = .idle ∧ s.host.ready = false
    · obtain ⟨rfl, hpc, hready⟩ := hon
      rw [hostStep_setup hpc hready]
      exact .inl ⟨hpc, setUpBsc_inv _ _ _, rfl⟩
    · simp only [not_and_or, Bool.not_eq_true, Bool.not_eq_false] at hon
      rw [hostStep_setup_not_enabled hon]
      exact .inr ⟨rfl, rfl, rfl⟩
  | cancel => exact .inr ⟨rfl, rfl, rfl⟩
  | issue | uncancel | teardown | unmap =>
    right
    simp only [hostStep]
    split <;> exact ⟨rfl, rfl, rfl⟩

theorem hostStep_keeps_inv (x : HostStep) {s : State} (hinv : s.Inv) : (hostStep x s).Inv := by
  obtain ⟨hpar, hhalf, heng, hpc, -⟩ := hostStep_frame x s
  obtain ⟨hidle, hbsc, hbuf⟩ | ⟨hbsc, hbuf, hpresent⟩ := hostStep_cases x s
  · refine .of_established (hpar ▸ hinv.par) (hpar ▸ hbsc) (hbuf ▸ hinv.buf) (halfOk_of_false ?_) ?_
    · rw [hhalf]
      exact hinv.half_eq_false hidle rfl
    · rw [hpc, hidle]
      trivial
  · refine .of_established (hpar ▸ hinv.par) (by rw [hbsc, hpar]; exact hinv.bsc) (hbuf ▸ hinv.buf) (fun hh => ?_) ?_
    · rw [hhalf] at hh
      rw [hpc, heng, hbsc]
      exact hinv.halfOk hh
    · rw [hpc]
      exact hinv.established.mono hpar heng hpresent (by rw [hbsc]; exact id) (by rw [hbsc])

/-! ### The engine: commands, returns and checkpoints -/

/-- A state in `IDLE` with the same BSC and buffer. -/
theorem State.Inv.to_idle {s : State} (hinv : s.Inv) (hhalf : s.half = false) (log : List (BitVec 3 × Event))
    (obs : Observed) : { s with pc := .idle, log := log, obs := obs }.Inv :=
  .of_established hinv.par hinv.bsc hinv.buf (halfOk_of_false hhalf) trivial

theorem returnWith_keeps_inv {k : ReturnKind} {v : Nat} {s t : State} (hinv : s.Inv) (hhalf : s.half = false)
    (h : returnWith k v s = .next t) : t.Inv := by
  obtain ⟨-, rfl⟩ := returnWith_next h
  exact hinv.to_idle hhalf s.log _

/-- Going on to a label whose facts hold already. -/
theorem State.Inv.goto {s : State} (hinv : s.Inv) (hhalf : s.half = false) {l : Label} (hl : Established l s) :
    (goto l s).Inv :=
  .of_established hinv.par hinv.bsc hinv.buf (halfOk_of_false hhalf) (by cases l <;> exact hl)

theorem portChk_keeps_inv {next : Label} {s t : State} (hinv : s.Inv) (hhalf : s.half = false)
    (h : portChk next s = .next t) (hnext : Established next s) : t.Inv := by
  unfold portChk at h
  split at h
  · exact returnWith_keeps_inv hinv hhalf h
  · cases h
    exact hinv.goto hhalf hnext

theorem launchRxpoll_buf_wf (bp : Bool) (arg : BitVec 16) (s : State) : Memory.wf (launchRxpoll bp arg s).host.buf := by
  cases bp
  · exact List.Pairwise.nil
  · exact Memory.ofCells_wf _ _

theorem exec_command_keeps_inv {i : Instr} {s t : State} (hinv : s.Inv) (hhalf : s.half = false)
    (hi : isBusOp i = false) (h : exec i s = .next t) : t.Inv := by
  cases i with
  | sense =>
    rw [exec_sense] at h
    obtain ⟨-, rfl⟩ | ⟨-, rfl⟩ := acceptWith_next h
    · exact .of_established hinv.par hinv.bsc hinv.buf (halfOk_of_false hhalf) trivial
    · exact hinv.to_idle hhalf _ _
  | rxpoll bp arg =>
    rw [exec_rxpoll] at h
    obtain ⟨-, rfl⟩ | ⟨-, rfl⟩ := acceptWith_next h
    · exact .of_established hinv.par hinv.bsc (launchRxpoll_buf_wf bp arg s) (halfOk_of_false hhalf) id
    · exact hinv.to_idle hhalf _ _
  | txstream addr =>
    rw [exec_txstream] at h
    obtain ⟨-, rfl⟩ | ⟨-, rfl⟩ := acceptWith_next h
    · exact .of_established hinv.par hinv.bsc hinv.buf (halfOk_of_false hhalf) trivial
    · exact hinv.to_idle hhalf _ _
  | rdDr | rdRsr | rdCr | rdFr | wrDr | clrOe | clrUe | txeOff | txeOn => cases hi

/-! ### The engine: labels without a register access -/

theorem stepReport_keeps_inv {flag : Bool} {x : Event} {next : Label} {s : State} (hinv : s.Inv) (hhalf : s.half = false)
    (htwo : s.pc.hasTwoEvents = true) (htoggle : s.pc.inToggle = false) (hnext : Established next s) :
    (stepReport flag x next s).Inv := by
  rw [stepReport_due flag x next s hhalf]
  cases flag with
  | false => exact hinv.goto hhalf hnext
  | true =>
    refine .of_established hinv.par hinv.bsc hinv.buf (fun _ => ⟨htwo, fun hin => ?_⟩)
      (hinv.established.mono rfl rfl rfl id (Nat.le_refl _))
    exact absurd (htoggle.symm.trans hin) (by decide)

theorem stepRxEntry_keeps_inv {s t : State} (hinv : s.Inv) (hpc : s.pc = .rxEntry) (h : stepRxEntry s = .next t) :
    t.Inv := by
  have hhalf := hinv.half_eq_false hpc rfl
  unfold stepRxEntry at h
  split at h
  next hbp =>
    cases h
    exact .of_established hinv.par hinv.bsc hinv.buf (halfOk_of_false hhalf) ⟨hinv.entry hpc hbp, Nat.zero_le _⟩
  next => exact returnWith_keeps_inv hinv hhalf h

theorem rxStored_inv {s : State} (hinv : s.Inv) (hhalf : s.half = false) (hbuf : s.host.bufPresent = true)
    (hroom : s.eng.n < s.eng.cap) : (rxStored s).Inv :=
  .of_established hinv.par hinv.bsc (Memory.write_wf _ _ _ hinv.buf) (halfOk_of_false hhalf) ⟨hbuf, hroom⟩

theorem stepTxProd_keeps_inv {s : State} (hinv : s.Inv) (hpc : s.pc = .txProd) : (stepTxProd s).Inv := by
  obtain ⟨hpar, -, hhalf, hbsc, hhost, -⟩ := portProduce_frame s
  have hroom := hinv.at_label hpc
  refine .of_established (hpar ▸ hinv.par) ?_ (hhost ▸ hinv.buf) (halfOk_of_false ?_) ?_
  · change (portProduce s).bsc.Inv (portProduce s).par
    rw [hbsc, hpar]
    exact hinv.bsc
  · exact hhalf.trans (hinv.half_eq_false hpc rfl)
  · rw [stepTxProd]
    split
    · change (portProduce s).bsc.txq.length < (portProduce s).par.txDepth
      rw [hbsc, hpar]
      exact hroom
    · trivial

theorem clampedCount_le (offered resident : Nat) : clampedCount offered resident ≤ offered := by
  unfold clampedCount
  omega

/-- The labels without a register access keep the invariant, each by what it established for the next one. -/
theorem internalStep_keeps_inv {s t : State} (hinv : s.Inv) (h : internalStep s = .next t) (hf : fetch s = .internal) :
    t.Inv := by
  have hlabel := hinv.established
  cases hpc : s.pc <;> rw [hpc] at hlabel <;> simp only [internalStep, hpc] at h
  case rxEntry => exact stepRxEntry_keeps_inv hinv hpc h
  case rxK0 | rxK1 | txK2 => exact portChk_keeps_inv hinv (hinv.half_eq_false hpc rfl) h hlabel
  case txK0 | txK1 => exact portChk_keeps_inv hinv (hinv.half_eq_false hpc rfl) h trivial
  case rxDone | txDone => exact returnWith_keeps_inv hinv (hinv.half_eq_false hpc rfl) h
  case snDone => exact returnWith_keeps_inv (k := .done) hinv (hinv.half_eq_false hpc rfl) h
  case rxStore =>
    obtain ⟨hbuf, hroom, rfl⟩ := stepRxStore_next h
    exact rxStored_inv hinv (hinv.half_eq_false hpc rfl) hbuf hroom
  case rxCond =>
    cases h
    exact hinv.goto (hinv.half_eq_false hpc rfl) hlabel
  case txSleep =>
    cases h
    exact hinv.goto (hinv.half_eq_false hpc rfl) trivial
  case txInit =>
    cases h
    exact .of_established hinv.par hinv.bsc hinv.buf (halfOk_of_false (hinv.half_eq_false hpc rfl)) trivial
  case txCalc =>
    cases h
    exact .of_established hinv.par hinv.bsc hinv.buf (halfOk_of_false (hinv.half_eq_false hpc rfl))
      (clampedCount_le _ _)
  case rxClr | txClr =>
    cases h
    have hhalf : s.half = false := by
      by_contra htrue
      simp [fetch, hpc, htrue] at hf
    exact stepReport_keeps_inv hinv hhalf (by rw [hpc]; rfl) (by rw [hpc]; rfl) hlabel
  case txProd =>
    cases h
    exact stepTxProd_keeps_inv hinv hpc
  all_goals
    cases h
    exact hinv

/-! ### The engine: labels with a register access -/

/-- A write of CR keeps 10:R47, whether TXE falls, rises or stays. -/
theorem txeEdge_write_inv {p : Params} {b : Bsc} (h : b.Inv p) (v : Word) :
    (txeEdge p b.cr { b with cr := v }).Inv p := by
  cases hnew : txeOf p v with
  | false =>
    rw [txeEdge_of_not_txe _ _ (b := { b with cr := v }) hnew]
    exact ⟨h.rx, h.tx, fun htxe => absurd htxe (ne_true_of_eq_false hnew)⟩
  | true =>
    rw [txeEdge_of_txe _ _ (b := { b with cr := v }) hnew]
    split
    next hold => exact ⟨h.rx, h.tx, fun _ => h.latch hold⟩
    next => exact loadLatch_inv _ _ h.rx h.tx

theorem regWrite_cr_keeps_bsc_inv {v : Word} {s m : State} (hinv : s.bsc.Inv s.par) (h : regWrite .cr v s = .next m) :
    m.bsc.Inv s.par := by
  obtain ⟨-, -, -, -, hbreak, hedge⟩ := regWrite_cr_next h
  cases hbrk : brkOf s.par v with
  | true => exact hbreak hbrk
  | false =>
    rw [hedge hbrk]
    exact txeEdge_write_inv hinv v

/-- The write half of a toggle keeps the invariant, BRK set or not. -/
theorem toggleDone_inv {s m : State} (hinv : s.Inv) (hpc : s.pc.inToggle = true)
    (h : regWrite .cr (toggleData s) s = .next m) : (toggleDone s m).Inv := by
  obtain ⟨hframe, heng, -⟩ := regWrite_next h
  have hcount : s.eng.count ≤ s.eng.offered := hinv.count (Label.afterCalc_of_inToggle hpc)
  refine .of_established (hframe.par ▸ hinv.par) ?_ (hframe.host ▸ hinv.buf) (halfOk_of_false rfl) ?_
  · change m.bsc.Inv m.par
    rw [hframe.par]
    exact regWrite_cr_keeps_bsc_inv hinv.bsc h
  · rw [← heng] at hcount
    obtain hl | hl | hl | hl := Label.inToggle_cases hpc <;> simp only [toggleDone, hl] <;> exact hcount

/-- The read half of a toggle takes CR as it is. -/
theorem toggleRead_inv {s : State} (hinv : s.Inv) (hpc : s.pc.inToggle = true) : { crRead s with half := true }.Inv := by
  have hcount : s.eng.count ≤ s.eng.offered := hinv.count (Label.afterCalc_of_inToggle hpc)
  refine .of_established hinv.par hinv.bsc hinv.buf (fun _ => ⟨Label.hasTwoEvents_of_inToggle hpc, fun _ => rfl⟩) ?_
  change Established s.pc _
  obtain hl | hl | hl | hl := Label.inToggle_cases hpc <;> rw [hl] <;> exact hcount

theorem toggle_keeps_inv {s t : State} (hinv : s.Inv) (hready : s.host.ready = true) (hpc : s.pc.inToggle = true)
    (h : engineStep s = .next t) : t.Inv := by
  cases hhalf : s.half with
  | false =>
    rw [engineStep_toggle_read hinv.par hready hpc hhalf] at h
    cases h
    exact toggleRead_inv hinv hpc
  | true =>
    rw [engineStep_toggle_write hinv.par hpc hhalf] at h
    obtain ⟨m, hwrite, ht⟩ := andThen_eq_next h
    cases ht
    exact toggleDone_inv hinv hpc hwrite

theorem loadLatch_push_inv {s : State} (hinv : s.Inv) (b : Byte) (hroom : s.bsc.txq.length < s.par.txDepth) :
    (loadLatch s.par { s.bsc with txq := s.bsc.txq ++ [b] }).Inv s.par :=
  loadLatch_inv _ _ hinv.bsc.rx (by simpa using hroom)

/-- Going on, after a snapshot of FR, to a label whose facts hold already. -/
theorem frRead_goto_inv {s : State} (hinv : s.Inv) (hhalf : s.half = false) {l : Label} (hl : Established l s) :
    (goto l (frRead s)).Inv :=
  .of_established hinv.par hinv.bsc hinv.buf (halfOk_of_false hhalf) (by cases l <;> exact hl)

/-- Going on, after a snapshot of RSR, to a label whose facts hold already. -/
theorem rsrRead_goto_inv {s : State} (hinv : s.Inv) (hhalf : s.half = false) {l : Label} (hl : Established l s) :
    (goto l (rsrRead s)).Inv :=
  .of_established hinv.par hinv.bsc hinv.buf (halfOk_of_false hhalf) (by cases l <;> exact hl)

/-- The labels with a register access keep the invariant; what a test found in the snapshot is what the next label needs. -/
theorem request_keeps_inv {s t : State} {bw : Request} (hinv : s.Inv) (hready : s.host.ready = true)
    (hf : fetch s = .request bw) (h : engineStep s = .next t) : t.Inv := by
  have hv := hinv.par
  have hlabel := hinv.established
  cases hpc : s.pc <;> rw [hpc] at hlabel
  case snRd =>
    rw [engineStep_snRd hv hready hpc] at h
    cases h
    exact frRead_goto_inv hinv (hinv.half_eq_false hpc rfl) trivial
  case rxCond =>
    have hroom : s.eng.n < s.eng.cap := by
      by_contra hfull
      simp [fetch, hpc, hfull] at hf
    rw [engineStep_rxCond_room hv hready hpc hroom] at h
    cases h
    refine frRead_goto_inv hinv (hinv.half_eq_false hpc rfl) ?_
    split
    next => exact hlabel
    next hne => exact ⟨hlabel.1, hroom, hne⟩
  case rxRsr =>
    rw [engineStep_rxRsr hv hready hpc] at h
    cases h
    exact rsrRead_goto_inv hinv (hinv.half_eq_false hpc rfl) hlabel
  case rxClr =>
    have hhalf : s.half = true := by
      by_contra hfalse
      simp [fetch, hpc, hfalse] at hf
    rw [engineStep_rxClr_clear hv hready hpc hhalf] at h
    cases h
    exact .of_established hv ⟨hinv.bsc.rx, hinv.bsc.tx, hinv.bsc.latch⟩ hinv.buf (halfOk_of_false rfl) hlabel
  case rxDr =>
    obtain ⟨b, rest, hq⟩ := List.exists_cons_of_ne_nil hlabel.2.2
    rw [engineStep_rxDr hv hready hpc hq] at h
    cases h
    have hrest : rest.length ≤ s.par.rxDepth := by
      have hrx := hinv.bsc.rx
      rw [hq, List.length_cons] at hrx
      omega
    exact .of_established hv ⟨hrest, hinv.bsc.tx, hinv.bsc.latch⟩ hinv.buf
      (halfOk_of_false (hinv.half_eq_false hpc rfl)) ⟨hlabel.1, hlabel.2.1⟩
  case txOcond =>
    rw [engineStep_txOcond hv hready hpc] at h
    cases h
    refine frRead_goto_inv hinv (hinv.half_eq_false hpc rfl) ?_
    split <;> trivial
  case txIcond =>
    rw [engineStep_txIcond hv hready hpc] at h
    cases h
    refine frRead_goto_inv hinv (hinv.half_eq_false hpc rfl) ?_
    split
    next => trivial
    next hroom => exact Nat.lt_of_le_of_ne hinv.bsc.tx hroom
  case txRsr =>
    rw [engineStep_txRsr hv hready hpc] at h
    cases h
    exact rsrRead_goto_inv hinv (hinv.half_eq_false hpc rfl) hlabel
  case txClr =>
    have hhalf : s.half = true := by
      by_contra hfalse
      simp [fetch, hpc, hfalse] at hf
    rw [engineStep_txClr_clear hv hready hpc hhalf] at h
    cases h
    exact .of_established hv ⟨hinv.bsc.rx, hinv.bsc.tx, hinv.bsc.latch⟩ hinv.buf (halfOk_of_false rfl) hlabel
  case txPush =>
    rw [engineStep_txPush hv hready hpc hlabel] at h
    cases h
    exact .of_established hv (loadLatch_push_inv hinv _ hlabel) hinv.buf
      (halfOk_of_false (hinv.half_eq_false hpc rfl)) trivial
  case txAcct =>
    rw [engineStep_txAcct hv hready hpc] at h
    cases h
    exact .of_established hv hinv.bsc hinv.buf (halfOk_of_false (hinv.half_eq_false hpc rfl)) trivial
  case txFcond =>
    rw [engineStep_txFcond hv hready hpc] at h
    cases h
    refine frRead_goto_inv hinv (hinv.half_eq_false hpc rfl) ?_
    split <;> exact hlabel
  case txFoff | txFon | txLoff | txLon => exact toggle_keeps_inv hinv hready (by rw [hpc]; rfl) h
  case idle | accept => cases hcmd : s.host.cmd <;> simp [fetch, hpc, hcmd] at hf
  all_goals simp [fetch, hpc] at hf

/-! ### Every step -/

/-- A command word is taken up in `IDLE` only (log entry 19 for `ACCEPT`). -/
theorem fetch_command_label {s : State} {cw : Word} (hf : fetch s = .command cw) : s.pc = .idle ∨ s.pc = .accept := by
  cases hpc : s.pc <;> simp only [fetch, hpc] at hf
  case idle => exact .inl rfl
  case accept => exact .inr rfl
  case rxCond | rxClr | txClr => split_ifs at hf
  all_goals cases hf

theorem half_of_fetch_command {s : State} {cw : Word} (hinv : s.Inv) (hf : fetch s = .command cw) : s.half = false := by
  obtain hpc | hpc := fetch_command_label hf <;> exact hinv.half_eq_false hpc rfl

theorem takeCommand_inv {s : State} (hinv : s.Inv) : (takeCommand s).Inv :=
  .of_established hinv.par hinv.bsc hinv.buf hinv.halfOk (hinv.established.mono rfl rfl rfl id (Nat.le_refl _))

theorem engineStep_keeps_inv {s t : State} (hinv : s.Inv) (h : engineStep s = .next t) : t.Inv := by
  obtain ⟨-, rfl⟩ | ⟨cw, i, hf, hd, hexec⟩ | ⟨cw, e, hf, -, hreject⟩ | ⟨bw, i, m, hf, hd, hexec, -⟩ | ⟨hf, hinternal⟩ :=
    engineStep_cases h
  · exact hinv
  · exact exec_command_keeps_inv (takeCommand_inv hinv) (half_of_fetch_command (s := s) hinv hf) (decodeCommand_isCommand hd) hexec
  · rw [rejectReserved_eq] at hreject
    cases hreject
    exact (takeCommand_inv hinv).to_idle (half_of_fetch_command (s := s) hinv hf) _ _
  · exact request_keeps_inv hinv (ready_of_exec_busOp (decodeRequest_isBusOp hd) hexec) hf h
  · exact internalStep_keeps_inv hinv hinternal hf

theorem withScript_inv {s : State} (hinv : s.Inv) (rest : List Turn) : (withScript rest s).Inv :=
  hinv.congr rfl rfl rfl rfl rfl rfl

/-- Settles O51: by the agent that takes the step. -/
theorem stepKeepsInvariant : Obligations.StepKeepsInvariant := by
  intro s t hinv h
  obtain ⟨u, hturn, hengine⟩ | ⟨m, rest, -, hmaster⟩ | ⟨x, rest, -, rfl⟩ := step_cases h
  · exact engineStep_keeps_inv (hinv.engineTurn hturn) hengine
  · exact masterStep_keeps_inv (withScript_inv hinv rest) hmaster
  · exact hostStep_keeps_inv x (withScript_inv hinv rest)

/-- Settles O49: the stated values, and a machine in `IDLE` with empty queues and buffer. -/
theorem resetState : Obligations.ResetState :=
  ⟨rfl, rfl, rfl, rfl, rfl, rfl, .of_established Params.default_valid ⟨by decide, by decide, fun _ _ => rfl⟩
    Memory.reset_wf (halfOk_of_false rfl) trivial⟩

/-! ### No model fault -/

theorem noFault_andThen_next {o : Result} {f : State → State} (h : noFault o = true) :
    noFault (andThen o fun m => .next (f m)) = true := by
  cases o with
  | next | refused => rfl
  | fault => cases h

theorem noFault_returnWith (k : ReturnKind) (v : Nat) (s : State) : noFault (returnWith k v s) = true := by
  unfold returnWith
  split <;> rfl

theorem noFault_acceptWith (launch : State → State) (s : State) : noFault (acceptWith launch s) = true := by
  unfold acceptWith
  split_ifs
  · rfl
  · rfl
  · exact noFault_returnWith _ _ _

theorem noFault_portChk (next : Label) (s : State) : noFault (portChk next s) = true := by
  unfold portChk
  split
  · exact noFault_returnWith _ _ _
  · rfl

theorem noFault_regWrite_cr (v : Word) {s : State} (hready : s.host.ready = true) :
    noFault (regWrite .cr v s) = true := by
  rw [regWrite_cr v s hready, writeCr]
  split <;> rfl

/-- With the window mapped a micro-operation can fault only on an empty receive FIFO or a full transmit FIFO. -/
theorem noFault_exec_busOp {i : Instr} {s : State} (hi : isBusOp i = true) (hready : s.host.ready = true)
    (hpop : i = .rdDr → s.bsc.rxq ≠ []) (hpush : ∀ b, i = .wrDr b → s.bsc.txq.length < s.par.txDepth) :
    noFault (exec i s) = true := by
  cases i with
  | sense | rxpoll | txstream => cases hi
  | rdFr =>
    rw [exec_rdFr_mapped hready]
    rfl
  | rdRsr =>
    rw [exec_rdRsr_mapped hready]
    rfl
  | rdCr =>
    rw [exec_rdCr_mapped hready]
    rfl
  | rdDr =>
    obtain ⟨b, rest, hq⟩ := List.exists_cons_of_ne_nil (hpop rfl)
    rw [exec_rdDr, readInto_of_ok _ (regRead_dr s hready hq)]
    rfl
  | wrDr b =>
    rw [exec_wrDr, regWrite_dr _ s hready (hpush b rfl)]
    rfl
  | clrOe =>
    rw [(clearStickyFlags s hready).1]
    rfl
  | clrUe =>
    rw [(clearStickyFlags s hready).2]
    rfl
  | txeOff w => exact noFault_regWrite_cr w hready
  | txeOn w => exact noFault_regWrite_cr w hready

theorem labelOp_eq_rdDr {s : State} (h : labelOp s = .rdDr) : s.pc = .rxDr := by
  cases hpc : s.pc <;> simp only [labelOp, hpc] at h
  case rxDr => rfl
  case txFoff | txFon | txLoff | txLon => split_ifs at h
  all_goals cases h

theorem labelOp_eq_wrDr {s : State} {b : Byte} (h : labelOp s = .wrDr b) : s.pc = .txPush := by
  cases hpc : s.pc <;> simp only [labelOp, hpc] at h
  case txPush => rfl
  case txFoff | txFon | txLoff | txLon => split_ifs at h
  all_goals cases h

/-- Of the labels without a register access only `RX_STORE` could fault, and it has room. -/
theorem noFault_internalStep {s : State} (hinv : s.Inv) : noFault (internalStep s) = true := by
  cases hpc : s.pc <;> simp only [internalStep, hpc]
  case rxEntry =>
    unfold stepRxEntry
    split
    · rfl
    · exact noFault_returnWith _ _ _
  case rxK0 | rxK1 | txK0 | txK1 | txK2 => exact noFault_portChk _ _
  case rxDone | txDone | snDone => exact noFault_returnWith _ _ _
  case rxStore =>
    obtain ⟨hbuf, hroom⟩ := hinv.at_label hpc
    rw [stepRxStore_of_room hbuf hroom]
    rfl
  all_goals rfl

theorem noFault_engineStep {s : State} (hinv : s.Inv) (hready : s.host.ready = true) : noFault (engineStep s) = true := by
  cases hf : fetch s with
  | nothing => simp [engineStep, hf, noFault]
  | command cw =>
    cases hd : decodeCommand cw with
    | ok i =>
      rw [engineStep_of_command hf hd]
      obtain ⟨launch, hexec⟩ := exec_command (decodeCommand_isCommand hd) (takeCommand s)
      rw [hexec]
      exact noFault_acceptWith _ _
    | error e =>
      rw [engineStep_of_reserved hf hd, rejectReserved_eq]
      rfl
  | request bw =>
    have hd := decodeRequest_fetch hinv.par hf
    rw [engineStep_request hf hd]
    refine noFault_andThen_next (noFault_exec_busOp (decodeRequest_isBusOp hd) hready (fun hop => ?_) fun b hop => ?_)
    · exact (hinv.at_label (labelOp_eq_rdDr hop)).2.2
    · exact hinv.at_label (labelOp_eq_wrDr hop)
  | internal =>
    rw [engineStep_internal hf]
    exact noFault_internalStep hinv

theorem noFault_masterStep (m : MasterStep) (s : State) : noFault (masterStep m s) = true := by
  cases m with
  | startWrite | startRead | stop => rfl
  | write b =>
    simp only [masterStep, masterWrite]
    split_ifs <;> rfl
  | read =>
    simp only [masterStep, masterRead]
    split_ifs <;> rfl

/-- Settles O52: only the engine accesses registers and the buffer, and its label has established what the access needs. -/
theorem noModelFault : Obligations.NoModelFault := by
  intro s hinv hready
  cases hscript : s.env.script with
  | nil =>
    rw [step_of_engineTurn (u := s) (by simp [engineTurn, hscript])]
    exact noFault_engineStep hinv hready
  | cons turn rest =>
    cases turn with
    | engine =>
      rw [step_of_engineTurn (u := withScript rest s) (by simp [engineTurn, hscript])]
      exact noFault_engineStep (withScript_inv hinv rest) hready
    | master m =>
      rw [step_of_master hscript]
      exact noFault_masterStep m _
    | host x =>
      rw [step_of_host hscript]
      rfl

end Sys2Proof.Machine
end

