-- ==== Sys2Proof/Proofs/Flush.lean ====
section
/-! PROOFS. The toggle cycle and the flush of 42_transmit_streamer.md section 5: `cancel` is not consulted, one cycle drops
one byte, and the flush empties the transmit path. -/

namespace Sys2Proof.Machine

/-! ### `cancel` during the flush -/

/-- The same machine with `cancel` set. -/
def setCancel (s : State) : State := { s with host := { s.host with cancel := true } }

theorem engineTurn_setCancel {s u : State} (h : engineTurn s = some u) : engineTurn (setCancel s) = some (setCancel u) := by
  cases hscript : s.env.script with
  | nil =>
    simp only [engineTurn, hscript] at h
    cases h
    simp [engineTurn, setCancel, hscript]
  | cons turn rest =>
    cases turn <;> simp only [engineTurn, hscript] at h <;> cases h
    simp [engineTurn, setCancel, withScript, hscript]

theorem breakEffect_setCancel (s : State) : breakEffect (setCancel s) = setCancel (breakEffect s) := by
  unfold breakEffect
  change (if brkOf s.par s.bsc.cr then _ else _) = _
  split <;> rfl

theorem writeCr_setCancel {v : Word} {s t : State} (h : writeCr v s = .next t) :
    writeCr v (setCancel s) = .next (setCancel t) := by
  obtain ⟨hfix, -⟩ := writeCr_next h
  rw [writeCr_of_fixed hfix] at h
  cases h
  have hbreak : breakEffect (withCr v (setCancel s)) = setCancel (breakEffect (withCr v s)) :=
    breakEffect_setCancel (withCr v s)
  rw [writeCr_of_fixed (s := setCancel s) hfix, hbreak]
  rfl

/-- A label's register access that completes had the window mapped. -/
theorem ready_of_fetch_request {s t : State} {bw : Request} (hv : s.par.Valid) (hf : fetch s = .request bw)
    (h : engineStep s = .next t) : s.host.ready = true := by
  have hd := decodeRequest_fetch hv hf
  rw [engineStep_request hf hd] at h
  obtain ⟨m, hexec, -⟩ := andThen_eq_next h
  exact ready_of_exec_busOp (decodeRequest_isBusOp hd) hexec

theorem fetch_of_inFlush {s : State} (h : s.pc.inFlush = true) : ∃ bw, fetch s = .request bw := by
  cases hpc : s.pc <;> rw [hpc] at h <;> simp [Label.inFlush] at h <;> exact ⟨_, by simp only [fetch, hpc]; rfl⟩

theorem engineStep_setCancel {s t : State} (hv : s.par.Valid) (hflush : s.pc.inFlush = true) (h : engineStep s = .next t) :
    engineStep (setCancel s) = .next (setCancel t) := by
  obtain ⟨bw, hf⟩ := fetch_of_inFlush hflush
  have hready := ready_of_fetch_request hv hf h
  by_cases hpc : s.pc = .txFcond
  · rw [engineStep_txFcond hv hready hpc] at h
    cases h
    exact engineStep_txFcond (s := setCancel s) hv hready hpc
  have htoggle : s.pc.inToggle = true := by
    cases hl : s.pc <;> simp [hl, Label.inFlush] at hflush hpc <;> rfl
  cases hhalf : s.half with
  | false =>
    rw [engineStep_toggle_read hv hready htoggle hhalf] at h
    cases h
    exact engineStep_toggle_read (s := setCancel s) hv hready htoggle hhalf
  | true =>
    rw [engineStep_toggle_write hv htoggle hhalf, regWrite_cr _ _ hready] at h
    obtain ⟨m, hwrite, ht⟩ := andThen_eq_next h
    cases ht
    have hcancel := writeCr_setCancel hwrite
    rw [engineStep_toggle_write (s := setCancel s) hv htoggle hhalf, regWrite_cr _ (setCancel s) hready]
    exact (congrArg (andThen · _) hcancel)

/-- Settles O40: no label of the flush is a checkpoint, so each step commutes with setting `cancel`. -/
theorem flushIgnoresCancel : Obligations.FlushIgnoresCancel := by
  intro s u t hturn hv hflush h
  rw [step_of_engineTurn hturn] at h
  exact (step_of_engineTurn (engineTurn_setCancel hturn)).trans (engineStep_setCancel hv hflush h)

/-! ### Runs of the engine alone -/

/-- With only the engine stepping, the machine comes from `s` to `t`. -/
def EngineRuns (s t : State) : Prop := ∃ j, ∀ k, core.run (k + j) s = core.run k t

theorem EngineRuns.step {s t : State} (h : engineStep s = .next t) (hs : EngineOnly s) : EngineRuns s t :=
  ⟨1, fun k => run_engine_succ k hs h⟩

theorem EngineRuns.trans {r s t : State} (h : EngineRuns r s) (h' : EngineRuns s t) : EngineRuns r t := by
  obtain ⟨i, hi⟩ := h
  obtain ⟨j, hj⟩ := h'
  exact ⟨j + i, fun k => by rw [← Nat.add_assoc, hi, hj]⟩

theorem EngineRuns.exists_run {s t : State} (h : EngineRuns s t) : ∃ k, core.run k s = .next t := by
  obtain ⟨j, hj⟩ := h
  exact ⟨j, by simpa [Host.Core.run] using hj 0⟩

/-! ### One toggle cycle -/

/-- What the two events of `TXE_OFF` leave (40:R128): the latched byte is gone. -/
def toggledOff (s : State) : State :=
  { s with
    pc := toggleNext s.pc
    eng := { s.eng with c := s.bsc.cr }
    bsc := { s.bsc with cr := toggleOffWord s.par s.bsc.cr, txl := none }
    obs := { s.obs with requests := s.obs.requests ++
      [readRequest s.par .cr, writeRequest s.par .cr (toggleOffWord s.par s.bsc.cr)] } }

/-- What the two events of `TXE_ON` leave with the latch empty (40:R129): the next byte stands in the latch. -/
def toggledOn (s : State) : State :=
  { s with
    pc := toggleNext s.pc
    eng := { s.eng with c := s.bsc.cr }
    bsc := { s.bsc with cr := toggleOnWord s.par s.bsc.cr, txl := s.bsc.txq.head?, txq := s.bsc.txq.tail }
    obs := { s.obs with requests := s.obs.requests ++
      [readRequest s.par .cr, writeRequest s.par .cr (toggleOnWord s.par s.bsc.cr)] } }

/-- The two events of a toggle label without BRK (20:R72), with no other agent between. -/
theorem run_toggle_label (k : Nat) {s : State} {v : Word} (hv : s.par.Valid) (hs : EngineOnly s) (hhalf : s.half = false)
    (hready : s.host.ready = true) (hpc : s.pc.inToggle = true) (hdata : toggleData { crRead s with half := true } = v)
    (hfix : (s.bsc.cr ^^^ v) &&& setupFixedWord s.par = 0#32) (hbrk : brkOf s.par v = false) :
    core.run (k + 2) s = core.run k { s with
      pc := toggleNext s.pc
      half := false
      eng := { s.eng with c := s.bsc.cr }
      bsc := txeEdge s.par s.bsc.cr { s.bsc with cr := v }
      obs := { s.obs with requests := s.obs.requests ++ [readRequest s.par .cr, writeRequest s.par .cr v] } } := by
  have hread := engineStep_toggle_read hv hready hpc hhalf
  have hwrite : engineStep { crRead s with half := true } = .next (toggleDone s (issueRequest (writeRequest s.par .cr v)
      { crRead s with half := true, bsc := txeEdge s.par s.bsc.cr { s.bsc with cr := v } })) := by
    rw [engineStep_toggle_write (s := { crRead s with half := true }) hv hpc rfl, hdata,
      regWrite_cr_of_not_brk (s := { crRead s with half := true }) hready hfix hbrk]
    rfl
  rw [run_engine_succ (k + 1) hs hread, run_engine_succ k (s := { crRead s with half := true }) hs hwrite]
  simp [toggleDone, crRead, issueRequest]

theorem run_toggleOff (k : Nat) {s : State} (hv : s.par.Valid) (hs : EngineOnly s) (hhalf : s.half = false)
    (hready : s.host.ready = true) (htxe : txeOf s.par s.bsc.cr = true) (hbrk : brkOf s.par s.bsc.cr = false)
    (hpc : s.pc = .txFoff ∨ s.pc = .txLoff) : core.run (k + 2) s = core.run k (toggledOff s) := by
  have htoggle : s.pc.inToggle = true := by obtain hl | hl := hpc <;> rw [hl] <;> rfl
  have hdata : toggleData { crRead s with half := true } = toggleOffWord s.par s.bsc.cr := by
    obtain hl | hl := hpc <;> simp [toggleData, hl]
  have hedge := txeEdge_of_not_txe s.par s.bsc.cr (b := { s.bsc with cr := toggleOffWord s.par s.bsc.cr })
    (txeOf_toggleOff hv _)
  rw [run_toggle_label k hv hs hhalf hready htoggle hdata (setupFixed_toggleOff hv _) ((brkOf_toggleOff hv _).trans hbrk),
    hedge]
  simp [toggledOff, htxe, hhalf]

theorem run_toggleOn (k : Nat) {s : State} (hv : s.par.Valid) (hs : EngineOnly s) (hhalf : s.half = false)
    (hready : s.host.ready = true) (htxe : txeOf s.par s.bsc.cr = false) (hlatch : s.bsc.txl = none)
    (hbrk : brkOf s.par s.bsc.cr = false) (hpc : s.pc = .txFon ∨ s.pc = .txLon) :
    core.run (k + 2) s = core.run k (toggledOn s) := by
  have htoggle : s.pc.inToggle = true := by obtain hl | hl := hpc <;> rw [hl] <;> rfl
  have hdata : toggleData { crRead s with half := true } = toggleOnWord s.par s.bsc.cr := by
    obtain hl | hl := hpc <;> simp [toggleData, hl]
  have hon := txeOf_toggleOn hv s.bsc.cr
  have hedge := txeEdge_of_txe s.par s.bsc.cr (b := { s.bsc with cr := toggleOnWord s.par s.bsc.cr }) hon
  have hload := loadLatch_empty s.par { s.bsc with cr := toggleOnWord s.par s.bsc.cr } hon hlatch
  rw [run_toggle_label k hv hs hhalf hready htoggle hdata (setupFixed_toggleOn hv _) ((brkOf_toggleOn hv _).trans hbrk),
    hedge, hload]
  simp [toggledOn, htxe, hhalf]

/-- What a whole cycle leaves: the latched byte gone, the next one in the latch, CR as it was. -/
def toggled (s : State) : State :=
  { s with
    pc := toggleNext (toggleNext s.pc)
    eng := { s.eng with c := toggleOffWord s.par s.bsc.cr }
    bsc := { s.bsc with txl := s.bsc.txq.head?, txq := s.bsc.txq.tail }
    obs := { s.obs with requests := s.obs.requests ++
      [readRequest s.par .cr, writeRequest s.par .cr (toggleOffWord s.par s.bsc.cr),
       readRequest s.par .cr, writeRequest s.par .cr s.bsc.cr] } }

theorem run_toggle (k : Nat) {s : State} (hv : s.par.Valid) (hs : EngineOnly s) (hhalf : s.half = false)
    (hready : s.host.ready = true) (htxe : txeOf s.par s.bsc.cr = true) (hbrk : brkOf s.par s.bsc.cr = false)
    (hpc : s.pc = .txFoff ∨ s.pc = .txLoff) : core.run (k + 4) s = core.run k (toggled s) := by
  have hnext : (toggledOff s).pc = .txFon ∨ (toggledOff s).pc = .txLon := by
    obtain hl | hl := hpc
    · exact .inl (congrArg toggleNext hl)
    · exact .inr (congrArg toggleNext hl)
  have hback : toggleOnWord s.par (toggleOffWord s.par s.bsc.cr) = s.bsc.cr :=
    (toggleOn_toggleOff _ _).trans (toggleOn_of_txe _ _ htxe)
  rw [run_toggleOff (k + 2) hv hs hhalf hready htxe hbrk hpc,
    run_toggleOn k (s := toggledOff s) hv hs hhalf hready (txeOf_toggleOff hv _) rfl ((brkOf_toggleOff hv _).trans hbrk)
      hnext]
  simp [toggledOn, toggledOff, toggled, hback]

/-- Settles O39: the run of four events is `toggled`, at both pairs of labels. -/
theorem toggleDropsAndLoads : Obligations.ToggleDropsAndLoads := by
  intro s hv hs hhalf hready htxe hbrk hpc
  rw [run_toggle 0 hv hs hhalf hready htxe hbrk hpc]
  have hlabel : toggleNext (toggleNext s.pc) = if s.pc = .txFoff then .txFcond else .txDone := by
    obtain hl | hl := hpc <;> rw [hl] <;> rfl
  rw [← hlabel]
  rfl

/-! ### The whole flush -/

/-- What the flush needs at its test (42:R187): no other agent stepping, and CR with BRK = 0 and TXE = 1. -/
structure Flushing (s : State) : Prop where
  par : s.par.Valid
  quiet : EngineOnly s
  half : s.half = false
  ready : s.host.ready = true
  txe : txeOf s.par s.bsc.cr = true
  brk : brkOf s.par s.bsc.cr = false
  count : s.eng.count < 2 ^ 31

/-- The requests of one test of the flush and the cycle after it. -/
def flushRequests (p : Params) (cr : Word) : List Request :=
  [readRequest p .fr, readRequest p .cr, writeRequest p .cr (toggleOffWord p cr), readRequest p .cr, writeRequest p .cr cr]

/-- One test of the flush and the cycle after it. -/
theorem run_flush_cycle {s : State} (hf : Flushing s) (hpc : s.pc = .txFcond) {l : Label}
    (hl : l = if s.bsc.txq = [] then .txLoff else .txFoff) : EngineRuns s (toggled (goto l (frRead s))) := by
  have htest : engineStep s = .next (goto l (frRead s)) := hl ▸ engineStep_txFcond hf.par hf.ready hpc
  have hlabel : l = .txFoff ∨ l = .txLoff := by
    rw [hl]
    split
    · exact .inr rfl
    · exact .inl rfl
  exact (EngineRuns.step htest hf.quiet).trans
    ⟨4, fun k => run_toggle k (s := goto l (frRead s)) hf.par hf.quiet hf.half hf.ready hf.txe hf.brk hlabel⟩

/-- 42:R187 to R190: the flush from its test to the return of the command, by the bytes still queued. -/
theorem flush_runs (q : List Byte) : ∀ s : State, Flushing s → s.pc = .txFcond → s.bsc.txq = q →
    ∃ t, EngineRuns s t ∧ t.pc = .idle ∧ t.bsc = { s.bsc with txq := [], txl := none } ∧
      t.obs = { s.obs with
        responses := s.obs.responses ++ [BitVec.ofNat 32 s.eng.count]
        requests := s.obs.requests ++ (List.replicate (q.length + 1) (flushRequests s.par s.bsc.cr)).flatten } := by
  induction q with
  | nil =>
    intro s hf hpc hq
    have hcycle := run_flush_cycle hf hpc (l := .txLoff) (by rw [if_pos hq])
    have hdone : engineStep (toggled (goto .txLoff (frRead s))) = _ :=
      (engineStep_txDone rfl).trans (returnWith_done _ hf.count)
    refine ⟨_, hcycle.trans (EngineRuns.step hdone hf.quiet), rfl, ?_, ?_⟩
    · simp [toggled, hq]
    · simp [toggled, frRead, flushRequests]
  | cons b q ih =>
    intro s hf hpc hq
    have hcycle := run_flush_cycle hf hpc (l := .txFoff) (by rw [hq]; rfl)
    obtain ⟨t, hrest, hidle, hbsc, hobs⟩ := ih (toggled (goto .txFoff (frRead s)))
      ⟨hf.par, hf.quiet, hf.half, hf.ready, hf.txe, hf.brk, hf.count⟩ rfl (by simp [toggled, hq])
    refine ⟨t, hcycle.trans hrest, hidle, hbsc, ?_⟩
    rw [hobs]
    simp [toggled, frRead, flushRequests, List.replicate_succ]

/-- The three words counted in the flush occur once in each cycle, since they differ in register, direction or TXE. -/
theorem flushRequests_count {p : Params} (hv : p.Valid) {cr : Word} (htxe : txeOf p cr = true) :
    (flushRequests p cr).count (readRequest p .fr) = 1 ∧
    (flushRequests p cr).count (writeRequest p .cr (toggleOffWord p cr)) = 1 ∧
    (flushRequests p cr).count (writeRequest p .cr cr) = 1 := by
  obtain ⟨⟨-, -, hcr, hfr⟩, -, -, -, -, -, hne⟩ := indices_apart hv
  have hdiff : toggleOffWord p cr ≠ cr := fun heq => by
    have hoff := txeOf_toggleOff hv cr
    rw [heq, htxe] at hoff
    cases hoff
  simp [flushRequests, readRequest, writeRequest, regIndex, requestWord_inj, Nat.mod_eq_of_lt hcr,
    Nat.mod_eq_of_lt hfr, hne, hdiff, hdiff.symm]

theorem count_flatten_replicate {w : Request} {l : List Request} (h : l.count w = 1) (n : Nat) :
    (List.replicate n l).flatten.count w = n := by
  simp [List.count_flatten, h]

/-- Settles O59: by induction on the queued bytes, with each word counted once per cycle. -/
theorem flushEmptiesTransmitPath : Obligations.FlushEmptiesTransmitPath := by
  intro s hv hs hpc hhalf hready htxe hbrk hcount
  obtain ⟨t, hruns, hidle, hbsc, hobs⟩ :=
    flush_runs s.bsc.txq s ⟨hv, hs, hhalf, hready, htxe, hbrk, hcount⟩ hpc rfl
  obtain ⟨k, hrun⟩ := hruns.exists_run
  obtain ⟨hfr, hoff, hon⟩ := flushRequests_count hv htxe
  exact ⟨k, t, _, hrun, hidle, hbsc, by rw [hobs], by rw [hobs], count_flatten_replicate hfr _,
    count_flatten_replicate hoff _, count_flatten_replicate hon _⟩

end Sys2Proof.Machine
end

