-- ==== Sys2Proof/Proofs/WholeCommands.lean ====
section
/-! PROOFS. Whole commands with no other agent stepping: `SENSE` (43:R210 to R212), `RXPOLL` with a quiet master (41:R160)
and `TXSTREAM` with a received byte waiting (42:R191(e)). -/

namespace Sys2Proof.Machine

/-- The engine takes the presented command in `IDLE` and launches it. -/
theorem engineStep_launch {s : State} {cw : Word} {i : Instr} {launch : State → State} (hpc : s.pc = .idle)
    (hcmd : s.host.cmd = some cw) (hd : decodeCommand cw = .ok i) (hexec : ∀ u, exec i u = acceptWith launch u)
    (hready : PReady s) : engineStep s = .next (launch (takeCommand s)) := by
  rw [engineStep_of_command (fetch_of_idle hpc hcmd) hd, hexec]
  exact acceptWith_of_ready (s := takeCommand s) launch hready

/-! ### Steps that only look -/

/-- What a test, a snapshot or a change of label leaves alone. -/
structure Unmoved (s t : State) : Prop where
  par : t.par = s.par
  script : t.env.script = s.env.script
  half : t.half = s.half
  host : t.host = s.host
  bsc : t.bsc = s.bsc
  log : t.log = s.log
  responses : t.obs.responses = s.obs.responses
  calls : t.obs.calls = s.obs.calls
  n : t.eng.n = s.eng.n
  cap : t.eng.cap = s.eng.cap
  offered : t.eng.offered = s.eng.offered

theorem Unmoved.trans {r s t : State} (h : Unmoved r s) (h' : Unmoved s t) : Unmoved r t :=
  ⟨h'.par.trans h.par, h'.script.trans h.script, h'.half.trans h.half, h'.host.trans h.host, h'.bsc.trans h.bsc,
    h'.log.trans h.log, h'.responses.trans h.responses, h'.calls.trans h.calls, h'.n.trans h.n, h'.cap.trans h.cap,
    h'.offered.trans h.offered⟩

theorem goto_unmoved (l : Label) (s : State) : Unmoved s (goto l s) := ⟨rfl, rfl, rfl, rfl, rfl, rfl, rfl, rfl, rfl, rfl, rfl⟩

theorem frRead_unmoved (s : State) : Unmoved s (frRead s) := ⟨rfl, rfl, rfl, rfl, rfl, rfl, rfl, rfl, rfl, rfl, rfl⟩

theorem rsrRead_unmoved (s : State) : Unmoved s (rsrRead s) := ⟨rfl, rfl, rfl, rfl, rfl, rfl, rfl, rfl, rfl, rfl, rfl⟩

theorem afterAcct_unmoved (s : State) : Unmoved s (afterAcct s) := ⟨rfl, rfl, rfl, rfl, rfl, rfl, rfl, rfl, rfl, rfl, rfl⟩

theorem stepTxCalc_unmoved (s : State) : Unmoved s (stepTxCalc s) :=
  ⟨rfl, rfl, rfl, rfl, rfl, rfl, rfl, rfl, rfl, rfl, rfl⟩

/-! ### SENSE -/

/-- `SN_DONE` returns the RXBUSY bit of the snapshot of `SN_RD` (43:R211). -/
theorem engineStep_snDone_of_frRead {s : State} (hv : s.par.Valid) :
    engineStep (goto .snDone (frRead s)) = .next { goto .snDone (frRead s) with
      pc := .idle
      obs := { s.obs with
        responses := s.obs.responses ++ [if s.bsc.bus = .masterWriting then 1#32 else 0#32]
        requests := s.obs.requests ++ [readRequest s.par .fr] } } := by
  have hbusy : rxbusyOf s.par (frRead s).eng.f = decide (s.bsc.bus = .masterWriting) := rxbusyOf_frRead hv
  have hvalue : engineStep (goto .snDone (frRead s)) =
      returnWith .done (if s.bsc.bus = .masterWriting then 1 else 0) (goto .snDone (frRead s)) := by
    rw [engineStep_snDone rfl, stepSnDone, goto_par, goto_eng, frRead_par, hbusy]
    simp only [decide_eq_true_eq]
  rw [hvalue]
  split
  · exact returnWith_done _ (by decide)
  · exact returnWith_done _ (by decide)

/-- Settles O57: accept, one read of FR, and the return of its RXBUSY bit. -/
theorem senseReportsBusy : Obligations.SenseReportsBusy := by
  intro s hv hs hpc hready hcmd
  have haccept := engineStep_launch hpc hcmd (decodeCommand_of_rowSense (by decide)) exec_sense hready
  have hread := engineStep_snRd (s := launchSense (takeCommand s)) hv hready.1 rfl
  have hreturn := engineStep_snDone_of_frRead (s := launchSense (takeCommand s)) hv
  have hrun := (run_engine_succ 2 hs haccept).trans ((run_engine_succ 1 (s := launchSense (takeCommand s)) hs hread).trans
    (run_engine_succ 0 (s := goto .snDone (frRead (launchSense (takeCommand s)))) hs hreturn))
  exact ⟨_, hrun, rfl, rfl, rfl, rfl⟩

/-! ### TXSTREAM -/

theorem commandWord_txstream (a : Addr) : a.setWidth 32 <<< 16 ||| 0x3#32 = commandWord a false 3#2 := by
  simp [commandWord]

theorem engineStep_txOcond_of_waiting {s : State} (hv : s.par.Valid) (hready : s.host.ready = true) (hpc : s.pc = .txOcond)
    (hrxq : s.bsc.rxq ≠ []) : engineStep s = .next (goto .txAcct (frRead s)) := by
  rw [engineStep_txOcond hv hready hpc, if_neg hrxq]

/-- From `TX_OCOND` with a received byte waiting the accounting follows at once (42:R174, R182, R183). -/
theorem txOcond_runs_to_flush {s : State} (hv : s.par.Valid) (hs : EngineOnly s) (hpc : s.pc = .txOcond)
    (hready : s.host.ready = true) (hrxq : s.bsc.rxq ≠ []) :
    ∃ t, EngineRuns s t ∧ t.pc = .txFcond ∧ Unmoved s t ∧ t.eng.count ≤ s.eng.offered := by
  have hocond := engineStep_txOcond_of_waiting hv hready hpc hrxq
  have htest : Unmoved s (goto .txAcct (frRead s)) := (frRead_unmoved s).trans (goto_unmoved _ _)
  have hacct := engineStep_txAcct (s := goto .txAcct (frRead s)) hv hready rfl
  have hlevel : Unmoved s (afterAcct (frRead (goto .txAcct (frRead s)))) :=
    htest.trans ((frRead_unmoved _).trans (afterAcct_unmoved _))
  have hcalc := engineStep_txCalc (s := afterAcct (frRead (goto .txAcct (frRead s)))) rfl
  exact ⟨_, (EngineRuns.step hocond hs).trans ((EngineRuns.step hacct (htest.script.trans hs)).trans
    (EngineRuns.step hcalc (hlevel.script.trans hs))), rfl, hlevel.trans (stepTxCalc_unmoved _),
    hlevel.offered ▸ clampedCount_le _ _⟩

/-- From `TX_INIT` with a received byte waiting the flush begins with nothing offered. -/
theorem txInit_runs_to_flush {s : State} (hv : s.par.Valid) (hs : EngineOnly s) (hpc : s.pc = .txInit)
    (hready : s.host.ready = true) (hcancel : s.host.cancel = false) (hrxq : s.bsc.rxq ≠ []) :
    ∃ t, EngineRuns s t ∧ t.pc = .txFcond ∧ Unmoved (stepTxInit s) t ∧ t.eng.count = 0 := by
  have hinit := engineStep_txInit hpc
  have hchk : engineStep (stepTxInit s) = .next (goto .txOcond (stepTxInit s)) := by
    rw [engineStep_checkpoint (l := .txK0) (next := .txOcond) (by decide) rfl]
    exact portChk_of_not_cancel _ hcancel
  obtain ⟨t, hruns, htpc, hunmoved, hcount⟩ :=
    txOcond_runs_to_flush (s := goto .txOcond (stepTxInit s)) hv hs rfl hready hrxq
  exact ⟨t, (EngineRuns.step hinit hs).trans ((EngineRuns.step hchk hs).trans hruns), htpc,
    (goto_unmoved _ _).trans hunmoved, Nat.le_zero.mp hcount⟩

/-- Settles O60: the outer condition fails at once, the count is 0, and the flush runs from `TX_FCOND`. -/
theorem streamWithRequestPendingOffersNothing : Obligations.StreamWithRequestPendingOffersNothing := by
  intro s a hv hs hpc hhalf hready hcancel hbrk hrxq hcmd
  rw [commandWord_txstream] at hcmd
  have htxe : txeOf s.par s.bsc.cr = true := (Bool.and_eq_true_iff.mp hready.2).2
  have hlaunch := engineStep_launch hpc hcmd (decodeCommand_commandWord_txstream a) (exec_txstream a) hready
  obtain ⟨u, hruns, hupc, hu, hucount⟩ :=
    txInit_runs_to_flush (s := launchTxstream a (takeCommand s)) hv hs rfl hready.1 hcancel hrxq
  have hflushing : Flushing u :=
    { par := hu.par ▸ hv
      quiet := hu.script.trans hs
      half := hu.half.trans hhalf
      ready := (congrArg HostSide.ready hu.host).trans hready.1
      txe := by rw [hu.par, hu.bsc]; exact htxe
      brk := by rw [hu.par, hu.bsc]; exact hbrk
      count := by rw [hucount]; decide }
  obtain ⟨t, hflush, hidle, hbsc, hobs⟩ := flush_runs u.bsc.txq u hflushing hupc rfl
  obtain ⟨k, hrun⟩ := (((EngineRuns.step hlaunch hs).trans hruns).trans hflush).exists_run
  refine ⟨k, t, hrun, hidle, ?_, ?_, ?_⟩
  · rw [hbsc, hu.bsc]
    rfl
  · rw [hobs, hucount, hu.responses]
    rfl
  · rw [hobs]
    exact hu.calls

/-! ### RXPOLL -/

theorem commandWord_rxpoll (c : BitVec 16) : c.setWidth 32 <<< 16 ||| 0x6#32 = commandWord c true 2#2 := by
  simp [commandWord, BitVec.or_assoc]

/-- What a poll with a buffer, a quiet master and `cancel = 0` keeps. -/
structure Polling (s : State) : Prop where
  par : s.par.Valid
  quiet : EngineOnly s
  half : s.half = false
  ready : s.host.ready = true
  cancel : s.host.cancel = false
  buf : s.host.bufPresent = true
  cap : s.eng.cap < 2 ^ 31

/-- The first event of `RX_CLR` with the flag set (20:R72). -/
def oeRecorded (s : State) : State := { s with half := true, log := s.log ++ [(1#3, .overrun)] }

/-- What the events of `RX_CLR` leave when the snapshot is up to date (41:R156): a set `OE` reported and cleared. -/
def oeReported (s : State) : State :=
  { s with
    pc := .rxDr
    bsc := { s.bsc with oe := false }
    log := s.log ++ (if s.bsc.oe = true then [(1#3, .overrun)] else [])
    obs := { s.obs with requests := s.obs.requests ++
      (if s.bsc.oe = true then [requestWord true s.par.idxRsr 0xFFFFFFFE#32] else []) } }

theorem rxClr_runs {s : State} (hp : Polling s) (hpc : s.pc = .rxClr) (hsnap : oeOf s.eng.r = s.bsc.oe) :
    EngineRuns s (oeReported s) := by
  have hreport := engineStep_rxClr_report hpc hp.half
  rw [stepReport_due _ _ _ _ hp.half, hsnap] at hreport
  cases hoe : s.bsc.oe with
  | false =>
    have hsame : oeReported s = goto .rxDr s := by
      have hbsc : { s.bsc with oe := false } = s.bsc := by rw [← hoe]
      simp [oeReported, hoe, hbsc, goto]
    rw [hoe] at hreport
    exact hsame ▸ EngineRuns.step hreport hp.quiet
  | true =>
    rw [hoe] at hreport
    have hclear : engineStep (oeRecorded s) = .next (oeReported s) := by
      rw [engineStep_rxClr_clear (s := oeRecorded s) hp.par hp.ready hpc rfl]
      simp [oeReported, oeRecorded, hoe, hp.half]
    exact (EngineRuns.step (t := oeRecorded s) hreport hp.quiet).trans (EngineRuns.step hclear hp.quiet)

theorem Polling.of_unmoved {s t : State} (h : Polling s) (hu : Unmoved s t) : Polling t where
  par := hu.par ▸ h.par
  quiet := hu.script.trans h.quiet
  half := hu.half.trans h.half
  ready := hu.host ▸ h.ready
  cancel := hu.host ▸ h.cancel
  buf := hu.host ▸ h.buf
  cap := hu.cap ▸ h.cap

/-- From `RX_COND` with room and a received byte waiting to the snapshot that `RX_CLR` tests (41:R154 to R156). -/
theorem rx_snapshot_runs {s : State} (hp : Polling s) (hpc : s.pc = .rxCond) (hroom : s.eng.n < s.eng.cap)
    (hq : s.bsc.rxq ≠ []) : ∃ t, EngineRuns s t ∧ t.pc = .rxClr ∧ oeOf t.eng.r = s.bsc.oe ∧ Unmoved s t := by
  have hcond : engineStep s = .next (goto .rxK1 (frRead s)) := by
    rw [engineStep_rxCond_room hp.par hp.ready hpc hroom, if_neg hq]
  have htest : Unmoved s (goto .rxK1 (frRead s)) := (frRead_unmoved s).trans (goto_unmoved _ _)
  have hchk : engineStep (goto .rxK1 (frRead s)) = .next (goto .rxRsr (goto .rxK1 (frRead s))) := by
    rw [engineStep_checkpoint (l := .rxK1) (next := .rxRsr) (by decide) rfl]
    exact portChk_of_not_cancel _ hp.cancel
  have hbody : Unmoved s (goto .rxRsr (goto .rxK1 (frRead s))) := htest.trans (goto_unmoved _ _)
  have hpb := hp.of_unmoved hbody
  have hrsr := engineStep_rxRsr hpb.par hpb.ready rfl
  exact ⟨_, (EngineRuns.step hcond hp.quiet).trans ((EngineRuns.step hchk (hp.of_unmoved htest).quiet).trans
    (EngineRuns.step hrsr hpb.quiet)), rfl, (oeOf_rsrRead _).trans (congrArg Bsc.oe hbody.bsc),
    hbody.trans ((rsrRead_unmoved _).trans (goto_unmoved _ _))⟩

/-- From the snapshot to the next test: report, pop and store (41:R156, R157). -/
theorem rx_store_runs {s : State} (hp : Polling s) (hpc : s.pc = .rxClr) (hsnap : oeOf s.eng.r = s.bsc.oe)
    (hroom : s.eng.n < s.eng.cap) {b : Byte} {rest : List Byte} (hq : s.bsc.rxq = b :: rest) :
    ∃ t, EngineRuns s t ∧ Polling t ∧ t.pc = .rxCond ∧ t.eng.n = s.eng.n + 1 ∧ t.eng.cap = s.eng.cap ∧
      t.bsc = { s.bsc with rxq := rest, oe := false } ∧ t.host.buf = Memory.write s.host.buf s.eng.n b ∧
      t.log = s.log ++ (if s.bsc.oe = true then [(1#3, .overrun)] else []) ∧ t.obs.responses = s.obs.responses := by
  have hdr := engineStep_rxDr (s := oeReported s) hp.par hp.ready rfl hq
  have hstore := (engineStep_rxStore rfl).trans (stepRxStore_of_room (s := drPopped b rest (oeReported s)) hp.buf hroom)
  refine ⟨_, (rxClr_runs hp hpc hsnap).trans ((EngineRuns.step hdr hp.quiet).trans (EngineRuns.step hstore hp.quiet)),
    ⟨hp.par, hp.quiet, hp.half, hp.ready, hp.cancel, hp.buf, hp.cap⟩, rfl, rfl, rfl, rfl, ?_, rfl, rfl⟩
  exact congrArg (Memory.write s.host.buf s.eng.n) (dataOf_drValue b _)

/-- One iteration of the loop (41:R154 to R157) with room and a received byte waiting. -/
theorem rx_iteration {s : State} (hp : Polling s) (hpc : s.pc = .rxCond) (hroom : s.eng.n < s.eng.cap) {b : Byte}
    {rest : List Byte} (hq : s.bsc.rxq = b :: rest) :
    ∃ t, EngineRuns s t ∧ Polling t ∧ t.pc = .rxCond ∧ t.eng.n = s.eng.n + 1 ∧ t.eng.cap = s.eng.cap ∧
      t.bsc = { s.bsc with rxq := rest, oe := false } ∧ t.host.buf = Memory.write s.host.buf s.eng.n b ∧
      t.log = s.log ++ (if s.bsc.oe = true then [(1#3, .overrun)] else []) ∧ t.obs.responses = s.obs.responses := by
  obtain ⟨u, hruns, hupc, husnap, hu⟩ :=
    rx_snapshot_runs hp hpc hroom (by rw [hq]; exact List.cons_ne_nil b rest)
  obtain ⟨t, hrest, hstored⟩ := rx_store_runs (hp.of_unmoved hu) hupc (by rw [husnap, hu.bsc])
    (by rwa [hu.n, hu.cap]) (by rwa [hu.bsc])
  rw [hu.n, hu.cap, hu.bsc, hu.host, hu.log, hu.responses] at hstored
  exact ⟨t, hruns.trans hrest, hstored⟩

/-- The loop ends at `RX_COND` with the buffer full or the receive FIFO empty, and the command returns `E.n` (41:R158). -/
theorem rx_exit {s : State} (hp : Polling s) (hpc : s.pc = .rxCond) (hn : s.eng.n ≤ s.eng.cap)
    (hend : s.eng.cap ≤ s.eng.n ∨ s.bsc.rxq = []) :
    ∃ t, EngineRuns s t ∧ t.pc = .idle ∧ t.bsc = s.bsc ∧ t.host = s.host ∧ t.log = s.log ∧
      t.obs.responses = s.obs.responses ++ [BitVec.ofNat 32 s.eng.n] := by
  have hfits : s.eng.n < 2 ^ 31 := Nat.lt_of_le_of_lt hn hp.cap
  by_cases hfull : s.eng.cap ≤ s.eng.n
  · have hcond := engineStep_rxCond_full hpc hfull
    have hdone := (engineStep_rxDone (s := goto .rxDone s) rfl).trans (returnWith_done _ hfits)
    exact ⟨_, (EngineRuns.step hcond hp.quiet).trans (EngineRuns.step hdone hp.quiet), rfl, rfl, rfl, rfl, rfl⟩
  · have hcond := engineStep_rxCond_room hp.par hp.ready hpc (Nat.not_le.mp hfull)
    rw [if_pos (hend.resolve_left hfull)] at hcond
    have hdone := (engineStep_rxDone (s := goto .rxDone (frRead s)) rfl).trans (returnWith_done _ hfits)
    exact ⟨_, (EngineRuns.step hcond hp.quiet).trans (EngineRuns.step hdone hp.quiet), rfl, rfl, rfl, rfl, rfl⟩

/-- What a poll that moves `m` bytes from `RX_COND` on leaves. -/
structure Polled (m : Nat) (s t : State) : Prop where
  pc : t.pc = .idle
  responses : t.obs.responses = s.obs.responses ++ [BitVec.ofNat 32 (s.eng.n + m)]
  stored : ∀ i, i < m → Memory.read t.host.buf (s.eng.n + i) = s.bsc.rxq[i]?
  kept : ∀ i, i < s.eng.n ∨ s.eng.n + m ≤ i → Memory.read t.host.buf i = Memory.read s.host.buf i
  bsc : t.bsc = { s.bsc with rxq := s.bsc.rxq.drop m, oe := if m = 0 then s.bsc.oe else false }
  log : t.log = s.log ++ (if s.bsc.oe = true ∧ m ≠ 0 then [(1#3, Event.overrun)] else [])

theorem Polled.zero {s t : State} (hpc : t.pc = .idle) (hbsc : t.bsc = s.bsc) (hhost : t.host = s.host)
    (hlog : t.log = s.log) (hresp : t.obs.responses = s.obs.responses ++ [BitVec.ofNat 32 s.eng.n]) : Polled 0 s t where
  pc := hpc
  responses := hresp
  stored i hi := absurd hi (Nat.not_lt_zero i)
  kept i _ := by rw [hhost]
  bsc := hbsc
  log := by simp [hlog]

/-- One iteration before a poll that moves `m` bytes makes one that moves `m + 1`. -/
theorem Polled.succ {m : Nat} {s u t : State} {b : Byte} {rest : List Byte} (h : Polled m u t) (hq : s.bsc.rxq = b :: rest)
    (hn : u.eng.n = s.eng.n + 1) (hbsc : u.bsc = { s.bsc with rxq := rest, oe := false })
    (hbuf : u.host.buf = Memory.write s.host.buf s.eng.n b)
    (hlog : u.log = s.log ++ (if s.bsc.oe = true then [(1#3, .overrun)] else []))
    (hresp : u.obs.responses = s.obs.responses) : Polled (m + 1) s t where
  pc := h.pc
  responses := by rw [h.responses, hresp, hn, Nat.add_right_comm, Nat.add_assoc]
  stored i hi := by
    cases i with
    | zero =>
      rw [h.kept _ (.inl (by omega)), hbuf, hq]
      exact Memory.read_write_same _ _ _
    | succ j =>
      have hj := h.stored j (by omega)
      rw [hn, hbsc] at hj
      rw [hq, show s.eng.n + (j + 1) = s.eng.n + 1 + j by omega]
      exact hj
  kept i hi := by
    rw [h.kept i (by omega), hbuf]
    exact Memory.read_write_other _ _ (by omega)
  bsc := by
    rw [h.bsc, hbsc, hq]
    simp
  log := by
    rw [h.log, hlog, hbsc]
    simp

/-- 41:R160(a), (d): the loop moves as many bytes as there are and as fit, by the bytes in the receive FIFO. -/
theorem rx_loop (q : List Byte) : ∀ s : State, Polling s → s.pc = .rxCond → s.eng.n ≤ s.eng.cap → s.bsc.rxq = q →
    ∃ t, EngineRuns s t ∧ Polled (min (s.eng.cap - s.eng.n) q.length) s t := by
  induction q with
  | nil =>
    intro s hp hpc hn hq
    obtain ⟨t, hruns, hidle, hbsc, hhost, hlog, hresp⟩ := rx_exit hp hpc hn (.inr hq)
    rw [List.length_nil, Nat.min_zero]
    exact ⟨t, hruns, .zero hidle hbsc hhost hlog hresp⟩
  | cons b rest ih =>
    intro s hp hpc hn hq
    by_cases hfull : s.eng.cap ≤ s.eng.n
    · obtain ⟨t, hruns, hidle, hbsc, hhost, hlog, hresp⟩ := rx_exit hp hpc hn (.inl hfull)
      rw [Nat.sub_eq_zero_of_le hfull, Nat.zero_min]
      exact ⟨t, hruns, .zero hidle hbsc hhost hlog hresp⟩
    · obtain ⟨u, hiter, hpu, hupc, hun, hucap, hubsc, hubuf, hulog, huresp⟩ :=
        rx_iteration hp hpc (Nat.not_le.mp hfull) hq
      obtain ⟨t, hrest, hpolled⟩ := ih u hpu hupc (by omega) (by rw [hubsc])
      have hmin : min (s.eng.cap - s.eng.n) (b :: rest).length = min (u.eng.cap - u.eng.n) rest.length + 1 := by
        rw [List.length_cons]
        omega
      rw [hmin]
      exact ⟨t, hiter.trans hrest, hpolled.succ hq hun hubsc hubuf hulog huresp⟩

/-- What `RX_ENTRY` with a buffer leaves (41:R152). -/
def rxStarted (s : State) : State := { s with pc := .rxK0, eng := { s.eng with n := 0 } }

/-- From the accepted command to the first test of the loop, with `E.n = 0` (41:R150 to R152). -/
theorem rx_start_runs {s : State} {c : BitVec 16} (hv : s.par.Valid) (hs : EngineOnly s) (hpc : s.pc = .idle)
    (hhalf : s.half = false) (hready : PReady s) (hcancel : s.host.cancel = false)
    (hcmd : s.host.cmd = some (commandWord c true 2#2)) :
    ∃ t, EngineRuns s t ∧ Polling t ∧ t.pc = .rxCond ∧ t.eng.n = 0 ∧ t.eng.cap = c.toNat ∧ t.bsc = s.bsc ∧
      t.host.buf = Memory.ofCells c.toNat s.host.cmdBuf ∧ t.log = s.log ∧ t.obs.responses = s.obs.responses := by
  have hlaunch := engineStep_launch hpc hcmd (decodeCommand_commandWord_rxpoll true c) (exec_rxpoll true c) hready
  have hentry : engineStep (launchRxpoll true c (takeCommand s)) = .next (rxStarted (launchRxpoll true c (takeCommand s))) :=
    (engineStep_rxEntry rfl).trans (if_pos rfl)
  have hchk : engineStep (rxStarted (launchRxpoll true c (takeCommand s))) =
      .next (goto .rxCond (rxStarted (launchRxpoll true c (takeCommand s)))) := by
    rw [engineStep_checkpoint (l := .rxK0) (next := .rxCond) (by decide) rfl]
    exact portChk_of_not_cancel _ hcancel
  exact ⟨_, (EngineRuns.step hlaunch hs).trans ((EngineRuns.step hentry hs).trans (EngineRuns.step hchk hs)),
    ⟨hv, hs, hhalf, hready.1, hcancel, rfl, Nat.lt_trans c.isLt (by decide)⟩, rfl, rfl, rfl, rfl, rfl, rfl, rfl⟩

/-- Settles O58: the loop from `E.n = 0` moves `min(c, k)` bytes. -/
theorem receivePollerReturnsMin : Obligations.ReceivePollerReturnsMin := by
  intro s c hv hs hpc hhalf hready hcancel hcmd
  rw [commandWord_rxpoll] at hcmd
  obtain ⟨u, hstart, hpu, hupc, hun, hucap, hubsc, hubuf, hulog, huresp⟩ :=
    rx_start_runs hv hs hpc hhalf hready hcancel hcmd
  obtain ⟨t, hloop, hpolled⟩ := rx_loop u.bsc.rxq u hpu hupc (by omega) rfl
  rw [hun, hucap, hubsc, Nat.sub_zero] at hpolled
  obtain ⟨hidle, hresp, hstored, hkept, hbsc, hlog⟩ := hpolled
  simp only [hun, Nat.zero_add, Nat.not_lt_zero, false_or] at hresp hstored hkept
  rw [huresp] at hresp
  rw [hubsc] at hstored hbsc hlog
  rw [hubuf] at hkept
  rw [hulog] at hlog
  obtain ⟨k, hrun⟩ := (hstart.trans hloop).exists_run
  exact ⟨k, t, hrun, hidle, hresp, hstored, hkept, hbsc, hlog⟩

end Sys2Proof.Machine
end
